-- ==== Sys2Proof/Word.lean ====
section
/-! DEFINITION. The word types of GRC: the 32-bit command word and operands (00_scope.md R6, 10_state.md R21), the
8-bit byte (20_memory.md R71), and the bit strings of the wire format in stream order (00_scope.md R9). -/

namespace Sys2Proof

/-- A 32-bit command word or operand. -/
abbrev Word := BitVec 32

/-- A byte of the sink, the source or the line buffer. -/
abbrev Byte := BitVec 8

/-- A bit string in stream order: the head is the bit written or read first. -/
abbrev Bits := List Bool

end Sys2Proof
end

