-- ==== Sys2Proof/Config.lean ====
section
/-! DEFINITION. What an implementation fixes (the parameters of 00_scope.md R6) and the values the spec leaves free:
what the registers hold while the core is faulted (10_state.md R48, 60_exceptions.md R320). -/

namespace Sys2Proof.Config

/-- `LINE_DEPTH` where a number is needed (R6). The value an instance has is `State.lineDepth`. -/
def lineDepthDefault : Nat := 65536

/-- `M1D_MAX`, the upper clamp of the 1-D estimator (R6). -/
def m1dMax : Nat := 256

/-- The largest value of register `M`, whose width is `MW = 16` (R6, R28). -/
def mMax : Nat := 65535

/-- `MID`, the spatial prediction at `(0, 0)` (R6). -/
def mid : Int := 128

/-- The largest value the Golomb code carries, `2^XW - 1` (R6). -/
def valueMax : Nat := 4294967295

/-- The largest `CNT`, whose width is `CNTW = 32` (R6, R203). -/
def cntMax : Nat := 4294967295

/-- FREE VALUE (notes/assumptions/1.md). The content, `w` bits wide, of the register numbered `reg` in R27, after the
fault that bears the serial number `n`. R320 leaves it unspecified. -/
opaque unspecified (w : Nat) (reg : Nat) (n : Nat) : BitVec w

/-- FREE VALUE. `SINKCAP` after fault `n` (93_implementation_defined.md I1). -/
opaque unspecifiedCap (n : Nat) : Option Nat

/-- FREE VALUE. `IN` after fault `n` (R320). -/
opaque unspecifiedSource (n : Nat) : List Byte

/-- FREE VALUE. `RPOS` after fault `n` (R320). -/
opaque unspecifiedPos (n : Nat) : Nat

/-- FREE VALUE. The writes that make up the content of `LINE` after fault `n` (R320). -/
opaque unspecifiedLine (n : Nat) : List (Nat × Byte)

end Sys2Proof.Config
end

