-- ==== Sys2Proof/Syntax.lean ====
section
/-! DEFINITION. The abstract syntax of GRC: one constructor of `Instr` per row of spec/opcode_table.json
(30_encoding.md R103), with the immediate and the operands that row's command uses, and the encoding of a command
line as the triple `(CMD, OPA, OPB)` (R106). -/

namespace Sys2Proof

/-- The numbered registers that RDREG and WRREG can name (10_state.md R27), in the order of their numbers. -/
inductive Reg where
  | status | m | b | cutoff | acc | nbits
  | srate | nch | bps | nsamp | flags | rows | cols | pmode
  | sumlo | sumhi | cnt | h1 | h2 | h3 | hcnt
  | ch | idx | row | col | areg | creg
  deriving DecidableEq, Repr

/-- A GRC command with its immediate and the operands it uses. An operand a command ignores (R101) is no argument. -/
inductive Instr where
  /-- NOP (40_system.md R140) -/
  | nop
  /-- RESET (R141) -/
  | reset
  /-- RDREG, `IMM8` = the register (R142) -/
  | rdreg (r : Reg)
  /-- WRREG, `IMM8` = the register, `OPA` = the value (R143) -/
  | wrreg (r : Reg) (opa : Word)
  /-- OPENW (41_bitchannel.md R155) -/
  | openw
  /-- OPENR (R156) -/
  | openr
  /-- CLOSE (R157) -/
  | close
  /-- PUTBIT, the bit in `OPA[0]` (R160) -/
  | putbit (opa : Word)
  /-- PUTBITS, `IMM8` = the number of bits, `OPA` = the value (R161) -/
  | putbits (n : BitVec 8) (opa : Word)
  /-- GETBIT (R162) -/
  | getbit
  /-- GETBITS, `IMM8` = the number of bits (R163) -/
  | getbits (n : BitVec 8)
  /-- SETM, `OPA` = `m` (42_golomb.md R180) -/
  | setm (opa : Word)
  /-- ENCU, `OPA` = the value, signed (R181) -/
  | encu (opa : Word)
  /-- DECU (R182) -/
  | decu
  /-- ENCZ, `OPA` = the value, signed (R183) -/
  | encz (opa : Word)
  /-- DECZ (R184) -/
  | decz
  /-- ENCS, `OPA` = the value, signed (R185) -/
  | encs (opa : Word)
  /-- DECS (R186) -/
  | decs
  /-- ESTCLR (43_estimator.md R201) -/
  | estclr
  /-- ESTACC, `OPA` = the residual, signed (R202) -/
  | estacc (opa : Word)
  /-- EST1D (R207) -/
  | est1d
  /-- EST2D (R211) -/
  | est2d
  /-- P1RST (44_predictors.md R234) -/
  | p1rst
  /-- P1PUSH, `OPA` = the sample, signed (R235) -/
  | p1push (opa : Word)
  /-- P1PRED, `IMM8` = the predictor, `OPA` = the reference sample, signed (R236) -/
  | p1pred (k : BitVec 8) (opa : Word)
  /-- P2PRED (R237) -/
  | p2pred
  /-- BEGIN1A (45_codec1d.md R251) -/
  | begin1a
  /-- RSD1, `OPA` = the sample, `OPB` = the reference sample (R257) -/
  | rsd1 (opa opb : Word)
  /-- WRHDR1 (R258) -/
  | wrhdr1
  /-- ENC1, `OPA` = the sample, `OPB` = the reference sample (R259) -/
  | enc1 (opa opb : Word)
  /-- RDHDR1 (R260) -/
  | rdhdr1
  /-- DEC1, `OPA` = the reference sample (R261) -/
  | dec1 (opa : Word)
  /-- BEGIN2A (46_codec2d.md R281) -/
  | begin2a
  /-- RSD2, `OPA` = the pixel, unsigned (R287) -/
  | rsd2 (opa : Word)
  /-- WRHDR2 (R288) -/
  | wrhdr2
  /-- ENC2, `OPA` = the pixel, unsigned (R289) -/
  | enc2 (opa : Word)
  /-- RDHDR2 (R290) -/
  | rdhdr2
  /-- DEC2 (R291) -/
  | dec2
  deriving DecidableEq, Repr

/-- The encoding of a command line: the triple `(CMD, OPA, OPB)` (R106). -/
structure Words where
  cmd : Word
  opa : Word
  opb : Word
  deriving DecidableEq, Repr

end Sys2Proof
end

