-- ==== Sys2Proof/Machine/State.lean ====
section
/-! DEFINITION. The state of one GRC instance as plain data (10_state.md R20), the host interface's transactions and
responses (R21, R22, R53), the reasons a step can stop, and the state right after reset (R50). -/

namespace Sys2Proof.Machine

/-- `MODE`: what the bit channel is (10_state.md R30). The value 3 never occurs (R25). -/
inductive Mode where
  | closed | write | read
  deriving DecidableEq, Repr

/-- `PHASE`: the state of the codec sequencer (10_state.md R47). The value 7 never occurs (R25). -/
inductive Phase where
  | idle | s1anl | s1enc | s1dec | s2anl | s2enc | s2dec
  deriving DecidableEq, Repr

/-- The cause codes 1 to 6 (60_exceptions.md R311). -/
inductive Cause where
  | invalidArgument | invalidEncoding | unexpectedEof | ioError | illegalCommand | rangeOverflow
  deriving DecidableEq, Repr

/-- A response to a command (10_state.md R22). -/
inductive Response where
  | ok (v : Word)
  | eod
  | fault (c : Cause)
  deriving DecidableEq, Repr

/-- The environment inputs of OPENW and OPENR (10_state.md R53). -/
structure Env where
  /-- `open_ok`: the sink or the source can be opened. -/
  openOk : Bool
  /-- `cap`: how many bytes the sink accepts; `none` is infinity. -/
  cap : Option Nat
  /-- `data`: the whole content of the source. -/
  data : List Byte
  deriving DecidableEq, Repr

/-- A transaction: the triple of words and the environment inputs that come with it (10_state.md R21). -/
structure Txn where
  words : Words
  env : Env
  deriving DecidableEq, Repr

/-- What the host does to the core: a transaction (10_state.md R21), or the hardware reset input
(70_reset_and_hazards.md R350; notes/assumptions/6.md). -/
inductive HostEvent where
  | transact (t : Txn)
  | hardwareReset
  deriving DecidableEq, Repr

/-- Cells of 8-bit entries by index, in one canonical form: indexes strictly rising, no entry equal to what an
unlisted index reads as (notes/assumptions/7.md). -/
abbrev Memory := List Host.Cell

/-- The complete state of one instance (10_state.md R20). The last five fields are the model's own. -/
structure State where
  /-- `CAUSE` (R25, R26): `none` is 0, not faulted. -/
  cause : Option Cause
  /-- `M`, the Golomb parameter (R28). -/
  m : BitVec 16
  /-- `B` (R29). -/
  b : BitVec 5
  /-- `CUTOFF` (R29). -/
  cutoff : BitVec 16
  /-- `MODE` (R30). -/
  mode : Mode
  /-- `ACC` (R31, R32). -/
  acc : Byte
  /-- `NBITS` (R31, R32). -/
  nbits : BitVec 4
  /-- `OUT`, the sink (R33). -/
  out : List Byte
  /-- `SINKCAP` (R33): `none` is infinity. -/
  sinkCap : Option Nat
  /-- `IN`, the source (R34). -/
  inp : List Byte
  /-- `RPOS` (R34). -/
  rpos : Nat
  /-- `SRATE` (R36). -/
  srate : BitVec 32
  /-- `NCH` (R36). -/
  nch : BitVec 16
  /-- `BPS` (R36). -/
  bps : BitVec 16
  /-- `NSAMP` (R36). -/
  nsamp : BitVec 32
  /-- `FLAGS` (R36): bit 0 is `ADAPT`, bit 1 is `ICP`. -/
  flags : BitVec 2
  /-- `ROWS` (R37). -/
  rows : BitVec 32
  /-- `COLS` (R37). -/
  cols : BitVec 32
  /-- `PMODE` (R37). -/
  pmode : BitVec 8
  /-- `SUM` (R38). -/
  sum : BitVec 64
  /-- `CNT` (R38). -/
  cnt : BitVec 32
  /-- `H1`, signed (R40). -/
  h1 : BitVec 16
  /-- `H2`, signed (R40). -/
  h2 : BitVec 16
  /-- `H3`, signed (R40). -/
  h3 : BitVec 16
  /-- `HCNT` (R40). -/
  hcnt : BitVec 2
  /-- `AREG` (R44). -/
  areg : Byte
  /-- `CREG` (R44). -/
  creg : Byte
  /-- `LINE[0 .. LINE_DEPTH-1]` (R44). -/
  line : Memory
  /-- `PHASE` (R47). -/
  phase : Phase
  /-- `CH` (R41). -/
  ch : BitVec 1
  /-- `IDX` (R41). -/
  idx : BitVec 32
  /-- `ROW` (R44). -/
  row : BitVec 32
  /-- `COL` (R44). -/
  col : BitVec 32
  /-- `LINE_DEPTH`, a parameter fixed per instance (00_scope.md R6, 10_state.md R53; notes/assumptions/5.md). -/
  lineDepth : Nat
  /-- What the host will do next, in order (R21, R24; notes/assumptions/2.md). -/
  pending : List HostEvent
  /-- The environment inputs of the transaction in progress (R53; notes/assumptions/4.md). -/
  env : Env
  /-- The response to the last command, `none` before the first (R22; notes/assumptions/3.md). -/
  resp : Option Response
  /-- How many faults have been taken: selects the free values of the next (notes/assumptions/1.md). -/
  serial : Nat
  deriving DecidableEq, Repr

/-- Why the machine stops without a next state. -/
inductive Fault where
  /-- Raised where a 2-D command would read or write `LINE[i]` with `i` at or above `LINE_DEPTH`: no such entry exists
  (20_memory.md R70). SAFE: it happens only in states that no run reaches (notes/assumptions/7.md). -/
  | lineIndex (i : Nat)
  deriving DecidableEq, Repr

/-- Why the machine gives an instruction no meaning. -/
inductive Refusal where
  /-- Raised by an arm of `exec` whose instruction has no meaning yet; no arm of this model does. SAFE: the run
  stops. -/
  | notModelled (mnemonic : String)
  deriving DecidableEq, Repr

/-- The inputs of a transaction that names none, as the vectors of 95_test_vectors.md read `OPENW` and 10.2 `OPENR`:
`open_ok` = 1, `cap` infinite, `data` empty (notes/assumptions/4.md). -/
def Env.standard : Env where
  openOk := true
  cap := none
  data := []

/-- The state right after reset: 10_state.md R50 and the table of R27, with `LINE_DEPTH` at the spec's default and
no host event pending. -/
def State.reset : State where
  cause := none
  m := 1
  b := 0
  cutoff := 0
  mode := .closed
  acc := 0
  nbits := 0
  out := []
  sinkCap := some 0
  inp := []
  rpos := 0
  srate := 0
  nch := 0
  bps := 0
  nsamp := 0
  flags := 0
  rows := 0
  cols := 0
  pmode := 0
  sum := 0
  cnt := 0
  h1 := 0
  h2 := 0
  h3 := 0
  hcnt := 0
  areg := 0
  creg := 0
  line := []
  phase := .idle
  ch := 0
  idx := 0
  row := 0
  col := 0
  lineDepth := Config.lineDepthDefault
  pending := []
  env := Env.standard
  resp := none
  serial := 0

/-- The outcome of a command. -/
abbrev Out := Host.Outcome State Fault Refusal

end Sys2Proof.Machine
end

