-- ==== Sys2Proof/Machine/Flags.lean ====
section
/-! DEFINITION. The only status flags of GRC: the fields of `STATUS` (10_state.md R25, R26) with their codes, and the
level output `FAULT` (60_exceptions.md R330). -/

namespace Sys2Proof.Machine

/-- The code of `MODE` (10_state.md R30). -/
def modeCode : Mode → BitVec 2
  | .closed => 0
  | .write => 1
  | .read => 2

/-- The code of `PHASE` (10_state.md R47). -/
def phaseCode : Phase → BitVec 3
  | .idle => 0
  | .s1anl => 1
  | .s1enc => 2
  | .s1dec => 3
  | .s2anl => 4
  | .s2enc => 5
  | .s2dec => 6

/-- The code of a cause (60_exceptions.md R311). -/
def causeCode : Cause → BitVec 4
  | .invalidArgument => 1
  | .invalidEncoding => 2
  | .unexpectedEof => 3
  | .ioError => 4
  | .illegalCommand => 5
  | .rangeOverflow => 6

/-- The value of the register field `CAUSE`: 0 when not faulted (R25, R312). -/
def causeField : Option Cause → BitVec 4
  | none => 0
  | some c => causeCode c

/-- `STATUS`: `CAUSE` in 3:0, `MODE` in 5:4, `PHASE` in 10:8, every other bit 0 (R25). -/
def statusWord (s : State) : Word :=
  (0 : BitVec 21) ++ (phaseCode s.phase ++ ((0 : BitVec 2) ++ (modeCode s.mode ++ causeField s.cause)))

/-- The output `FAULT`: 1 exactly when `CAUSE` is not 0 (R330). -/
def faultSignal (s : State) : Bool := s.cause.isSome

end Sys2Proof.Machine
end

