-- ==== Sys2Proof/Machine/Memory.lean ====
section
/-! DEFINITION. The line buffer `LINE` as canonical cells (20_memory.md R70, 10_state.md R44; notes/assumptions/7.md). -/

namespace Sys2Proof.Machine

/-- What an unlisted entry reads as: the reset content of `LINE` (10_state.md R50). -/
def Memory.unlisted : Byte := 0

/-- The entry at an index. -/
def Memory.read : Memory → Nat → Byte
  | [], _ => Memory.unlisted
  | (k, v) :: rest, a => if a = k then v else Memory.read rest a

/-- Set the entry at an index, keeping the canonical form. -/
def Memory.write : Memory → Nat → Byte → Memory
  | [], a, y => if y = Memory.unlisted then [] else [(a, y)]
  | (k, v) :: rest, a, y =>
    if a < k then (if y = Memory.unlisted then (k, v) :: rest else (a, y) :: (k, v) :: rest)
    else if a = k then (if y = Memory.unlisted then rest else (k, y) :: rest)
    else (k, v) :: Memory.write rest a y

/-- The canonical form above a bound: indexes strictly rising from `low` on, no entry equal to an unlisted one. -/
def Memory.wfFrom : (low : Nat) → Memory → Bool
  | _, [] => true
  | low, (k, v) :: rest => decide (low ≤ k) && decide (v ≠ Memory.unlisted) && Memory.wfFrom (k + 1) rest

/-- The canonical form. -/
def Memory.wf (mem : Memory) : Bool := Memory.wfFrom 0 mem

/-- The content that a list of writes leaves in a zero line buffer of `depth` entries. -/
def Memory.ofWrites (depth : Nat) (ws : List (Nat × Byte)) : Memory :=
  ws.foldl (fun mem c => if c.1 < depth then Memory.write mem c.1 c.2 else mem) []

/-- `LINE[i]`, which exists for `i` below `LINE_DEPTH` (10_state.md R44). -/
def lineRead (s : State) (i : Nat) : Option Byte :=
  if i < s.lineDepth then some (s.line.read i) else none

/-- `LINE[i] <- y`; an index that does not exist is not written. -/
def lineWrite (i : Nat) (y : Byte) (s : State) : State :=
  if i < s.lineDepth then { s with line := s.line.write i y } else s

end Sys2Proof.Machine
end

