-- ==== Sys2Proof/Machine/Operands.lean ====
section
/-! DEFINITION. How commands read their operands and the integer functions of the rules (00_scope.md R10): exact
arithmetic on integers (R7), with the range checks of the command rules. -/

namespace Sys2Proof.Machine

/-- `s32(w)`: a 32-bit operand read as signed (R10). -/
def s32 (w : Word) : Int := w.toInt

/-- `u32(n)`: the 32-bit two's-complement pattern of an integer (R10). -/
def u32 (n : Int) : Word := BitVec.ofInt 32 n

/-- `tdiv2(a)`: division by 2 truncating toward zero (R10). -/
def tdiv2 (a : Int) : Int := if 0 ≤ a then a / 2 else -(-a / 2)

/-- `clamp(a, lo, hi)` (R10). -/
def clamp (a lo hi : Int) : Int := max lo (min hi a)

/-- The least `b` from `start` on with `2^b >= m`, tried `fuel` times. -/
def clog2From : (fuel start m : Nat) → Nat
  | 0, start, _ => start
  | fuel + 1, start, m => if m ≤ 2 ^ start then start else clog2From fuel (start + 1) m

/-- `clog2(m)` for `m` of at most 32 bits: the least `b` with `2^b >= m` (R10). -/
def clog2 (m : Nat) : Nat := clog2From 32 0 m

/-- A 1-D sample or reference sample: signed 16 bits (00_scope.md R6 `SW`; 45_codec1d.md R257). -/
def isSample (x : Int) : Bool := decide (-32768 ≤ x ∧ x ≤ 32767)

/-- A pixel operand: unsigned 8 bits (46_codec2d.md R282). -/
def isPixel (w : Word) : Bool := decide (w.toNat ≤ 255)

/-- `zz(n)`: zigzag mapping of a signed integer (30_encoding.md R114). -/
def zz (n : Int) : Nat := if 0 ≤ n then (2 * n).toNat else (-2 * n - 1).toNat

/-- `unzz(v)`: the inverse of `zz` (R114). -/
def unzz (v : Nat) : Int := if v % 2 = 0 then (v / 2 : Nat) else -((v + 1) / 2 : Nat)

/-- `b` with bit `i` set to `x`; bits are numbered from 0 at the least significant (R9). -/
def setBit (b : Byte) (i : Nat) (x : Bool) : Byte :=
  if x then b ||| (1#8 <<< i) else b &&& ~~~(1#8 <<< i)

/-- The bit a Boolean stands for, as a number. -/
def bitVal (x : Bool) : Nat := if x then 1 else 0

end Sys2Proof.Machine
end

