-- ==== Sys2Proof/Machine/Ops.lean ====
section
/-! DEFINITION. The operations every command shares: taking a fault and returning from one, the prologue, the outcome
of a command, the numbered registers, the transaction port, and the bit channel's micro-operations. -/

namespace Sys2Proof.Machine

/-! ### How a command ends -/

/-- What a part of a command's pseudocode comes to: it goes on with a value and a state, it raises a cause in the state
it has reached (60_exceptions.md R320), or the model stops (`Fault`). -/
inductive Res (α : Type) where
  | ok (a : α) (s : State)
  | raise (c : Cause) (s : State)
  | stop (f : Fault)
  deriving Repr

/-- Statements in sequence: after `raise`, no later statement runs (00_scope.md R12). -/
def Res.bind {α β : Type} (r : Res α) (k : α → State → Res β) : Res β :=
  match r with
  | .ok a s => k a s
  | .raise c s => .raise c s
  | .stop f => .stop f

/-- End the command with a response. -/
def respond (r : Response) (s : State) : State := { s with resp := some r }

/-- `respond Ok(v)`. -/
def answer (v : Word) (s : State) : Res Response := .ok (.ok v) s

/-- The sink accepts one more byte: `|OUT| < SINKCAP` (20_memory.md R72). -/
def sinkRoom (s : State) : Bool :=
  match s.sinkCap with
  | none => true
  | some k => decide (s.out.length < k)

/-- The bytes a fault leaves in `OUT`: a writer's partial byte is flushed, zero-padded, unless the cause is `IoError` or
the sink is full (60_exceptions.md R320). -/
def flushed (c : Cause) (s : State) : List Byte :=
  if s.mode = .write ∧ s.nbits ≠ 0 ∧ c ≠ .ioError ∧ sinkRoom s then s.out ++ [s.acc]
  else s.out

/-- The unspecified registers at free values: every register of 10_state.md R27 but those in `STATUS`, and `SINKCAP`,
`IN`, `RPOS`, `LINE` (60_exceptions.md R320, 93_implementation_defined.md I1; notes/assumptions/1.md). -/
def unspecify (s : State) : State :=
  { s with
    m := Config.unspecified 16 0x01 s.serial
    b := Config.unspecified 5 0x02 s.serial
    cutoff := Config.unspecified 16 0x03 s.serial
    acc := Config.unspecified 8 0x04 s.serial
    nbits := Config.unspecified 4 0x05 s.serial
    srate := Config.unspecified 32 0x08 s.serial
    nch := Config.unspecified 16 0x09 s.serial
    bps := Config.unspecified 16 0x0A s.serial
    nsamp := Config.unspecified 32 0x0B s.serial
    flags := Config.unspecified 2 0x0C s.serial
    rows := Config.unspecified 32 0x0D s.serial
    cols := Config.unspecified 32 0x0E s.serial
    pmode := Config.unspecified 8 0x0F s.serial
    sum := Config.unspecified 64 0x10 s.serial
    cnt := Config.unspecified 32 0x12 s.serial
    h1 := Config.unspecified 16 0x13 s.serial
    h2 := Config.unspecified 16 0x14 s.serial
    h3 := Config.unspecified 16 0x15 s.serial
    hcnt := Config.unspecified 2 0x16 s.serial
    ch := Config.unspecified 1 0x17 s.serial
    idx := Config.unspecified 32 0x18 s.serial
    row := Config.unspecified 32 0x19 s.serial
    col := Config.unspecified 32 0x1A s.serial
    areg := Config.unspecified 8 0x1B s.serial
    creg := Config.unspecified 8 0x1C s.serial
    sinkCap := Config.unspecifiedCap s.serial
    inp := Config.unspecifiedSource s.serial
    rpos := Config.unspecifiedPos s.serial
    line := Memory.ofWrites s.lineDepth (Config.unspecifiedLine s.serial)
    serial := s.serial + 1 }

/-- TAKING A FAULT: `raise c` (60_exceptions.md R320). -/
def takeFault (c : Cause) (s : State) : State :=
  { unspecify s with
    out := flushed c s
    cause := some c
    mode := .closed
    phase := .idle
    resp := some (.fault c) }

/-- THE RETURN FROM A FAULT, and reset itself: every piece of the spec's state takes its reset value (10_state.md R50,
40_system.md R141, 70_reset_and_hazards.md R350). The instance's `LINE_DEPTH` and the model's own fields stay. -/
def resetState (s : State) : State :=
  { State.reset with
    lineDepth := s.lineDepth
    pending := s.pending
    env := s.env
    resp := s.resp
    serial := s.serial }

/-- The outcome of a command's pseudocode. -/
def finish (r : Res Response) : Out :=
  match r with
  | .ok r s => .next (respond r s)
  | .raise c s => .next (takeFault c s)
  | .stop f => .fault f

/-- The prologue of every command but RESET and RDREG STATUS (60_exceptions.md R318): step 1, the faulted state; step 3,
legality of the command in the present `MODE` and `PHASE` (and step 2 for a command whose immediate is out of range);
then the command's own pseudocode. -/
def execute (legal : Bool) (body : State → Res Response) (s : State) : Out :=
  match s.cause with
  | some c => .next (respond (.fault c) s)
  | none => if legal then finish (body s) else .next (takeFault .illegalCommand s)

/-- A command word that is no command (R318 steps 1 and 2, 30_encoding.md R105). -/
def execIllegal (s : State) : Out := execute false (fun s => answer 0 s) s

/-! ### The transaction port -/

/-- Take the transaction's environment inputs in; the host's later events wait. -/
def accept (t : Txn) (rest : List HostEvent) (s : State) : State := { s with pending := rest, env := t.env }

/-- The hardware reset input: the effect of RESET with no command and no response (70_reset_and_hazards.md R350;
notes/assumptions/6.md). -/
def hardReset (rest : List HostEvent) (s : State) : State :=
  { resetState s with pending := rest, resp := none }

/-! ### The numbered registers -/

/-- The value of a register as RDREG returns it: zero-extended, or sign-extended for `H1`, `H2`, `H3`
(10_state.md R27). -/
def readReg (r : Reg) (s : State) : Word :=
  match r with
  | .status => statusWord s
  | .m => s.m.setWidth 32
  | .b => s.b.setWidth 32
  | .cutoff => s.cutoff.setWidth 32
  | .acc => s.acc.setWidth 32
  | .nbits => s.nbits.setWidth 32
  | .srate => s.srate
  | .nch => s.nch.setWidth 32
  | .bps => s.bps.setWidth 32
  | .nsamp => s.nsamp
  | .flags => s.flags.setWidth 32
  | .rows => s.rows
  | .cols => s.cols
  | .pmode => s.pmode.setWidth 32
  | .sumlo => s.sum.extractLsb' 0 32
  | .sumhi => s.sum.extractLsb' 32 32
  | .cnt => s.cnt
  | .h1 => s.h1.signExtend 32
  | .h2 => s.h2.signExtend 32
  | .h3 => s.h3.signExtend 32
  | .hcnt => s.hcnt.setWidth 32
  | .ch => s.ch.setWidth 32
  | .idx => s.idx
  | .row => s.row
  | .col => s.col
  | .areg => s.areg.setWidth 32
  | .creg => s.creg.setWidth 32

/-- The width of a register (10_state.md R27). -/
def regWidth : Reg → Nat
  | .status | .srate | .nsamp | .rows | .cols | .sumlo | .sumhi | .cnt | .idx | .row | .col => 32
  | .m | .cutoff | .nch | .bps | .h1 | .h2 | .h3 => 16
  | .acc | .pmode | .areg | .creg => 8
  | .b => 5
  | .nbits => 4
  | .flags | .hcnt => 2
  | .ch => 1

/-- Write a register that WRREG can name (40_system.md R143); the read-only ones keep their value. -/
def writeReg (r : Reg) (v : Word) (s : State) : State :=
  match r with
  | .srate => { s with srate := v }
  | .nch => { s with nch := v.setWidth 16 }
  | .bps => { s with bps := v.setWidth 16 }
  | .nsamp => { s with nsamp := v }
  | .flags => { s with flags := v.setWidth 2 }
  | .rows => { s with rows := v }
  | .cols => { s with cols := v }
  | .pmode => { s with pmode := v.setWidth 8 }
  | .status | .m | .b | .cutoff | .acc | .nbits | .sumlo | .sumhi | .cnt | .h1 | .h2 | .h3 | .hcnt
  | .ch | .idx | .row | .col | .areg | .creg => s

/-- `M <- m ; B <- clog2(m) ; CUTOFF <- 2^B - m`: every rule that writes `M` (10_state.md R29). -/
def setParameter (m : Nat) (s : State) : State :=
  { s with
    m := BitVec.ofNat 16 m
    b := BitVec.ofNat 5 (clog2 m)
    cutoff := BitVec.ofNat 16 (2 ^ clog2 m - m) }

/-! ### Writing bits -/

/-- `ACC <- a ; NBITS <- n`. -/
def setAcc (a : Byte) (n : Nat) (s : State) : State := { s with acc := a, nbits := BitVec.ofNat 4 n }

/-- `SinkPush(y)` (20_memory.md R72). -/
def sinkPush (y : Byte) (s : State) : Res Unit :=
  if sinkRoom s then .ok () { s with out := s.out ++ [y] } else .raise .ioError s

/-- `putbit(x)` (41_bitchannel.md R150). -/
def putbit (x : Bool) (s : State) : Res Unit :=
  let s1 := setAcc (setBit s.acc (7 - s.nbits.toNat) x) (s.nbits.toNat + 1) s
  if s.nbits.toNat + 1 = 8 then (sinkPush s1.acc s1).bind fun _ s2 => .ok () (setAcc 0 0 s2) else .ok () s1

/-- `putbits(n, v)` (41_bitchannel.md R151): bit `n-1` of `v` first. -/
def putbits : (n v : Nat) → State → Res Unit
  | 0, _, s => .ok () s
  | n + 1, v, s => (putbit (v.testBit n) s).bind fun _ s1 => putbits n v s1

/-! ### Reading bits -/

/-- How many bits remain in a reader (10_state.md R35). -/
def bitsLeft (s : State) : Nat := 8 * (s.inp.length - s.rpos) + s.nbits.toNat

/-- The unread bit that comes next, taken from a loaded accumulator (41_bitchannel.md R152, its last two lines). -/
def nextBit (s : State) : Bool × State :=
  (s.acc.getLsbD (s.nbits.toNat - 1), { s with nbits := BitVec.ofNat 4 (s.nbits.toNat - 1) })

/-- `getbit()` (41_bitchannel.md R152); `none` is `EOD`, with no state change. `SrcPull()` is 20_memory.md R73. -/
def getbit (s : State) : Option (Bool × State) :=
  if s.nbits = 0 then
    match s.inp[s.rpos]? with
    | none => none
    | some y => some (nextBit { s with acc := y, rpos := s.rpos + 1, nbits := 8 })
  else some (nextBit s)

/-- The loop of `getbits`: `n` more bits after a prefix of value `v`. -/
def getbitsLoop : (n v : Nat) → State → Res Nat
  | 0, v, s => .ok v s
  | n + 1, v, s =>
    match getbit s with
    | none => .raise .unexpectedEof s
    | some (x, s1) => getbitsLoop n (2 * v + bitVal x) s1

/-- `getbits(n)` (41_bitchannel.md R153): the test is made before any bit is consumed. -/
def getbits (n : Nat) (s : State) : Res Nat :=
  if bitsLeft s < n then .raise .unexpectedEof s else getbitsLoop n 0 s

end Sys2Proof.Machine
end

