-- ==== Sys2Proof/Machine/Estimator.lean ====
section
/-! DEFINITION. The parameter estimator: `estacc`, the two formulas evaluated exactly on integers, and the meanings of
ESTCLR, ESTACC, EST1D, EST2D (43_estimator.md). -/

namespace Sys2Proof.Machine

/-- `estacc(e)` (43_estimator.md R203): `CNT` is guarded before anything changes. -/
def estacc (e : Int) (s : State) : Res Unit :=
  if s.cnt.toNat = Config.cntMax then .raise .rangeOverflow s
  else .ok () { s with sum := s.sum + BitVec.ofNat 64 e.natAbs, cnt := s.cnt + 1 }

/-- From a `k` that meets the condition of R206, go on to `k + 1` while it does, at most `fuel` times: the condition is
monotone, so the search stops at the first failure. -/
def est1dFrom (S N : Nat) : (fuel k : Nat) → Nat
  | 0, k => k
  | fuel + 1, k =>
    if (N + S) ^ (2 * (k + 1) - 1) ≤ 4 * N ^ (2 * (k + 1) - 1) then est1dFrom S N fuel (k + 1) else k

/-- `est1d(S, N)` (43_estimator.md R206, the integer definition): the largest such `k` in `1 .. 256`. -/
def est1d (S N : Nat) : Nat := if S = 0 then 1 else est1dFrom S N (Config.m1dMax - 1) 1

/-- `ceil(a / b)` for `b >= 1`. -/
def ceilDiv (a b : Nat) : Nat := (a + b - 1) / b

/-- The rational procedure of 43_estimator.md R210 for the `k` with `(k-1)*N < S * ln 2 < k*N`, from round `j` on, at most
`fuel` rounds: `p / q` is `L_j`, and `L_j < ln 2 < L_j + 1/(j * 2^j)` (notes/assumptions/8.md). -/
def ln2Ceil (S N : Nat) : (fuel j p q : Nat) → Nat
  | 0, _, p, q => S * p / (N * q) + 1
  | fuel + 1, j, p, q =>
    if S * p / (N * q) + 1 = ceilDiv (S * (p * (j * 2 ^ j) + q)) (N * (q * (j * 2 ^ j))) then S * p / (N * q) + 1
    else ln2Ceil S N fuel (j + 1) (p * ((j + 1) * 2 ^ (j + 1)) + q) (q * ((j + 1) * 2 ^ (j + 1)))

/-- `est2d(S, N)` (43_estimator.md R210), clamped to `1 .. 65535`. -/
def est2d (S N : Nat) : Nat := if S = 0 then 1 else min Config.mMax (max 1 (ln2Ceil S N 192 1 1 2))

/-- ESTCLR (R201). -/
def execEstclr (s : State) : Out := execute true (fun s => answer 0 { s with sum := 0, cnt := 0 }) s

/-- ESTACC (R202). -/
def execEstacc (opa : Word) (s : State) : Out :=
  execute true (fun s => (estacc (s32 opa) s).bind fun _ s1 => answer 0 s1) s

/-- EST1D (R207): no register changes. -/
def execEst1d (s : State) : Out :=
  execute true (fun s =>
    if s.cnt = 0 then .raise .invalidArgument s
    else answer (BitVec.ofNat 32 (est1d s.sum.toNat s.cnt.toNat)) s) s

/-- EST2D (R211): no register changes. -/
def execEst2d (s : State) : Out :=
  execute true (fun s =>
    if s.cnt = 0 then .raise .invalidArgument s
    else answer (BitVec.ofNat 32 (est2d s.sum.toNat s.cnt.toNat)) s) s

end Sys2Proof.Machine
end

