-- ==== Sys2Proof/WellFormed.lean ====
section
/-! DEFINITION. Which terms of `Instr` are commands of GRC: the legal ranges of `IMM8` (30_encoding.md R104). -/

namespace Sys2Proof

/-- The registers marked `RW` in 10_state.md R27: the ones WRREG can name. -/
def Reg.writable : Reg → Bool
  | .srate | .nch | .bps | .nsamp | .flags | .rows | .cols | .pmode => true
  | .status | .m | .b | .cutoff | .acc | .nbits | .sumlo | .sumhi | .cnt | .h1 | .h2 | .h3 | .hcnt
  | .ch | .idx | .row | .col | .areg | .creg => false

/-- `n` in PUTBITS and GETBITS is at most 32 (R104). -/
def bitCountOk (n : BitVec 8) : Bool := decide (n.toNat ≤ 32)

/-- `k` in P1PRED is one of `1 .. 4` (R104). -/
def predictorOk (k : BitVec 8) : Bool := decide (1 ≤ k.toNat ∧ k.toNat ≤ 4)

/-- An instruction whose immediate lies in its legal range (R104). -/
def Instr.wellFormed : Instr → Bool
  | .wrreg r _ => r.writable
  | .putbits n _ => bitCountOk n
  | .getbits n => bitCountOk n
  | .p1pred k _ => predictorOk k
  | .nop | .reset | .rdreg _ | .openw | .openr | .close | .putbit _ | .getbit
  | .setm _ | .encu _ | .decu | .encz _ | .decz | .encs _ | .decs
  | .estclr | .estacc _ | .est1d | .est2d | .p1rst | .p1push _ | .p2pred
  | .begin1a | .rsd1 _ _ | .wrhdr1 | .enc1 _ _ | .rdhdr1 | .dec1 _
  | .begin2a | .rsd2 _ | .wrhdr2 | .enc2 _ | .rdhdr2 | .dec2 => true

end Sys2Proof
end

