-- ==== Sys2Proof/Machine/BitChannel.lean ====
section
/-! DEFINITION. The meanings of the bit-channel commands (41_bitchannel.md). -/

namespace Sys2Proof.Machine

/-- The channel is open as a writer: the legality clause of the write commands. -/
def isWriter (s : State) : Bool := decide (s.mode = .write)

/-- The channel is open as a reader: the legality clause of the read commands. -/
def isReader (s : State) : Bool := decide (s.mode = .read)

/-- The channel becomes a writer on an empty sink (R155). -/
def openWriter (s : State) : State :=
  { setAcc 0 0 s with out := [], sinkCap := s.env.cap, mode := .write }

/-- The channel becomes a reader of the source's data (R156). -/
def openReader (s : State) : State :=
  { setAcc 0 0 s with inp := s.env.data, rpos := 0, mode := .read }

/-- The channel closes and the sequencer returns to `IDLE` (R157). -/
def closeChannel (s : State) : State :=
  { setAcc 0 0 s with mode := .closed, phase := .idle, ch := 0, idx := 0, row := 0, col := 0 }

/-- The last byte of a writer, zero-padded, if one is pending (R157, 20_memory.md R80). -/
def flushPartial (s : State) : Res Unit :=
  if s.mode = .write ∧ s.nbits ≠ 0 then sinkPush s.acc s else .ok () s

/-- OPENW (R155). -/
def execOpenw (s : State) : Out :=
  execute (decide (s.mode = .closed)) (fun s =>
    if s.env.openOk then answer 0 (openWriter s) else .raise .ioError s) s

/-- OPENR (R156). -/
def execOpenr (s : State) : Out :=
  execute (decide (s.mode = .closed)) (fun s =>
    if s.env.openOk then answer 0 (openReader s) else .raise .ioError s) s

/-- CLOSE (R157). -/
def execClose (s : State) : Out :=
  execute (isWriter s || isReader s) (fun s => (flushPartial s).bind fun _ s1 => answer 0 (closeChannel s1)) s

/-- PUTBIT (R160). -/
def execPutbit (opa : Word) (s : State) : Out :=
  execute (isWriter s) (fun s => (putbit (opa.getLsbD 0) s).bind fun _ s1 => answer 0 s1) s

/-- PUTBITS (R161). A count above 32 is an illegal encoding (60_exceptions.md R318 step 2). -/
def execPutbits (n : BitVec 8) (opa : Word) (s : State) : Out :=
  execute (bitCountOk n && isWriter s) (fun s => (putbits n.toNat opa.toNat s).bind fun _ s1 => answer 0 s1) s

/-- GETBIT (R162): end of data is a response, not a fault. -/
def execGetbit (s : State) : Out :=
  execute (isReader s) (fun s =>
    match getbit s with
    | none => .ok .eod s
    | some (x, s1) => answer (BitVec.ofNat 32 (bitVal x)) s1) s

/-- GETBITS (R163). A count above 32 is an illegal encoding (60_exceptions.md R318 step 2). -/
def execGetbits (n : BitVec 8) (s : State) : Out :=
  execute (bitCountOk n && isReader s) (fun s =>
    (getbits n.toNat s).bind fun v s1 => answer (BitVec.ofNat 32 v) s1) s

end Sys2Proof.Machine
end

