-- ==== Sys2Proof/Machine/Golomb.lean ====
section
/-! DEFINITION. The Golomb-Rice coder: the micro-operations `encu` and `decu` and the meanings of SETM, ENCU, DECU, ENCZ,
DECZ, ENCS, DECS (42_golomb.md). -/

namespace Sys2Proof.Machine

/-- `q` zero bits: the unary part of a codeword before its terminator. -/
def putZeros : Nat → State → Res Unit
  | 0, s => .ok () s
  | q + 1, s => (putbit false s).bind fun _ s1 => putZeros q s1

/-- The truncated-binary remainder (42_golomb.md R172, last two lines). -/
def putRemainder (r : Nat) (s : State) : Res Unit :=
  if r < s.cutoff.toNat then putbits (s.b.toNat - 1) r s else putbits s.b.toNat (r + s.cutoff.toNat) s

/-- `encu(v)` (42_golomb.md R172). -/
def encu (v : Nat) (s : State) : Res Unit :=
  (putZeros (v / s.m.toNat) s).bind fun _ s1 =>
  (putbit true s1).bind fun _ s2 =>
  putRemainder (v % s.m.toNat) s2

/-- The unary loop of `decu` (42_golomb.md R178), `q` zeros read so far. The source is finite: `fuel` is the number of
bits that remain, and with none left the data has ended before the terminator. -/
def countZeros : (fuel q : Nat) → State → Res Nat
  | 0, _, s => .raise .invalidEncoding s
  | fuel + 1, q, s =>
    match getbit s with
    | none => .raise .invalidEncoding s
    | some (true, s1) => .ok q s1
    | some (false, s1) => countZeros fuel (q + 1) s1

/-- The remainder of a codeword (42_golomb.md R178): no bit at all when `B = 0`; `B - 1` bits, and one more when they
spell `CUTOFF` or more. -/
def getRemainder (s : State) : Res Nat :=
  if s.b = 0 then .ok 0 s
  else
    (getbits (s.b.toNat - 1) s).bind fun r s1 =>
      if r < s1.cutoff.toNat then .ok r s1
      else
        match getbit s1 with
        | none => .raise .unexpectedEof s1
        | some (x, s2) => .ok (2 * r + bitVal x - s2.cutoff.toNat) s2

/-- `decu()` (42_golomb.md R178): the range is tested after the whole codeword has been consumed. -/
def decu (s : State) : Res Nat :=
  (countZeros (bitsLeft s) 0 s).bind fun q s1 =>
  (getRemainder s1).bind fun r s2 =>
    if Config.valueMax < q * s2.m.toNat + r then .raise .rangeOverflow s2 else .ok (q * s2.m.toNat + r) s2

/-- The sign bit of DECS, required (R186). -/
def getSign (s : State) : Res Bool :=
  match getbit s with
  | none => .raise .unexpectedEof s
  | some (x, s1) => .ok x s1

/-- SETM (R180). -/
def execSetm (opa : Word) (s : State) : Out :=
  execute true (fun s =>
    if s32 opa ≤ 0 then .raise .invalidArgument s
    else if (Config.mMax : Int) < s32 opa then .raise .invalidArgument s
    else answer 0 (setParameter (s32 opa).toNat s)) s

/-- ENCU (R181). -/
def execEncu (opa : Word) (s : State) : Out :=
  execute (isWriter s) (fun s =>
    if s32 opa < 0 then .raise .invalidArgument s
    else (encu (s32 opa).toNat s).bind fun _ s1 => answer 0 s1) s

/-- DECU (R182). -/
def execDecu (s : State) : Out :=
  execute (isReader s) (fun s => (decu s).bind fun v s1 => answer (BitVec.ofNat 32 v) s1) s

/-- ENCZ (R183). -/
def execEncz (opa : Word) (s : State) : Out :=
  execute (isWriter s) (fun s => (encu (zz (s32 opa)) s).bind fun _ s1 => answer 0 s1) s

/-- DECZ (R184). -/
def execDecz (s : State) : Out :=
  execute (isReader s) (fun s => (decu s).bind fun v s1 => answer (u32 (unzz v)) s1) s

/-- ENCS (R185): the sign bit is 1 for a negative value. -/
def execEncs (opa : Word) (s : State) : Out :=
  execute (isWriter s) (fun s =>
    (putbit (decide (s32 opa < 0)) s).bind fun _ s1 =>
    (encu (s32 opa).natAbs s1).bind fun _ s2 => answer 0 s2) s

/-- DECS (R186): a negative zero is 0, and the signed result must fit 32 bits. -/
def execDecs (s : State) : Out :=
  execute (isReader s) (fun s =>
    (getSign s).bind fun neg s1 =>
    (decu s1).bind fun v s2 =>
      if (if neg then 2147483648 else 2147483647) < v then .raise .rangeOverflow s2
      else answer (u32 (if neg then -(v : Int) else v)) s2) s

end Sys2Proof.Machine
end

