-- ==== Sys2Proof/Machine/Predictors.lean ====
section
/-! DEFINITION. The causal predictors: the 1-D history and its predictions, the 2-D neighbours and the spatial
prediction, and the meanings of P1RST, P1PUSH, P1PRED, P2PRED (44_predictors.md). -/

namespace Sys2Proof.Machine

/-- `hreset()` (44_predictors.md R220). -/
def hreset (s : State) : State := { s with h1 := 0, h2 := 0, h3 := 0, hcnt := 0 }

/-- `hpush(x)` (R221). -/
def hpush (x : Int) (s : State) : State :=
  { s with
    h3 := s.h2
    h2 := s.h1
    h1 := BitVec.ofInt 16 x
    hcnt := BitVec.ofNat 2 (min 3 (s.hcnt.toNat + 1)) }

/-- `pt(k)`, the temporal prediction of order `k` (R222): 0 with no history, order 1 where the order's history is not
there. -/
def pt (k : Nat) (s : State) : Int :=
  if s.hcnt.toNat = 0 then 0
  else if k = 2 ∧ 2 ≤ s.hcnt.toNat then 2 * s.h1.toInt - s.h2.toInt
  else if k = 3 ∧ 3 ≤ s.hcnt.toNat then 3 * s.h1.toInt - 3 * s.h2.toInt + s.h3.toInt
  else s.h1.toInt

/-- `pic(ref)`, the inter-channel combined prediction (R224). -/
def pic (ref : Int) (s : State) : Int := tdiv2 (pt 1 s + ref)

/-- The median edge detector (R227, mode 4), its tests in the order written. -/
def med (a b c : Int) : Int :=
  if max a b ≤ c then min a b else if c ≤ min a b then max a b else a + b - c

/-- The prediction in the interior, by `PMODE` (R226, R227). -/
def interior (pmode : Nat) (a b c : Int) : Int :=
  match pmode with
  | 0 => a
  | 1 => b
  | 2 => (a + b) / 2
  | 3 => a + b - c
  | _ => med a b c

/-- The spatial prediction at row `r` and column `c` from the neighbours left, top and top-left (R227). -/
def spatial (pmode r c : Nat) (left top topLeft : Int) : Int :=
  if r = 0 ∧ c = 0 then Config.mid
  else if r = 0 then left
  else if c = 0 then top
  else interior pmode left top topLeft

/-- `ps()` (R227): the spatial prediction at the current position. -/
def ps (s : State) : Res Int :=
  match lineRead s s.col.toNat with
  | none => .stop (.lineIndex s.col.toNat)
  | some top => .ok (spatial s.pmode.toNat s.row.toNat s.col.toNat s.areg.toNat top.toNat s.creg.toNat) s

/-- `p2reset()` (R230). -/
def p2reset (s : State) : State := { s with row := 0, col := 0, areg := 0, creg := 0, line := [] }

/-- The move to the next position in raster order after a pixel is recorded (R231, from `COL <- COL + 1`). -/
def nextPosition (s : State) : State :=
  if s.col + 1 = s.cols then { s with col := 0, row := s.row + 1, areg := 0, creg := 0 }
  else { s with col := s.col + 1 }

/-- `p2push(x)` (R231): record the pixel and move on; the value is whether the plane is complete. -/
def p2push (x : Byte) (s : State) : Res Bool :=
  match lineRead s s.col.toNat with
  | none => .stop (.lineIndex s.col.toNat)
  | some top =>
    let s1 := nextPosition { lineWrite s.col.toNat x s with creg := top, areg := x }
    .ok (decide (s1.row = s1.rows)) s1

/-- P1RST (R234). -/
def execP1rst (s : State) : Out := execute (decide (s.phase = .idle)) (fun s => answer 0 (hreset s)) s

/-- P1PUSH (R235). -/
def execP1push (opa : Word) (s : State) : Out :=
  execute (decide (s.phase = .idle)) (fun s =>
    if isSample (s32 opa) then answer 0 (hpush (s32 opa) s) else .raise .invalidArgument s) s

/-- P1PRED (R236). A `k` outside `1 .. 4` is an illegal encoding (60_exceptions.md R318 step 2). -/
def execP1pred (k : BitVec 8) (opa : Word) (s : State) : Out :=
  execute (predictorOk k) (fun s =>
    if k.toNat ≤ 3 then answer (u32 (pt k.toNat s)) s
    else if isSample (s32 opa) then answer (u32 (pic (s32 opa) s)) s
    else .raise .invalidArgument s) s

/-- P2PRED (R237): only in a 2-D phase is there a current position. -/
def execP2pred (s : State) : Out :=
  execute (decide (s.phase = .s2anl ∨ s.phase = .s2enc ∨ s.phase = .s2dec)) (fun s =>
    (ps s).bind fun p s1 => answer (u32 p) s1) s

end Sys2Proof.Machine
end

