-- ==== Sys2Proof/Machine/Codec1d.lean ====
section
/-! DEFINITION. The 1-D residual-stream codec: its sequencer and the meanings of BEGIN1A, RSD1, WRHDR1, ENC1, RDHDR1, DEC1
(45_codec1d.md). -/

namespace Sys2Proof.Machine

/-- `s1init()` (45_codec1d.md R250). -/
def s1init (s : State) : State := hreset { s with ch := 0, idx := 0 }

/-- Enter a 1-D phase, or stay `IDLE` for a stream with no samples (R251, R258, R260). -/
def startPhase1 (p : Phase) (s : State) : State :=
  { s1init s with phase := if s.nsamp = 0 then .idle else p }

/-- `needref`: the next sample's prediction needs a reference sample (R253). -/
def needref (s : State) : Bool := decide (s.ch = 1) && s.flags.getLsbD 1

/-- `p1sel(ref)`: the prediction of the next sample (R253). -/
def p1sel (ref : Int) (s : State) : Int := if needref s then pic ref s else pt 2 s

/-- `s1advance(x)` (R256). -/
def s1advance (x : Int) (s : State) : State :=
  let s1 := { hpush x s with idx := s.idx + 1 }
  if s1.idx = s1.nsamp then
    if s1.ch = 0 ∧ s1.nch = 2 then hreset { s1 with ch := 1, idx := 0 }
    else { s1 with phase := .idle, ch := 0, idx := 0 }
  else s1

/-- `NCH` is 1 or 2 (R252). -/
def channelsOk (nch : Nat) : Bool := decide (nch = 1 ∨ nch = 2)

/-- The operand checks of RSD1 and ENC1 and the residual `e = s - p` (R257, R259, 44_predictors.md R232). -/
def residual1 (opa opb : Word) (s : State) : Res Int :=
  if ¬ isSample (s32 opa) then .raise .invalidArgument s
  else if needref s ∧ ¬ isSample (s32 opb) then .raise .invalidArgument s
  else .ok (s32 opa - p1sel (s32 opb) s) s

/-- The fields of the 1-D header in stream order (R258, 30_encoding.md R116). -/
def putHeader1 (s : State) : Res Unit :=
  (putbits 32 s.srate.toNat s).bind fun _ s1 =>
  (putbits 16 s.nch.toNat s1).bind fun _ s2 =>
  (putbits 16 s.bps.toNat s2).bind fun _ s3 =>
  (putbits 32 s.nsamp.toNat s3).bind fun _ s4 =>
  (putbits 16 s.m.toNat s4).bind fun _ s5 =>
  (putbits 1 (bitVal (s.flags.getLsbD 0)) s5).bind fun _ s6 =>
  if s.nch = 2 then putbits 1 (bitVal (s.flags.getLsbD 1)) s6 else .ok () s6

/-- What a 1-D header holds. -/
structure Header1 where
  srate : Nat
  nch : Nat
  bps : Nat
  nsamp : Nat
  m : Nat
  adapt : Nat
  icp : Nat
  deriving DecidableEq, Repr

/-- The inter-channel flag, present only in a stereo header (R255, R260). -/
def getIcp (nch : Nat) (s : State) : Res Nat := if nch = 2 then getbits 1 s else .ok 0 s

/-- Read a 1-D header, each check where RDHDR1 makes it (R260). -/
def getHeader1 (s : State) : Res Header1 :=
  (getbits 32 s).bind fun sr s1 =>
  (getbits 16 s1).bind fun nc s2 =>
  (getbits 16 s2).bind fun bp s3 =>
  (getbits 32 s3).bind fun ns s4 =>
  (getbits 16 s4).bind fun m s5 =>
  (getbits 1 s5).bind fun ad s6 =>
  if channelsOk nc then
    (getIcp nc s6).bind fun ic s7 =>
      if m = 0 then .raise .invalidArgument s7 else .ok ⟨sr, nc, bp, ns, m, ad, ic⟩ s7
  else .raise .invalidArgument s6

/-- Load the configuration registers from a header (R260). -/
def loadHeader1 (h : Header1) (s : State) : State :=
  setParameter h.m
    { s with
      srate := BitVec.ofNat 32 h.srate
      nch := BitVec.ofNat 16 h.nch
      bps := BitVec.ofNat 16 h.bps
      nsamp := BitVec.ofNat 32 h.nsamp
      flags := BitVec.ofNat 2 (h.adapt + 2 * h.icp) }

/-- BEGIN1A (R251). -/
def execBegin1a (s : State) : Out :=
  execute (decide (s.phase = .idle)) (fun s =>
    if channelsOk s.nch.toNat then answer 0 (startPhase1 .s1anl s) else .raise .invalidArgument s) s

/-- RSD1 (R257). -/
def execRsd1 (opa opb : Word) (s : State) : Out :=
  execute (decide (s.phase = .s1anl)) (fun s =>
    (residual1 opa opb s).bind fun e s1 =>
    (estacc e s1).bind fun _ s2 => answer (u32 e) (s1advance (s32 opa) s2)) s

/-- WRHDR1 (R258). -/
def execWrhdr1 (s : State) : Out :=
  execute (isWriter s && decide (s.phase = .idle)) (fun s =>
    if channelsOk s.nch.toNat then (putHeader1 s).bind fun _ s1 => answer 0 (startPhase1 .s1enc s1)
    else .raise .invalidArgument s) s

/-- ENC1 (R259). -/
def execEnc1 (opa opb : Word) (s : State) : Out :=
  execute (isWriter s && decide (s.phase = .s1enc)) (fun s =>
    (residual1 opa opb s).bind fun e s1 =>
    (encu (zz e) s1).bind fun _ s2 => answer (u32 e) (s1advance (s32 opa) s2)) s

/-- RDHDR1 (R260). -/
def execRdhdr1 (s : State) : Out :=
  execute (isReader s && decide (s.phase = .idle)) (fun s =>
    (getHeader1 s).bind fun h s1 => answer 0 (startPhase1 .s1dec (loadHeader1 h s1))) s

/-- DEC1 (R261): a reconstructed sample outside 16 bits is `RangeOverflow`. -/
def execDec1 (opa : Word) (s : State) : Out :=
  execute (isReader s && decide (s.phase = .s1dec)) (fun s =>
    if needref s ∧ ¬ isSample (s32 opa) then .raise .invalidArgument s
    else
      (decu s).bind fun v s1 =>
        if isSample (p1sel (s32 opa) s + unzz v) then
          answer (u32 (p1sel (s32 opa) s + unzz v)) (s1advance (p1sel (s32 opa) s + unzz v) s1)
        else .raise .rangeOverflow s1) s

end Sys2Proof.Machine
end

