-- ==== Sys2Proof/Machine/Codec2d.lean ====
section
/-! DEFINITION. The 2-D residual-stream codec: its sequencer and the meanings of BEGIN2A, RSD2, WRHDR2, ENC2, RDHDR2, DEC2
(46_codec2d.md). -/

namespace Sys2Proof.Machine

/-- `geom(rows, cols, pm)` raises nothing (46_codec2d.md R280). -/
def geomOk (rows cols pm lineDepth : Nat) : Bool :=
  decide (rows ≠ 0 ∧ cols ≠ 0 ∧ cols ≤ lineDepth ∧ pm ≤ 4)

/-- `p2reset()` and entry of a 2-D phase (R281, R288, R290). -/
def startPhase2 (p : Phase) (s : State) : State := { p2reset s with phase := p }

/-- `s2advance(x)` (R283). -/
def s2advance (x : Byte) (s : State) : Res Unit :=
  (p2push x s).bind fun last s1 =>
    .ok () (if last then { s1 with phase := .idle, row := 0, col := 0 } else s1)

/-- The pixel check of RSD2 and ENC2 and the residual `e = x - ps()` (R287, R289). -/
def residual2 (opa : Word) (s : State) : Res Int :=
  if isPixel opa then (ps s).bind fun p s1 => .ok (opa.toNat - p) s1 else .raise .invalidArgument s

/-- The fields of the 2-D header in stream order (R288, 30_encoding.md R117). -/
def putHeader2 (s : State) : Res Unit :=
  (putbits 32 s.rows.toNat s).bind fun _ s1 =>
  (putbits 32 s.cols.toNat s1).bind fun _ s2 =>
  (putbits 16 s.m.toNat s2).bind fun _ s3 =>
  putbits 8 s.pmode.toNat s3

/-- What a 2-D header holds. -/
structure Header2 where
  rows : Nat
  cols : Nat
  m : Nat
  pmode : Nat
  deriving DecidableEq, Repr

/-- Read a 2-D header; all checks come after the whole header has been read (R290). -/
def getHeader2 (s : State) : Res Header2 :=
  (getbits 32 s).bind fun rw s1 =>
  (getbits 32 s1).bind fun cl s2 =>
  (getbits 16 s2).bind fun m s3 =>
  (getbits 8 s3).bind fun pm s4 =>
    if m ≠ 0 ∧ geomOk rw cl pm s4.lineDepth then .ok ⟨rw, cl, m, pm⟩ s4 else .raise .invalidArgument s4

/-- Load the configuration registers from a header (R290). -/
def loadHeader2 (h : Header2) (s : State) : State :=
  setParameter h.m
    { s with
      rows := BitVec.ofNat 32 h.rows
      cols := BitVec.ofNat 32 h.cols
      pmode := BitVec.ofNat 8 h.pmode }

/-- The geometry in the configuration registers is legal (R280). -/
def geometryOk (s : State) : Bool := geomOk s.rows.toNat s.cols.toNat s.pmode.toNat s.lineDepth

/-- BEGIN2A (R281). -/
def execBegin2a (s : State) : Out :=
  execute (decide (s.phase = .idle)) (fun s =>
    if geometryOk s then answer 0 (startPhase2 .s2anl s) else .raise .invalidArgument s) s

/-- RSD2 (R287). -/
def execRsd2 (opa : Word) (s : State) : Out :=
  execute (decide (s.phase = .s2anl)) (fun s =>
    (residual2 opa s).bind fun e s1 =>
    (estacc e s1).bind fun _ s2 =>
    (s2advance (opa.setWidth 8) s2).bind fun _ s3 => answer (u32 e) s3) s

/-- WRHDR2 (R288). -/
def execWrhdr2 (s : State) : Out :=
  execute (isWriter s && decide (s.phase = .idle)) (fun s =>
    if geometryOk s then (putHeader2 s).bind fun _ s1 => answer 0 (startPhase2 .s2enc s1)
    else .raise .invalidArgument s) s

/-- ENC2 (R289). -/
def execEnc2 (opa : Word) (s : State) : Out :=
  execute (isWriter s && decide (s.phase = .s2enc)) (fun s =>
    (residual2 opa s).bind fun e s1 =>
    (encu (zz e) s1).bind fun _ s2 =>
    (s2advance (opa.setWidth 8) s2).bind fun _ s3 => answer (u32 e) s3) s

/-- RDHDR2 (R290). -/
def execRdhdr2 (s : State) : Out :=
  execute (isReader s && decide (s.phase = .idle)) (fun s =>
    (getHeader2 s).bind fun h s1 => answer 0 (startPhase2 .s2dec (loadHeader2 h s1))) s

/-- DEC2 (R291): the clamped pixel is answered and enters the line buffer. -/
def execDec2 (s : State) : Out :=
  execute (isReader s && decide (s.phase = .s2dec)) (fun s =>
    (ps s).bind fun p s1 =>
    (decu s1).bind fun v s2 =>
    (s2advance (BitVec.ofInt 8 (clamp (p + unzz v) 0 255)) s2).bind fun _ s3 =>
      answer (u32 (clamp (p + unzz v) 0 255)) s3) s

end Sys2Proof.Machine
end

