-- ==== Sys2Proof/Machine/System.lean ====
section
/-! DEFINITION. The meanings of the system commands NOP, RESET, RDREG, WRREG (40_system.md). -/

namespace Sys2Proof.Machine

/-- NOP (R140). -/
def execNop (s : State) : Out := execute true (answer 0) s

/-- RESET (R141): legal in every state, the faulted one included. -/
def execReset (s : State) : Out := .next (respond (.ok 0) (resetState s))

/-- RDREG (R142): in the faulted state only `STATUS` can be read. -/
def execRdreg (r : Reg) (s : State) : Out :=
  if r = .status then .next (respond (.ok (statusWord s)) s)
  else execute true (fun s => answer (readReg r s) s) s

/-- WRREG (R143). A register that is not one of the eight is an illegal encoding (R318 step 2). -/
def execWrreg (r : Reg) (opa : Word) (s : State) : Out :=
  execute (r.writable && decide (s.phase = .idle)) (fun s =>
    if 2 ^ regWidth r ≤ opa.toNat then .raise .invalidArgument s else answer 0 (writeReg r opa s)) s

end Sys2Proof.Machine
end

