-- ==== Sys2Proof/Machine/Dispatch.lean ====
section
/-! DEFINITION. One arm per constructor of Instr: each a direct call of its meaning. -/

namespace Sys2Proof.Machine

def exec (i : Instr) (s : State) : Host.Outcome State Fault Refusal :=
  match i with
  | .nop => Sys2Proof.Machine.execNop s
  | .reset => Sys2Proof.Machine.execReset s
  | .rdreg r => Sys2Proof.Machine.execRdreg r s
  | .wrreg r opa => Sys2Proof.Machine.execWrreg r opa s
  | .openw => Sys2Proof.Machine.execOpenw s
  | .openr => Sys2Proof.Machine.execOpenr s
  | .close => Sys2Proof.Machine.execClose s
  | .putbit opa => Sys2Proof.Machine.execPutbit opa s
  | .putbits n opa => Sys2Proof.Machine.execPutbits n opa s
  | .getbit => Sys2Proof.Machine.execGetbit s
  | .getbits n => Sys2Proof.Machine.execGetbits n s
  | .setm opa => Sys2Proof.Machine.execSetm opa s
  | .encu opa => Sys2Proof.Machine.execEncu opa s
  | .decu => Sys2Proof.Machine.execDecu s
  | .encz opa => Sys2Proof.Machine.execEncz opa s
  | .decz => Sys2Proof.Machine.execDecz s
  | .encs opa => Sys2Proof.Machine.execEncs opa s
  | .decs => Sys2Proof.Machine.execDecs s
  | .estclr => Sys2Proof.Machine.execEstclr s
  | .estacc opa => Sys2Proof.Machine.execEstacc opa s
  | .est1d => Sys2Proof.Machine.execEst1d s
  | .est2d => Sys2Proof.Machine.execEst2d s
  | .p1rst => Sys2Proof.Machine.execP1rst s
  | .p1push opa => Sys2Proof.Machine.execP1push opa s
  | .p1pred k opa => Sys2Proof.Machine.execP1pred k opa s
  | .p2pred => Sys2Proof.Machine.execP2pred s
  | .begin1a => Sys2Proof.Machine.execBegin1a s
  | .rsd1 opa opb => Sys2Proof.Machine.execRsd1 opa opb s
  | .wrhdr1 => Sys2Proof.Machine.execWrhdr1 s
  | .enc1 opa opb => Sys2Proof.Machine.execEnc1 opa opb s
  | .rdhdr1 => Sys2Proof.Machine.execRdhdr1 s
  | .dec1 opa => Sys2Proof.Machine.execDec1 opa s
  | .begin2a => Sys2Proof.Machine.execBegin2a s
  | .rsd2 opa => Sys2Proof.Machine.execRsd2 opa s
  | .wrhdr2 => Sys2Proof.Machine.execWrhdr2 s
  | .enc2 opa => Sys2Proof.Machine.execEnc2 opa s
  | .rdhdr2 => Sys2Proof.Machine.execRdhdr2 s
  | .dec2 => Sys2Proof.Machine.execDec2 s

end Sys2Proof.Machine
end

