-- ==== Sys2Proof/Decode.lean ====
section
/-! DEFINITION. The decoder of command words and, after it, the encoder: both written from 30_encoding.md R100 to R105
and spec/opcode_table.json. The decoder is total on every triple of words and names the reason of a rejection. -/

namespace Sys2Proof

/-- The number of a register (10_state.md R27). -/
def Reg.code : Reg → BitVec 8
  | .status => 0x00
  | .m => 0x01
  | .b => 0x02
  | .cutoff => 0x03
  | .acc => 0x04
  | .nbits => 0x05
  | .srate => 0x08
  | .nch => 0x09
  | .bps => 0x0A
  | .nsamp => 0x0B
  | .flags => 0x0C
  | .rows => 0x0D
  | .cols => 0x0E
  | .pmode => 0x0F
  | .sumlo => 0x10
  | .sumhi => 0x11
  | .cnt => 0x12
  | .h1 => 0x13
  | .h2 => 0x14
  | .h3 => 0x15
  | .hcnt => 0x16
  | .ch => 0x17
  | .idx => 0x18
  | .row => 0x19
  | .col => 0x1A
  | .areg => 0x1B
  | .creg => 0x1C

/-- The register with a given number; the numbers 0x06, 0x07 and 0x1D to 0xFF are reserved (R27). -/
def Reg.ofCode (c : BitVec 8) : Option Reg :=
  match c.toNat with
  | 0x00 => some .status
  | 0x01 => some .m
  | 0x02 => some .b
  | 0x03 => some .cutoff
  | 0x04 => some .acc
  | 0x05 => some .nbits
  | 0x08 => some .srate
  | 0x09 => some .nch
  | 0x0A => some .bps
  | 0x0B => some .nsamp
  | 0x0C => some .flags
  | 0x0D => some .rows
  | 0x0E => some .cols
  | 0x0F => some .pmode
  | 0x10 => some .sumlo
  | 0x11 => some .sumhi
  | 0x12 => some .cnt
  | 0x13 => some .h1
  | 0x14 => some .h2
  | 0x15 => some .h3
  | 0x16 => some .hcnt
  | 0x17 => some .ch
  | 0x18 => some .idx
  | 0x19 => some .row
  | 0x1A => some .col
  | 0x1B => some .areg
  | 0x1C => some .creg
  | _ => none

/-- Why a command word is illegal (R105). -/
inductive Reject where
  /-- `OPC` is not in the table of R103. -/
  | unassignedOpcode
  /-- `CMD[23:8]` is not zero. -/
  | reservedBits
  /-- A command of format F0 with `CMD[7:0]` not zero. -/
  | immNotZero
  /-- A command of format FI whose `IMM8` is outside the range of R104. -/
  | immOutOfRange
  deriving DecidableEq, Repr

/-- `CMD[31:24]` (R100). -/
def opcOf (cmd : Word) : BitVec 8 := cmd.extractLsb' 24 8

/-- `CMD[23:8]`, which must be zero (R100). -/
def rsvdOf (cmd : Word) : BitVec 16 := cmd.extractLsb' 8 16

/-- `CMD[7:0]` (R100). -/
def immOf (cmd : Word) : BitVec 8 := cmd.extractLsb' 0 8

/-- A command of format F0 has a zero immediate (R102). -/
def formatF0 (imm : BitVec 8) (i : Instr) : Except Reject Instr :=
  if imm = 0 then .ok i else .error .immNotZero

/-- A command of format FI has an immediate in its legal range (R102, R104). -/
def formatFI (legal : Bool) (i : Instr) : Except Reject Instr :=
  if legal then .ok i else .error .immOutOfRange

/-- A command of format FI whose immediate is the number of a register (R104). -/
def formatReg (imm : BitVec 8) (i : Reg → Instr) : Except Reject Instr :=
  match Reg.ofCode imm with
  | some r => formatFI (i r).wellFormed (i r)
  | none => .error .immOutOfRange

/-- The opcode map of R103. -/
def decodeOpcode (opc imm : BitVec 8) (opa opb : Word) : Except Reject Instr :=
  match opc.toNat with
  | 0x00 => formatF0 imm .nop
  | 0x01 => formatF0 imm .reset
  | 0x02 => formatReg imm .rdreg
  | 0x03 => formatReg imm (fun r => .wrreg r opa)
  | 0x10 => formatF0 imm .openw
  | 0x11 => formatF0 imm .openr
  | 0x12 => formatF0 imm .close
  | 0x13 => formatF0 imm (.putbit opa)
  | 0x14 => formatFI (bitCountOk imm) (.putbits imm opa)
  | 0x15 => formatF0 imm .getbit
  | 0x16 => formatFI (bitCountOk imm) (.getbits imm)
  | 0x20 => formatF0 imm (.setm opa)
  | 0x21 => formatF0 imm (.encu opa)
  | 0x22 => formatF0 imm .decu
  | 0x23 => formatF0 imm (.encz opa)
  | 0x24 => formatF0 imm .decz
  | 0x25 => formatF0 imm (.encs opa)
  | 0x26 => formatF0 imm .decs
  | 0x30 => formatF0 imm .estclr
  | 0x31 => formatF0 imm (.estacc opa)
  | 0x32 => formatF0 imm .est1d
  | 0x33 => formatF0 imm .est2d
  | 0x40 => formatF0 imm .p1rst
  | 0x41 => formatF0 imm (.p1push opa)
  | 0x42 => formatFI (predictorOk imm) (.p1pred imm opa)
  | 0x43 => formatF0 imm .p2pred
  | 0x50 => formatF0 imm .begin1a
  | 0x51 => formatF0 imm (.rsd1 opa opb)
  | 0x52 => formatF0 imm .wrhdr1
  | 0x53 => formatF0 imm (.enc1 opa opb)
  | 0x54 => formatF0 imm .rdhdr1
  | 0x55 => formatF0 imm (.dec1 opa)
  | 0x60 => formatF0 imm .begin2a
  | 0x61 => formatF0 imm (.rsd2 opa)
  | 0x62 => formatF0 imm .wrhdr2
  | 0x63 => formatF0 imm (.enc2 opa)
  | 0x64 => formatF0 imm .rdhdr2
  | 0x65 => formatF0 imm .dec2
  | _ => .error .unassignedOpcode

/-- The instruction a command line stands for, or the reason why its command word is illegal (R105). The operands take
no part in the decision (60_exceptions.md R318, step 2). -/
def decode (w : Words) : Except Reject Instr :=
  if rsvdOf w.cmd = 0 then decodeOpcode (opcOf w.cmd) (immOf w.cmd) w.opa w.opb else .error .reservedBits

/-- `OPC` of a command (R103). -/
def opcode : Instr → BitVec 8
  | .nop => 0x00
  | .reset => 0x01
  | .rdreg _ => 0x02
  | .wrreg _ _ => 0x03
  | .openw => 0x10
  | .openr => 0x11
  | .close => 0x12
  | .putbit _ => 0x13
  | .putbits _ _ => 0x14
  | .getbit => 0x15
  | .getbits _ => 0x16
  | .setm _ => 0x20
  | .encu _ => 0x21
  | .decu => 0x22
  | .encz _ => 0x23
  | .decz => 0x24
  | .encs _ => 0x25
  | .decs => 0x26
  | .estclr => 0x30
  | .estacc _ => 0x31
  | .est1d => 0x32
  | .est2d => 0x33
  | .p1rst => 0x40
  | .p1push _ => 0x41
  | .p1pred _ _ => 0x42
  | .p2pred => 0x43
  | .begin1a => 0x50
  | .rsd1 _ _ => 0x51
  | .wrhdr1 => 0x52
  | .enc1 _ _ => 0x53
  | .rdhdr1 => 0x54
  | .dec1 _ => 0x55
  | .begin2a => 0x60
  | .rsd2 _ => 0x61
  | .wrhdr2 => 0x62
  | .enc2 _ => 0x63
  | .rdhdr2 => 0x64
  | .dec2 => 0x65

/-- `IMM8` of a command: zero for format F0 (R102). -/
def imm8 : Instr → BitVec 8
  | .rdreg r => r.code
  | .wrreg r _ => r.code
  | .putbits n _ => n
  | .getbits n => n
  | .p1pred k _ => k
  | .nop | .reset | .openw | .openr | .close | .putbit _ | .getbit | .setm _ | .encu _ | .decu
  | .encz _ | .decz | .encs _ | .decs | .estclr | .estacc _ | .est1d | .est2d | .p1rst | .p1push _
  | .p2pred | .begin1a | .rsd1 _ _ | .wrhdr1 | .enc1 _ _ | .rdhdr1 | .dec1 _ | .begin2a | .rsd2 _
  | .wrhdr2 | .enc2 _ | .rdhdr2 | .dec2 => 0

/-- `OPA` of a command line; zero where the command ignores it (R101, R106). -/
def operandA : Instr → Word
  | .wrreg _ opa => opa
  | .putbit opa => opa
  | .putbits _ opa => opa
  | .setm opa => opa
  | .encu opa => opa
  | .encz opa => opa
  | .encs opa => opa
  | .estacc opa => opa
  | .p1push opa => opa
  | .p1pred _ opa => opa
  | .rsd1 opa _ => opa
  | .enc1 opa _ => opa
  | .dec1 opa => opa
  | .rsd2 opa => opa
  | .enc2 opa => opa
  | .nop | .reset | .rdreg _ | .openw | .openr | .close | .getbit | .getbits _ | .decu | .decz
  | .decs | .estclr | .est1d | .est2d | .p1rst | .p2pred | .begin1a | .wrhdr1 | .rdhdr1 | .begin2a
  | .wrhdr2 | .rdhdr2 | .dec2 => 0

/-- `OPB` of a command line; zero where the command ignores it (R101, R106). -/
def operandB : Instr → Word
  | .rsd1 _ opb => opb
  | .enc1 _ opb => opb
  | .nop | .reset | .rdreg _ | .wrreg _ _ | .openw | .openr | .close | .putbit _ | .putbits _ _
  | .getbit | .getbits _ | .setm _ | .encu _ | .decu | .encz _ | .decz | .encs _ | .decs | .estclr
  | .estacc _ | .est1d | .est2d | .p1rst | .p1push _ | .p1pred _ _ | .p2pred | .begin1a | .wrhdr1
  | .rdhdr1 | .dec1 _ | .begin2a | .rsd2 _ | .wrhdr2 | .enc2 _ | .rdhdr2 | .dec2 => 0

/-- The triple `(CMD, OPA, OPB)` of a command line (R100, R106). -/
def encode (i : Instr) : Words where
  cmd := opcode i ++ ((0 : BitVec 16) ++ imm8 i)
  opa := operandA i
  opb := operandB i

/-- The triple whose 96 bits are the number `n`: `CMD` bits 31 to 0, `OPA` bits 63 to 32, `OPB` bits 95 to 64
(notes/assumptions/10.md). -/
def Words.ofBits (n : Nat) : Words where
  cmd := BitVec.ofNat 32 n
  opa := BitVec.ofNat 32 (n / 2 ^ 32)
  opb := BitVec.ofNat 32 (n / 2 ^ 64)

/-- The instruction the decoder reads from the low `nbits` bits of `w`, every bit above them 0. -/
def decodeTableWord (nbits w : Nat) : Option Instr :=
  match decode (Words.ofBits (w % 2 ^ nbits)) with
  | .ok i => some i
  | .error _ => none

end Sys2Proof
end

