-- ==== Sys2Proof/Machine/Fetch.lean ====
section
/-! DEFINITION. How the next transaction reaches the core: GRC fetches nothing, the host issues (10_state.md R24,
notes/assumptions/2.md). -/

namespace Sys2Proof.Machine

/-- What the host does to the core next. -/
inductive Fetched where
  /-- Nothing is pending: the core is idle and keeps its state (60_exceptions.md R334, 70_reset_and_hazards.md R351). -/
  | idle
  /-- The hardware reset input, with the state it leaves. -/
  | hardwareReset (s : State)
  /-- A command line, with the state in which it is executed. -/
  | command (w : Words) (s : State)

/-- The host's next event. -/
def fetch (s : State) : Fetched :=
  match s.pending with
  | [] => .idle
  | .hardwareReset :: rest => .hardwareReset (hardReset rest s)
  | .transact t :: rest => .command t.words (accept t rest s)

/-- `s` with a command line as the next event, its environment inputs the standard ones (notes/assumptions/4.md). -/
def issueNext (w : Words) (s : State) : State :=
  { s with pending := .transact { words := w, env := Env.standard } :: s.pending }

end Sys2Proof.Machine
end

