-- ==== Sys2Proof/Machine/Step.lean ====
section
/-! DEFINITION. One step: the host's next event. A command word that is no command is handled by the prologue
(60_exceptions.md R318). -/

namespace Sys2Proof.Machine

/-- One step of the machine. -/
def step (s : State) : Host.Outcome State Fault Refusal :=
  match fetch s with
  | .idle => .next s
  | .hardwareReset s1 => .next s1
  | .command w s1 =>
    match decode w with
    | .ok i => exec i s1
    | .error _ => execIllegal s1

/-- `s` with the command line whose low `nbits` bits are those of `w` issued by the host as its next transaction. -/
def State.withFetchWord (s : State) (nbits w : Nat) : State := issueNext (Words.ofBits (w % 2 ^ nbits)) s

end Sys2Proof.Machine
end

