-- ==== Sys2Proof/Machine/Wire.lean ====
section
/-! DEFINITION. The wire format as functions to bit strings (30_encoding.md Part B, 00_scope.md R11): fixed fields,
unary code, truncated binary code, codewords, and the two payload headers. No command's meaning calls them; the
statements say with them which bits a command writes or reads. -/

namespace Sys2Proof.Machine

/-- `bitsof(v, n)`: the `n` low-order bits of `v`, most significant first (R11). -/
def bitsof (v : Nat) : Nat → Bits
  | 0 => []
  | n + 1 => v.testBit n :: bitsof v n

/-- `valof(s)`: the unsigned integer a bit string spells, first bit most significant (R11). -/
def valof (s : Bits) : Nat := s.foldl (fun v x => 2 * v + bitVal x) 0

/-- The unary code of `q` (30_encoding.md R111). -/
def unary (q : Nat) : Bits := List.replicate q false ++ [true]

/-- `cutoff = 2^b - m` with `b = clog2(m)` (10_state.md R29). -/
def cutoffOf (m : Nat) : Nat := 2 ^ clog2 m - m

/-- The truncated-binary code of a remainder `r` of `m` (R112). -/
def tb (m r : Nat) : Bits :=
  if r < cutoffOf m then bitsof r (clog2 m - 1) else bitsof (r + cutoffOf m) (clog2 m)

/-- The codeword of `v` under parameter `m` (R113). -/
def cw (m v : Nat) : Bits := unary (v / m) ++ tb m (v % m)

/-- The zigzag codeword of a signed `n` (R114). -/
def cwZigzag (m : Nat) (n : Int) : Bits := cw m (zz n)

/-- The sign-magnitude codeword of a signed `n` (R115). -/
def cwSign (m : Nat) (n : Int) : Bits := decide (n < 0) :: cw m n.natAbs

/-- The 1-D payload header (R116). -/
def header1 (srate nch bps nsamp m : Nat) (adapt icp : Bool) : Bits :=
  bitsof srate 32 ++ bitsof nch 16 ++ bitsof bps 16 ++ bitsof nsamp 32 ++ bitsof m 16 ++ [adapt] ++
    (if nch = 2 then [icp] else [])

/-- The 2-D payload header (R117). -/
def header2 (rows cols m pmode : Nat) : Bits :=
  bitsof rows 32 ++ bitsof cols 32 ++ bitsof m 16 ++ bitsof pmode 8

/-- The bits of a byte in stream order (20_memory.md R74). -/
def byteBits (y : Byte) : Bits := bitsof y.toNat 8

/-- The bits of a byte sequence in stream order (20_memory.md R76). -/
def streamBits (ys : List Byte) : Bits := ys.flatMap byteBits

end Sys2Proof.Machine
end

