-- ==== Sys2Proof/Safety.lean ====
section
/-! DEFINITION. What the statements about GRC are said in: the bit streams a state has written and has yet to read, the
invariant that rules out the states no run reaches, legality and faults per command, and agreement of an encoder with a
decoder. -/

namespace Sys2Proof.Machine

/-! ### The bit streams -/

/-- The bits written since OPENW: the whole bytes of `OUT`, then the pending bits of `ACC` (10_state.md R31, R35). -/
def written (s : State) : Bits := streamBits s.out ++ (byteBits s.acc).take s.nbits.toNat

/-- The bits a reader has yet to read: the rest of `ACC`, then the bytes not yet pulled (10_state.md R32, R35). -/
def unread (s : State) : Bits := (byteBits s.acc).drop (8 - s.nbits.toNat) ++ streamBits (s.inp.drop s.rpos)

/-- The sink takes every byte that `k` more bits complete (20_memory.md R72). -/
def sinkFits (s : State) (k : Nat) : Bool :=
  match s.sinkCap with
  | none => true
  | some c => decide (s.out.length + (s.nbits.toNat + k) / 8 ≤ c)

/-- `putbit` of each bit of a string in turn. -/
def putAll : Bits → State → Res Unit
  | [], s => .ok () s
  | x :: xs, s => (putbit x s).bind fun _ s1 => putAll xs s1

/-- `n` single-bit reads: the bits read and the state after them, or `none` at `EOD`. -/
def readAll : Nat → State → Option (Bits × State)
  | 0, s => some ([], s)
  | n + 1, s =>
    match getbit s with
    | none => none
    | some (x, s1) =>
      match readAll n s1 with
      | none => none
      | some (xs, s2) => some (x :: xs, s2)

/-! ### The invariant -/

/-- `M` is a Golomb parameter and `B`, `CUTOFF` are its functions (10_state.md R28, R29). -/
structure CoderOk (s : State) : Prop where
  positive : 1 ≤ s.m.toNat
  width : s.b.toNat = clog2 s.m.toNat
  cutoff : s.cutoff.toNat = cutoffOf s.m.toNat

/-- A writer between commands (10_state.md R31, 20_memory.md R72). -/
structure WriterOk (s : State) : Prop where
  pending : s.nbits.toNat ≤ 7
  padded : (byteBits s.acc).drop s.nbits.toNat = List.replicate (8 - s.nbits.toNat) false
  fits : sinkFits s 0 = true

/-- A reader: `ACC` is the byte most recently pulled, and right after OPENR none has been (10_state.md R32, R34,
41_bitchannel.md R156). -/
structure ReaderOk (s : State) : Prop where
  loaded : s.nbits.toNat ≤ 8
  inside : s.rpos ≤ s.inp.length
  current : s.rpos ≠ 0 → s.inp[s.rpos - 1]? = some s.acc
  fresh : s.rpos = 0 → s.acc = 0 ∧ s.nbits = 0

/-- From `s` to `t` a writer took the bits `w` and nothing else changed (10_state.md R31, 41_bitchannel.md R150). -/
structure Wrote (w : Bits) (s t : State) : Prop where
  frame : t = { s with acc := t.acc, nbits := t.nbits, out := t.out }
  bits : written t = written s ++ w
  ok : WriterOk t

/-- From `s` to `t` a reader gave the bits `w` and nothing else changed (10_state.md R32, 41_bitchannel.md R152). It
pulled as many bytes as `w` needs beyond the bits left of `ACC` and no more, `NBITS` counts what is left of the last of
them, and `ACC` is that byte (`ReaderOk`). -/
structure Took (w : Bits) (s t : State) : Prop where
  frame : t = { s with acc := t.acc, nbits := t.nbits, rpos := t.rpos }
  bits : unread s = w ++ unread t
  pulled : t.rpos = s.rpos + (w.length + 7 - s.nbits.toNat) / 8
  left : t.nbits.toNat + w.length = s.nbits.toNat + 8 * (t.rpos - s.rpos)
  ok : ReaderOk t

/-- Invalid history entries hold 0 (10_state.md R40). -/
structure HistoryOk (s : State) : Prop where
  first : s.hcnt.toNat < 1 → s.h1 = 0
  second : s.hcnt.toNat < 2 → s.h2 = 0
  third : s.hcnt.toNat < 3 → s.h3 = 0

/-- A 1-D phase is active (10_state.md R41). -/
def inPhase1 (s : State) : Bool := decide (s.phase = .s1anl ∨ s.phase = .s1enc ∨ s.phase = .s1dec)

/-- A 2-D phase is active (10_state.md R45). -/
def inPhase2 (s : State) : Bool := decide (s.phase = .s2anl ∨ s.phase = .s2enc ∨ s.phase = .s2dec)

/-- What holds of a core that is not faulted. -/
structure Running (s : State) : Prop where
  coder : CoderOk s
  closed : s.mode = .closed → s.acc = 0 ∧ s.nbits = 0
  writer : s.mode = .write → WriterOk s
  reader : s.mode = .read → ReaderOk s
  encoding : s.phase = .s1enc ∨ s.phase = .s2enc → s.mode = .write
  decoding : s.phase = .s1dec ∨ s.phase = .s2dec → s.mode = .read
  history : HistoryOk s
  window : s.sum.toNat ≤ s.cnt.toNat * 2147483648
  place1 : inPhase1 s = true → channelsOk s.nch.toNat = true ∧ s.idx.toNat < s.nsamp.toNat ∧ (s.ch = 1 → s.nch = 2)
  noPlace1 : inPhase1 s = false → s.ch = 0 ∧ s.idx = 0
  place2 : inPhase2 s = true → geometryOk s = true ∧ s.row.toNat < s.rows.toNat ∧ s.col.toNat < s.cols.toNat
  noPlace2 : inPhase2 s = false → s.row = 0 ∧ s.col = 0
  rowStart : inPhase2 s = true → s.col = 0 → s.areg = 0 ∧ s.creg = 0
  leftOf : inPhase2 s = true → s.col ≠ 0 → s.areg = s.line.read (s.col.toNat - 1)

/-- The invariant of the machine: what holds after reset and after every step. -/
structure Inv (s : State) : Prop where
  canonical : s.line.wf = true
  bounded : ∀ c ∈ s.line, c.1 < s.lineDepth
  faulted : s.cause ≠ none → s.mode = .closed ∧ s.phase = .idle
  running : s.cause = none → Running s

/-- The core meets the invariant and is not faulted. -/
structure Ready (s : State) : Prop where
  inv : Inv s
  healthy : s.cause = none

/-! ### Legality and faults by command -/

/-- The "Legal when" clause of each command (60_exceptions.md R318 step 3; the Legal-when clauses of 40_system.md to
46_codec2d.md), for a core that is not faulted. -/
def legalWhen (i : Instr) (s : State) : Bool :=
  match i with
  | .nop | .reset | .rdreg _ | .setm _ | .estclr | .estacc _ | .est1d | .est2d | .p1pred _ _ => true
  | .wrreg _ _ | .p1rst | .p1push _ | .begin1a | .begin2a => decide (s.phase = .idle)
  | .openw | .openr => decide (s.mode = .closed)
  | .close => decide (s.mode ≠ .closed)
  | .putbit _ | .putbits _ _ | .encu _ | .encz _ | .encs _ => decide (s.mode = .write)
  | .getbit | .getbits _ | .decu | .decz | .decs => decide (s.mode = .read)
  | .p2pred => inPhase2 s
  | .rsd1 _ _ => decide (s.phase = .s1anl)
  | .rsd2 _ => decide (s.phase = .s2anl)
  | .wrhdr1 | .wrhdr2 => decide (s.mode = .write ∧ s.phase = .idle)
  | .enc1 _ _ => decide (s.mode = .write ∧ s.phase = .s1enc)
  | .enc2 _ => decide (s.mode = .write ∧ s.phase = .s2enc)
  | .rdhdr1 | .rdhdr2 => decide (s.mode = .read ∧ s.phase = .idle)
  | .dec1 _ => decide (s.mode = .read ∧ s.phase = .s1dec)
  | .dec2 => decide (s.mode = .read ∧ s.phase = .s2dec)

/-- The faults of each command besides `IllegalCommand` (60_exceptions.md R325). -/
def faultsOf : Instr → List Cause
  | .nop | .reset | .rdreg _ | .getbit | .estclr | .p1rst | .p2pred => []
  | .wrreg _ _ | .setm _ | .est1d | .est2d | .p1push _ | .p1pred _ _ | .begin1a | .begin2a => [.invalidArgument]
  | .openw | .openr | .close | .putbit _ | .putbits _ _ | .encz _ | .encs _ => [.ioError]
  | .getbits _ => [.unexpectedEof]
  | .encu _ | .wrhdr1 | .wrhdr2 | .enc1 _ _ | .enc2 _ => [.invalidArgument, .ioError]
  | .decu | .decz | .decs | .dec2 => [.invalidEncoding, .unexpectedEof, .rangeOverflow]
  | .estacc _ => [.rangeOverflow]
  | .rsd1 _ _ | .rsd2 _ => [.invalidArgument, .rangeOverflow]
  | .rdhdr1 | .rdhdr2 => [.unexpectedEof, .invalidArgument]
  | .dec1 _ => [.invalidArgument, .invalidEncoding, .unexpectedEof, .rangeOverflow]

/-- The spatial prediction at the current position (44_predictors.md R227). -/
def predicted2 (s : State) : Int :=
  spatial s.pmode.toNat s.row.toNat s.col.toNat s.areg.toNat (s.line.read s.col.toNat).toNat s.creg.toNat

/-- The checks on operands and configuration registers that each command makes before it reads or writes a bit
(60_exceptions.md R318 step 4). -/
def operandsOk (i : Instr) (s : State) : Bool :=
  match i with
  | .wrreg r opa => decide (opa.toNat < 2 ^ regWidth r)
  | .setm opa => decide (1 ≤ s32 opa ∧ s32 opa ≤ 65535)
  | .encu opa => decide (0 ≤ s32 opa)
  | .est1d | .est2d => decide (s.cnt ≠ 0)
  | .p1push opa => isSample (s32 opa)
  | .p1pred k opa => decide (k.toNat ≤ 3) || isSample (s32 opa)
  | .begin1a | .wrhdr1 => channelsOk s.nch.toNat
  | .rsd1 opa opb | .enc1 opa opb => isSample (s32 opa) && (!needref s || isSample (s32 opb))
  | .dec1 opa => !needref s || isSample (s32 opa)
  | .begin2a | .wrhdr2 => geometryOk s
  | .rsd2 opa | .enc2 opa => isPixel opa
  | .nop | .reset | .rdreg _ | .openw | .openr | .close | .putbit _ | .putbits _ _ | .getbit | .getbits _
  | .decu | .encz _ | .decz | .encs _ | .decs | .estclr | .estacc _ | .p1rst | .p2pred | .rdhdr1 | .rdhdr2
  | .dec2 => true

/-- The bits each command appends to a writer's stream when it is answered `Ok`. -/
def bitsWritten (i : Instr) (s : State) : Bits :=
  match i with
  | .putbit opa => [opa.getLsbD 0]
  | .putbits n opa => bitsof opa.toNat n.toNat
  | .encu opa => cw s.m.toNat (s32 opa).toNat
  | .encz opa => cwZigzag s.m.toNat (s32 opa)
  | .encs opa => cwSign s.m.toNat (s32 opa)
  | .wrhdr1 => header1 s.srate.toNat s.nch.toNat s.bps.toNat s.nsamp.toNat s.m.toNat (s.flags.getLsbD 0)
      (s.flags.getLsbD 1)
  | .enc1 opa opb => cwZigzag s.m.toNat (s32 opa - p1sel (s32 opb) s)
  | .wrhdr2 => header2 s.rows.toNat s.cols.toNat s.m.toNat s.pmode.toNat
  | .enc2 opa => cwZigzag s.m.toNat (opa.toNat - predicted2 s)
  | .nop | .reset | .rdreg _ | .wrreg _ _ | .openw | .openr | .close | .getbit | .getbits _ | .setm _
  | .decu | .decz | .decs | .estclr | .estacc _ | .est1d | .est2d | .p1rst | .p1push _ | .p1pred _ _ | .p2pred
  | .begin1a | .rsd1 _ _ | .rdhdr1 | .dec1 _ | .begin2a | .rsd2 _ | .rdhdr2 | .dec2 => []

/-- What fault entry leaves of a state, whatever the free values: `CAUSE`, `OUT`, the fields of `STATUS`, the response,
and the model's own fields (60_exceptions.md R320). -/
structure FaultedFrom (c : Cause) (out : List Byte) (s t : State) : Prop where
  cause : t.cause = some c
  mode : t.mode = .closed
  phase : t.phase = .idle
  resp : t.resp = some (.fault c)
  out : t.out = out
  lineDepth : t.lineDepth = s.lineDepth
  pending : t.pending = s.pending
  env : t.env = s.env

/-- The command answers `Fault(c)` and leaves the core faulted, with `out` in the sink. -/
def Raises (i : Instr) (s : State) (c : Cause) (out : List Byte) : Prop :=
  ∃ t, exec i s = .next t ∧ FaultedFrom c out s t

/-- The command answers `Ok(v)`, leaving `t`. -/
def Answers (i : Instr) (s : State) (v : Word) (t : State) : Prop := exec i s = .next (respond (.ok v) t)

/-! ### The plane behind the 2-D predictor -/

/-- The predictor registers hold the neighbours of the next pixel of the plane `pix` (10_state.md R44, R45); a
neighbour outside the image is 0. -/
structure Tracks (pix : Nat → Nat → Byte) (s : State) : Prop where
  left : s.areg = if s.col = 0 then 0 else pix s.row.toNat (s.col.toNat - 1)
  topLeft : s.creg = if s.row = 0 ∨ s.col = 0 then 0 else pix (s.row.toNat - 1) (s.col.toNat - 1)
  line : ∀ i < s.cols.toNat, s.line.read i =
    if i < s.col.toNat then pix s.row.toNat i else if s.row = 0 then 0 else pix (s.row.toNat - 1) i

/-! ### An encoder and a decoder -/

/-- The encoder `s` and the decoder `d` use the same coder parameter. -/
structure SameCoder (s d : State) : Prop where
  m : s.m = d.m
  b : s.b = d.b
  cutoff : s.cutoff = d.cutoff

/-! ### Runs of one command over many operands -/

/-- Execute a list of commands; `some` with the responses and the last state where every one is answered `Ok`. -/
def runOk : List Instr → State → Option (List Word × State)
  | [], s => some ([], s)
  | i :: is, s =>
    match exec i s with
    | .next t =>
      match t.resp with
      | some (.ok v) =>
        match runOk is t with
        | some (vs, u) => some (v :: vs, u)
        | none => none
      | _ => none
    | _ => none

end Sys2Proof.Machine
end

