-- ==== Sys2Proof/Certificates/Slice0/Obligations.lean ====
section
/-! DEFINITION. The statements about GRC for the provers. `Ready s` says that `s` meets the invariant `Inv` and is not
faulted; `Answers i s v t` that `i` is answered `Ok(v)` with `t` the state; `Raises i s c out` that it faults. -/

open Sys2Proof Sys2Proof.Machine

/-! ### Encoding -/

/-- Decoding the encoding of a well-formed instruction gives it back, whatever its operands (30_encoding.md R102 to
R104, R106). -/
def Obligations.DecodeEncodeAgree : Prop :=
  ∀ i : Instr, i.wellFormed = true → decode (encode i) = .ok i

/-- A command word decodes exactly when it is the word of a well-formed instruction, and then to an instruction of that
word whose operands are those of the transaction or ignored (R101, R105). -/
def Obligations.OnlyEncodingsDecode : Prop :=
  (∀ w i, decode w = .ok i → i.wellFormed = true ∧ (encode i).cmd = w.cmd ∧
    (operandA i = w.opa ∨ ∀ x, decode { w with opa := x } = .ok i) ∧
    (operandB i = w.opb ∨ ∀ x, decode { w with opb := x } = .ok i)) ∧
  ∀ w : Words, (∃ i : Instr, i.wellFormed = true ∧ (encode i).cmd = w.cmd) → ∃ i, decode w = .ok i

/-- Command words written out from the spec's examples decode to the instructions they stand for, and `0xFFFFFFFF` to
none (R103, R105, R106). -/
def Obligations.SpecWordsDecode : Prop :=
  decode ⟨0x00000000, 0, 0⟩ = .ok .nop ∧
  decode ⟨0x03000009, 0x00000002, 0⟩ = .ok (.wrreg .nch 2) ∧
  decode ⟨0x1400000C, 0x00000ABC, 0⟩ = .ok (.putbits 12 0xABC) ∧
  decode ⟨0x23000000, 0xFFFFFFFD, 0⟩ = .ok (.encz 0xFFFFFFFD) ∧
  decode ⟨0x33000000, 0, 0⟩ = .ok .est2d ∧
  decode ⟨0x42000004, 0xFFFFFF8D, 0⟩ = .ok (.p1pred 4 0xFFFFFF8D) ∧
  decode ⟨0x53000000, 0x00000005, 0⟩ = .ok (.enc1 5 0) ∧
  decode ⟨0x63000000, 0x00000064, 0⟩ = .ok (.enc2 0x64) ∧
  ¬ ∃ i, decode ⟨0xFFFFFFFF, 0, 0⟩ = .ok i

/-! ### Steps, reset and the invariant -/

/-- A step at a pending transaction executes its decoded command with the transaction's inputs; the later events wait
(10_state.md R21, R53; the queue of events is the model's, notes/assumptions/2.md and 4.md). -/
def Obligations.StepRunsDecodedCommand : Prop :=
  ∀ (s : State) (t : Txn) (rest : List HostEvent) (i : Instr), s.pending = .transact t :: rest →
    decode t.words = .ok i → step s = exec i { s with pending := rest, env := t.env }

/-- The other steps. At a word that is no command: `IllegalCommand`, or in the faulted state the stored cause with no
change (60_exceptions.md R318 steps 1 and 2). With nothing pending: no change (R334). At the hardware reset input: the
effect of RESET, with no response (70_reset_and_hazards.md R350). The events and the missing response are the model's
(notes/assumptions/2.md, 6.md). -/
def Obligations.OtherSteps : Prop :=
  (∀ (s : State) (t : Txn) (rest : List HostEvent) (e : Reject), s.pending = .transact t :: rest →
    decode t.words = .error e →
    (∀ c, s.cause = some c →
      step s = .next { s with pending := rest, env := t.env, resp := some (.fault c) }) ∧
    (s.cause = none → ∃ u, step s = .next u ∧ FaultedFrom .illegalCommand
      (if s.mode = .write ∧ s.nbits ≠ 0 ∧ sinkRoom s = true then s.out ++ [s.acc] else s.out)
      { s with pending := rest, env := t.env } u)) ∧
  (∀ s : State, s.pending = [] → step s = .next s) ∧
  ∀ (s : State) (rest : List HostEvent), s.pending = .hardwareReset :: rest →
    step s = .next { State.reset with
      lineDepth := s.lineDepth, env := s.env, serial := s.serial, pending := rest, resp := none }

/-- What reset leaves: the machine right after reset, after the RESET command in any state, and after the hardware reset
input (70_reset_and_hazards.md R350, 10_state.md R50). -/
def Obligations.ResetValues : Prop :=
  ∀ t : State, t = State.reset ∨ (∃ s, exec .reset s = .next t) ∨
      (∃ s rest, s.pending = .hardwareReset :: rest ∧ step s = .next t) →
    statusWord t = 0 ∧ (∀ r, readReg r t = if r = .m then 1 else 0) ∧ t.out = [] ∧ t.sinkCap = some 0 ∧
    t.inp = [] ∧ t.rpos = 0 ∧ ∀ i, t.line.read i = 0

/-- The state after reset meets the invariant. -/
def Obligations.ResetMeetsInvariant : Prop := Inv State.reset

/-- Every step keeps the invariant: the line buffer's canonical form, `M`, `B`, `CUTOFF` in agreement, the reader's and
the writer's accumulator, the history, the window's bound, the sequencer's place (10_state.md R28 to R45). -/
def Obligations.StepKeepsInvariant : Prop :=
  ∀ s t : State, Inv s → step s = .next t → Inv t

/-- Every step from a state that meets the invariant answers a next state, and a transaction a response
(70_reset_and_hazards.md R382, 10_state.md R22). -/
def Obligations.EveryTransactionIsAnswered : Prop :=
  ∀ s : State, Inv s → ∃ t, step s = .next t ∧ t.pending = s.pending.tail ∧ t.lineDepth = s.lineDepth ∧
    ∀ x rest, s.pending = .transact x :: rest → t.resp ≠ none ∧ t.env = x.env

/-! ### Faults -/

/-- What taking a fault leaves, whatever the free values of the unspecified registers (60_exceptions.md R320,
notes/assumptions/1.md). -/
def Obligations.FaultEntry : Prop :=
  ∀ (c : Cause) (s : State),
    (takeFault c s).cause = some c ∧ (takeFault c s).mode = .closed ∧ (takeFault c s).phase = .idle ∧
    (takeFault c s).resp = some (.fault c) ∧
    (takeFault c s).out = (if s.mode = .write ∧ 0 < s.nbits.toNat ∧ c ≠ .ioError ∧
      (∀ k, s.sinkCap = some k → s.out.length < k) then s.out ++ [s.acc] else s.out)

/-- The faulted state is absorbing: every command but RESET and RDREG STATUS answers the cause and changes nothing,
RDREG STATUS answers the cause code, RESET clears it (60_exceptions.md R322). -/
def Obligations.FaultedStateIsAbsorbing : Prop :=
  ∀ (s : State) (c : Cause), Inv s → s.cause = some c →
    (∀ i : Instr, i ≠ .reset → i ≠ .rdreg .status → exec i s = .next { s with resp := some (.fault c) }) ∧
    Answers (.rdreg .status) s ((causeCode c).setWidth 32) s ∧
    ∃ t, exec .reset s = .next t ∧ t.cause = none ∧ t.resp = some (.ok 0)

/-- A command that its "Legal when" clause excludes raises `IllegalCommand`; operands are not looked at
(60_exceptions.md R318 step 3). -/
def Obligations.IllegalInModeOrPhase : Prop :=
  ∀ (i : Instr) (s : State), s.cause = none → legalWhen i s = false →
    Raises i s .illegalCommand
      (if s.mode = .write ∧ s.nbits ≠ 0 ∧ sinkRoom s = true then s.out ++ [s.acc] else s.out)

/-- A legal command whose operands or configuration registers fail their check raises `InvalidArgument`, before any
bit is read or written (60_exceptions.md R318 step 4). -/
def Obligations.InvalidArguments : Prop :=
  ∀ (i : Instr) (s : State), s.cause = none → i.wellFormed = true → legalWhen i s = true → operandsOk i s = false →
    Raises i s .invalidArgument
      (if s.mode = .write ∧ s.nbits ≠ 0 ∧ sinkRoom s = true then s.out ++ [s.acc] else s.out)

/-- A command either ends unfaulted with `Ok` or `Eod`, or raises a fault of the list that 60_exceptions.md R325 infers for
it; only GETBIT answers `Eod`. -/
def Obligations.FaultsByCommand : Prop :=
  ∀ (i : Instr) (s t : State), s.cause = none → exec i s = .next t →
    (t.cause = none ∧ ((∃ v, t.resp = some (.ok v)) ∨ (i = .getbit ∧ t.resp = some .eod))) ∨
    ∃ c, (c ∈ faultsOf i ∨ (c = .illegalCommand ∧ i ≠ .reset)) ∧ FaultedFrom c t.out s t

/-- A write command for whose bits the sink has no room raises `IoError`: the sink is full, it holds a prefix of the
stream, and the partial byte is not flushed (20_memory.md R72, 60_exceptions.md R320). -/
def Obligations.SinkFullRaisesIoError : Prop :=
  ∀ (i : Instr) (s : State), Ready s → s.mode = .write → i.wellFormed = true → legalWhen i s = true →
    operandsOk i s = true → sinkFits s (bitsWritten i s).length = false →
    ∃ out, Raises i s .ioError out ∧ s.sinkCap = some out.length ∧ streamBits out <+: written s ++ bitsWritten i s

/-! ### System commands -/

/-- `STATUS` has number 0x00 and is read-only; its fields and their codes, with 3 of `MODE` and 7 of `PHASE` never
occurring; in the faulted state it is `CAUSE` alone (10_state.md R25). The output `FAULT` (60_exceptions.md R330). -/
def Obligations.StatusLayout : Prop :=
  Reg.status.code = 0x00 ∧ Reg.status.writable = false ∧
  (∀ s : State, readReg .status s = statusWord s ∧
    (statusWord s).extractLsb' 0 4 = (match s.cause with
      | none => 0
      | some .invalidArgument => 1
      | some .invalidEncoding => 2
      | some .unexpectedEof => 3
      | some .ioError => 4
      | some .illegalCommand => 5
      | some .rangeOverflow => 6) ∧
    (statusWord s).extractLsb' 4 2 = (match s.mode with
      | .closed => 0
      | .write => 1
      | .read => 2) ∧
    (statusWord s).extractLsb' 6 2 = 0 ∧
    (statusWord s).extractLsb' 8 3 = (match s.phase with
      | .idle => 0
      | .s1anl => 1
      | .s1enc => 2
      | .s1dec => 3
      | .s2anl => 4
      | .s2enc => 5
      | .s2dec => 6) ∧
    (statusWord s).extractLsb' 11 21 = 0 ∧
    (statusWord s).extractLsb' 4 2 ≠ 3 ∧ (statusWord s).extractLsb' 8 3 ≠ 7) ∧
  (∀ s : State, Inv s → s.cause ≠ none → statusWord s = ((statusWord s).extractLsb' 0 4).setWidth 32) ∧
  ∀ s, faultSignal s = true ↔ (statusWord s).extractLsb' 0 4 ≠ 0

/-- NOP changes nothing but the response; RESET gives every piece of the spec's state its reset value in every state,
the faulted one included (40_system.md R140, R141). -/
def Obligations.NopAndReset : Prop :=
  (∀ s : State, s.cause = none → Answers .nop s 0 s) ∧
  ∀ s : State, Answers .reset s 0 { State.reset with
    lineDepth := s.lineDepth, pending := s.pending, env := s.env, serial := s.serial }

/-- RDREG answers the register, zero-extended, or sign-extended for the history, and changes no state
(40_system.md R142, 10_state.md R27). -/
def Obligations.RdregReads : Prop :=
  ∀ s : State, s.cause = none →
    (∀ r, Answers (.rdreg r) s (readReg r s) s) ∧
    readReg .status s = statusWord s ∧ (readReg .m s).toNat = s.m.toNat ∧ (readReg .b s).toNat = s.b.toNat ∧
    (readReg .cutoff s).toNat = s.cutoff.toNat ∧ (readReg .acc s).toNat = s.acc.toNat ∧
    (readReg .nbits s).toNat = s.nbits.toNat ∧ readReg .srate s = s.srate ∧ (readReg .nch s).toNat = s.nch.toNat ∧
    (readReg .bps s).toNat = s.bps.toNat ∧ readReg .nsamp s = s.nsamp ∧ (readReg .flags s).toNat = s.flags.toNat ∧
    readReg .rows s = s.rows ∧ readReg .cols s = s.cols ∧ (readReg .pmode s).toNat = s.pmode.toNat ∧
    (readReg .sumhi s).toNat * 2 ^ 32 + (readReg .sumlo s).toNat = s.sum.toNat ∧ readReg .cnt s = s.cnt ∧
    (readReg .h1 s).toInt = s.h1.toInt ∧ (readReg .h2 s).toInt = s.h2.toInt ∧ (readReg .h3 s).toInt = s.h3.toInt ∧
    (readReg .hcnt s).toNat = s.hcnt.toNat ∧ (readReg .ch s).toNat = s.ch.toNat ∧ readReg .idx s = s.idx ∧
    readReg .row s = s.row ∧ readReg .col s = s.col ∧ (readReg .areg s).toNat = s.areg.toNat ∧
    (readReg .creg s).toNat = s.creg.toNat

/-- WRREG of a value that fits writes that register and nothing else; of one that does not fit it faults
(40_system.md R143). -/
def Obligations.WrregWrites : Prop :=
  ∀ (r : Reg) (opa : Word) (s : State), s.cause = none → s.phase = .idle → r.writable = true →
    (opa.toNat < 2 ^ regWidth r → ∃ t, Answers (.wrreg r opa) s 0 t ∧ readReg r t = opa ∧
      (∀ q, q ≠ r → readReg q t = readReg q s) ∧
      t = { s with srate := t.srate, nch := t.nch, bps := t.bps, nsamp := t.nsamp, flags := t.flags,
                   rows := t.rows, cols := t.cols, pmode := t.pmode }) ∧
    (2 ^ regWidth r ≤ opa.toNat → Raises (.wrreg r opa) s .invalidArgument
      (if s.mode = .write ∧ s.nbits ≠ 0 ∧ sinkRoom s = true then s.out ++ [s.acc] else s.out))

/-! ### The bit channel -/

/-- OPENW (41_bitchannel.md R155). -/
def Obligations.OpenwOpensWriter : Prop :=
  ∀ s : State, s.cause = none → s.mode = .closed →
    (s.env.openOk = true → Answers .openw s 0
      { s with out := [], sinkCap := s.env.cap, acc := 0, nbits := 0, mode := .write }) ∧
    (s.env.openOk = false → Raises .openw s .ioError s.out)

/-- OPENR (41_bitchannel.md R156). -/
def Obligations.OpenrOpensReader : Prop :=
  ∀ s : State, s.cause = none → s.mode = .closed →
    (s.env.openOk = true → Answers .openr s 0
      { s with inp := s.env.data, rpos := 0, acc := 0, nbits := 0, mode := .read }) ∧
    (s.env.openOk = false → Raises .openr s .ioError s.out)

/-- CLOSE pushes a writer's partial byte, whose unused low-order bits are zero, closes the channel and ends the phase;
where the sink refuses that byte it faults (41_bitchannel.md R157, 20_memory.md R80). -/
def Obligations.CloseFlushes : Prop :=
  ∀ s : State, Ready s → s.mode ≠ .closed →
    (s.mode = .read ∨ s.nbits = 0 ∨ sinkRoom s = true → ∃ out, Answers .close s 0
      { s with out := out, acc := 0, nbits := 0, mode := .closed, phase := .idle,
               ch := 0, idx := 0, row := 0, col := 0 } ∧
      (s.mode = .read → out = s.out) ∧
      (s.mode = .write → out.length = s.out.length + (s.nbits.toNat + 7) / 8 ∧
        streamBits out = written s ++ List.replicate (8 * out.length - (written s).length) false)) ∧
    (s.mode = .write → s.nbits ≠ 0 → sinkRoom s = false → Raises .close s .ioError s.out)

/-- PUTBIT and PUTBITS append their bits, most significant first, and change nothing else (41_bitchannel.md R160,
R161). -/
def Obligations.PutbitsAppend : Prop :=
  (∀ (s : State) (opa : Word), Ready s → s.mode = .write → sinkFits s 1 = true →
    ∃ t, Answers (.putbit opa) s 0 t ∧ Wrote [opa.getLsbD 0] s t) ∧
  ∀ (s : State) (n : BitVec 8) (opa : Word), Ready s → s.mode = .write → n.toNat ≤ 32 →
    sinkFits s n.toNat = true →
    ∃ t, Answers (.putbits n opa) s 0 t ∧ Wrote (bitsof opa.toNat n.toNat) s t

/-- GETBIT answers the next unread bit; where `ACC` has one left only `NBITS` counts down, and only where it has none the
next byte is pulled into `ACC`. At the end of the data it answers `Eod` with no change of state but the response
(41_bitchannel.md R152, R162; what 10_state.md R32 infers from R152). -/
def Obligations.GetbitReads : Prop :=
  ∀ s : State, Ready s → s.mode = .read →
    (∀ x rest, unread s = x :: rest →
      ∃ t, Answers .getbit s (if x = true then 1 else 0) t ∧ Took [x] s t ∧ unread t = rest ∧
        (s.nbits ≠ 0 → t = { s with nbits := s.nbits - 1 }) ∧
        (s.nbits = 0 → ∃ y, s.inp[s.rpos]? = some y ∧ t = { s with acc := y, nbits := 7, rpos := s.rpos + 1 })) ∧
    (unread s = [] → s.nbits = 0 ∧ s.rpos = s.inp.length ∧ exec .getbit s = .next { s with resp := some .eod })

/-- GETBITS answers the number the next `n` bits spell; it pulls the bytes those bits need and no more, `NBITS` counts the
bits left of the last of them and `ACC` is that byte; with fewer than `n` bits it faults (41_bitchannel.md R152, R153,
R163; what 10_state.md R32 infers from R152). -/
def Obligations.GetbitsReads : Prop :=
  ∀ (s : State) (n : BitVec 8), Ready s → s.mode = .read → n.toNat ≤ 32 →
    (∀ w rest, w.length = n.toNat → unread s = w ++ rest →
      ∃ v t, v.toNat = valof w ∧ Answers (.getbits n) s v t ∧ Took w s t ∧ unread t = rest ∧
        t.rpos = s.rpos + (n.toNat + 7 - s.nbits.toNat) / 8 ∧
        t.nbits.toNat + n.toNat = s.nbits.toNat + 8 * (t.rpos - s.rpos) ∧
        (t.rpos = s.rpos → t.acc = s.acc) ∧ (t.rpos ≠ s.rpos → s.inp[t.rpos - 1]? = some t.acc)) ∧
    ((unread s).length < n.toNat → Raises (.getbits n) s .unexpectedEof s.out)

/-- Writing `k` bits by PUTBITS then closing produces `ceil(k/8)` bytes, padded with zeros; single-bit reads give the
bits back, then the padding, then `Eod` (the property 41_bitchannel.md R165 infers from R150, R152, R157). -/
def Obligations.WriteThenRead : Prop :=
  ∀ (s d : State) (fields : List (BitVec 8 × Word)) (w : Bits), Ready s → Ready d → s.mode = .closed →
    d.mode = .closed → s.env.openOk = true → d.env.openOk = true → (∀ f ∈ fields, f.1.toNat ≤ 32) →
    w = fields.flatMap (fun f => bitsof f.2.toNat f.1.toNat) → (∀ c, s.env.cap = some c → (w.length + 7) / 8 ≤ c) →
    ∃ vs t, runOk (.openw :: fields.map (fun f => .putbits f.1 f.2) ++ [.close]) s = some (vs, t) ∧
      t.out.length = (w.length + 7) / 8 ∧
      streamBits t.out = w ++ List.replicate (8 * ((w.length + 7) / 8) - w.length) false ∧
      (d.env.data = t.out → ∃ e, runOk (.openr :: List.replicate (8 * t.out.length) .getbit) d =
          some (0 :: (streamBits t.out).map (fun x => if x = true then 1 else 0), e) ∧
        exec .getbit e = .next { e with resp := some .eod })

/-! ### The Golomb-Rice coder -/

/-- SETM loads the parameter with `B = clog2(m)`, the least `b` with `2^b >= m`, and `CUTOFF = 2^B - m`; outside
`1 .. 65535` it faults (42_golomb.md R180, 00_scope.md R10). -/
def Obligations.SetmSetsParameter : Prop :=
  ∀ (s : State) (opa : Word), s.cause = none →
    (1 ≤ s32 opa → s32 opa ≤ 65535 → ∃ m b c, Answers (.setm opa) s 0 { s with m := m, b := b, cutoff := c } ∧
      (m.toNat : Int) = s32 opa ∧ m.toNat ≤ 2 ^ b.toNat ∧ (∀ k < b.toNat, 2 ^ k < m.toNat) ∧
      c.toNat + m.toNat = 2 ^ b.toNat) ∧
    (s32 opa ≤ 0 ∨ 65535 < s32 opa → Raises (.setm opa) s .invalidArgument
      (if s.mode = .write ∧ s.nbits ≠ 0 ∧ sinkRoom s = true then s.out ++ [s.acc] else s.out))

/-- ENCU, ENCZ and ENCS append the codeword of their value and change nothing else (42_golomb.md R181, R183, R185;
30_encoding.md R113 to R115). -/
def Obligations.EncodersAppendCodeword : Prop :=
  ∀ (s : State) (opa : Word), Ready s → s.mode = .write →
    (0 ≤ s32 opa → sinkFits s (cw s.m.toNat (s32 opa).toNat).length = true →
      ∃ t, Answers (.encu opa) s 0 t ∧ Wrote (cw s.m.toNat (s32 opa).toNat) s t) ∧
    (sinkFits s (cwZigzag s.m.toNat (s32 opa)).length = true →
      ∃ t, Answers (.encz opa) s 0 t ∧ Wrote (cwZigzag s.m.toNat (s32 opa)) s t) ∧
    (sinkFits s (cwSign s.m.toNat (s32 opa)).length = true →
      ∃ t, Answers (.encs opa) s 0 t ∧ Wrote (cwSign s.m.toNat (s32 opa)) s t)

/-- The length of a codeword, in general, for `n` and `n + m`, and the shortest (what 42_golomb.md R173 infers). -/
def Obligations.CodewordLength : Prop :=
  ∀ m : Nat, 1 ≤ m → m ≤ 65535 →
    (∀ v, (cw m v).length = v / m + 1 + (if v % m < cutoffOf m then clog2 m - 1 else clog2 m)) ∧
    (∀ v, (cw m (v + m)).length = (cw m v).length + 1) ∧
    (∀ v, (cw m 0).length ≤ (cw m v).length) ∧
    (m = 1 → (cw m 0).length = 1) ∧ ((∃ k, m = 2 ^ k) → (cw m 0).length = clog2 m + 1) ∧
    ((∀ k, m ≠ 2 ^ k) → (cw m 0).length = clog2 m)

/-- No codeword is the start of another: a bit string begins with the codeword of at most one value
(what 42_golomb.md R179 infers). -/
def Obligations.CodewordsUniquelyDecodable : Prop :=
  ∀ (m v v' : Nat) (a b : Bits), 1 ≤ m → m ≤ 65535 → cw m v ++ a = cw m v' ++ b → v = v' ∧ a = b

/-- DECU, DECZ and DECS answer the value of a codeword and consume exactly its bits; a result beyond 32 bits is
`RangeOverflow`; a negative zero is 0 (42_golomb.md R178, R182, R184, R186). -/
def Obligations.DecodersReadCodeword : Prop :=
  ∀ (s : State) (v : Nat) (rest : Bits), Ready s → s.mode = .read →
    (unread s = cw s.m.toNat v ++ rest →
      (v ≤ 4294967295 →
        (∃ r t, r.toNat = v ∧ Answers .decu s r t ∧ Took (cw s.m.toNat v) s t ∧ unread t = rest) ∧
        ∃ r t, r.toInt = (if v % 2 = 0 then ((v / 2 : Nat) : Int) else -(((v + 1) / 2 : Nat) : Int)) ∧
          Answers .decz s r t ∧ Took (cw s.m.toNat v) s t ∧ unread t = rest) ∧
      (4294967295 < v → Raises .decu s .rangeOverflow s.out ∧ Raises .decz s .rangeOverflow s.out)) ∧
    (unread s = false :: cw s.m.toNat v ++ rest →
      (v ≤ 2147483647 → ∃ r t, r.toInt = (v : Int) ∧ Answers .decs s r t ∧
        Took (false :: cw s.m.toNat v) s t ∧ unread t = rest) ∧
      (2147483647 < v → Raises .decs s .rangeOverflow s.out)) ∧
    (unread s = true :: cw s.m.toNat v ++ rest →
      (v ≤ 2147483648 → ∃ r t, r.toInt = -(v : Int) ∧ Answers .decs s r t ∧
        Took (true :: cw s.m.toNat v) s t ∧ unread t = rest) ∧
      (2147483648 < v → Raises .decs s .rangeOverflow s.out))

/-- On data that ends before a terminator every decoder raises `InvalidEncoding`, on data that ends inside a remainder
`UnexpectedEof`, and DECS without a sign bit `UnexpectedEof` (42_golomb.md R178, R186, R188). -/
def Obligations.DecodersRefuseShortData : Prop :=
  ∀ s : State, Ready s → s.mode = .read →
    (∀ i : Instr, i = .decu ∨ i = .decz ∨ (∃ x, i = .dec1 x) ∨ i = .dec2 → legalWhen i s = true →
      operandsOk i s = true →
      (∀ k, unread s = List.replicate k false → Raises i s .invalidEncoding s.out) ∧
      ∀ q rest, unread s = unary q ++ rest → (∀ r < s.m.toNat, ¬ tb s.m.toNat r <+: rest) →
        Raises i s .unexpectedEof s.out) ∧
    (unread s = [] → Raises .decs s .unexpectedEof s.out) ∧
    (∀ x k, unread s = x :: List.replicate k false → Raises .decs s .invalidEncoding s.out) ∧
    ∀ x q rest, unread s = x :: unary q ++ rest → (∀ r < s.m.toNat, ¬ tb s.m.toNat r <+: rest) →
      Raises .decs s .unexpectedEof s.out

/-- Each decoder, given the bits its encoder wrote, answers the value encoded and consumes exactly those bits
(the property 42_golomb.md R189 infers from R179 and R183 to R186). -/
def Obligations.GolombRoundTrips : Prop :=
  ∀ (s t d : State) (n : Word) (bits rest : Bits), Ready s → Ready d → s.mode = .write → d.mode = .read →
    SameCoder s d → t.cause = none → written t = written s ++ bits → unread d = bits ++ rest →
    (exec (.encz n) s = .next t → ∃ u, Answers .decz d n u ∧ Took bits d u ∧ unread u = rest) ∧
    (exec (.encs n) s = .next t → ∃ u, Answers .decs d n u ∧ Took bits d u ∧ unread u = rest) ∧
    (exec (.encu n) s = .next t → ∃ u, Answers .decu d n u ∧ Took bits d u ∧ unread u = rest)

/-! ### The estimator -/

/-- ESTCLR empties the window; ESTACC adds a magnitude to it exactly, or with a full count faults
(43_estimator.md R201 to R203). -/
def Obligations.EstimatorWindow : Prop :=
  ∀ s : State, Ready s →
    Answers .estclr s 0 { s with sum := 0, cnt := 0 } ∧
    ∀ opa : Word,
      (s.cnt.toNat ≠ 4294967295 → ∃ sum cnt, Answers (.estacc opa) s 0 { s with sum := sum, cnt := cnt } ∧
        sum.toNat = s.sum.toNat + (s32 opa).natAbs ∧ cnt.toNat = s.cnt.toNat + 1) ∧
      (s.cnt.toNat = 4294967295 → Raises (.estacc opa) s .rangeOverflow
        (if s.mode = .write ∧ s.nbits ≠ 0 ∧ sinkRoom s = true then s.out ++ [s.acc] else s.out))

/-- EST1D answers 1 for a window of zeros, else the largest `k` in `1 .. 256` that is 1 or meets the integer condition,
and changes no register (the integer form 43_estimator.md R206 infers; R207). -/
def Obligations.Est1dLargestK : Prop :=
  ∀ s : State, s.cause = none → s.cnt ≠ 0 → ∃ k : Nat, 1 ≤ k ∧ k ≤ 256 ∧ Answers .est1d s (BitVec.ofNat 32 k) s ∧
    (s.sum = 0 → k = 1) ∧
    (s.sum ≠ 0 →
      (k = 1 ∨ (s.cnt.toNat + s.sum.toNat) ^ (2 * k - 1) ≤ 4 * s.cnt.toNat ^ (2 * k - 1)) ∧
      ∀ j, k < j → j ≤ 256 → ¬ (s.cnt.toNat + s.sum.toNat) ^ (2 * j - 1) ≤ 4 * s.cnt.toNat ^ (2 * j - 1))

/-- EST1D answers `min(256, round(max(1, 1 / log2(1 + S/N))))` in exact real arithmetic, 1 for a window of zeros, and
with an empty window faults (43_estimator.md R206, R207). -/
def Obligations.Est1dRealFormula : Prop :=
  ∀ s : State, s.cause = none →
    (s.cnt ≠ 0 → s.sum ≠ 0 → Answers .est1d s (BitVec.ofInt 32 (min 256 (round
      (max 1 (1 / Real.logb 2 (1 + (s.sum.toNat : ℝ) / (s.cnt.toNat : ℝ))))))) s) ∧
    (s.cnt ≠ 0 → s.sum = 0 → Answers .est1d s 1 s) ∧
    (s.cnt = 0 → Raises .est1d s .invalidArgument
      (if s.mode = .write ∧ s.nbits ≠ 0 ∧ sinkRoom s = true then s.out ++ [s.acc] else s.out))

/-- EST2D answers `min(65535, max(1, ceil((S/N) * ln 2)))` in exact real arithmetic, and with an empty window faults
(43_estimator.md R210, R211). -/
def Obligations.Est2dRealFormula : Prop :=
  ∀ s : State, s.cause = none →
    (s.cnt ≠ 0 → Answers .est2d s (BitVec.ofInt 32 (min 65535
      (max 1 ⌈((s.sum.toNat : ℝ) / (s.cnt.toNat : ℝ)) * Real.log 2⌉))) s) ∧
    (s.cnt = 0 → Raises .est2d s .invalidArgument
      (if s.mode = .write ∧ s.nbits ≠ 0 ∧ sinkRoom s = true then s.out ++ [s.acc] else s.out))

/-! ### The predictors -/

/-- P1RST empties the history; P1PUSH enters a sample at its head; a value that is no sample faults
(44_predictors.md R234, R235). -/
def Obligations.HistoryCommands : Prop :=
  ∀ s : State, s.cause = none → s.phase = .idle →
    Answers .p1rst s 0 { s with h1 := 0, h2 := 0, h3 := 0, hcnt := 0 } ∧
    ∀ opa : Word,
      (-32768 ≤ s32 opa → s32 opa ≤ 32767 → ∃ h c,
        Answers (.p1push opa) s 0 { s with h1 := h, h2 := s.h1, h3 := s.h2, hcnt := c } ∧
        h.toInt = s32 opa ∧ c.toNat = min 3 (s.hcnt.toNat + 1)) ∧
      (s32 opa < -32768 ∨ 32767 < s32 opa → Raises (.p1push opa) s .invalidArgument
        (if s.mode = .write ∧ s.nbits ≠ 0 ∧ sinkRoom s = true then s.out ++ [s.acc] else s.out))

/-- P1PRED answers the temporal prediction of order 1, 2, 3, falling back to order 1 where the order's history is not
there, and the combined prediction truncated toward zero; a reference that is no sample faults (44_predictors.md R222,
R224, R236). -/
def Obligations.P1predAnswers : Prop :=
  ∀ (s : State) (opa : Word), s.cause = none →
    Answers (.p1pred 1 opa) s (BitVec.ofInt 32 (if s.hcnt.toNat = 0 then 0 else s.h1.toInt)) s ∧
    Answers (.p1pred 2 opa) s (BitVec.ofInt 32 (if s.hcnt.toNat = 0 then 0
      else if 2 ≤ s.hcnt.toNat then 2 * s.h1.toInt - s.h2.toInt else s.h1.toInt)) s ∧
    Answers (.p1pred 3 opa) s (BitVec.ofInt 32 (if s.hcnt.toNat = 0 then 0
      else if 3 ≤ s.hcnt.toNat then 3 * s.h1.toInt - 3 * s.h2.toInt + s.h3.toInt else s.h1.toInt)) s ∧
    (-32768 ≤ s32 opa → s32 opa ≤ 32767 → Answers (.p1pred 4 opa) s
      (BitVec.ofInt 32 (((if s.hcnt.toNat = 0 then 0 else s.h1.toInt) + s32 opa).tdiv 2)) s) ∧
    (s32 opa < -32768 ∨ 32767 < s32 opa → Raises (.p1pred 4 opa) s .invalidArgument
      (if s.mode = .write ∧ s.nbits ≠ 0 ∧ sinkRoom s = true then s.out ++ [s.acc] else s.out))

/-- After P1RST and a run of P1PUSH the history holds the last samples pushed, as far as they exist
(44_predictors.md R220, R221). -/
def Obligations.HistoryHoldsLastSamples : Prop :=
  ∀ (s : State) (xs : List Word), s.cause = none → s.phase = .idle → (∀ x ∈ xs, -32768 ≤ s32 x ∧ s32 x ≤ 32767) →
    ∃ vs t, runOk (.p1rst :: xs.map (fun x => .p1push x)) s = some (vs, t) ∧
      t = { s with h1 := t.h1, h2 := t.h2, h3 := t.h3, hcnt := t.hcnt, resp := t.resp } ∧
      t.hcnt.toNat = min 3 xs.length ∧
      t.h1.toInt = ((xs.reverse.map s32)[0]?).getD 0 ∧
      t.h2.toInt = ((xs.reverse.map s32)[1]?).getD 0 ∧
      t.h3.toInt = ((xs.reverse.map s32)[2]?).getD 0

/-- P2PRED answers the spatial prediction at the current position from the neighbours left (`AREG`), top (`LINE[COL]`)
and top-left (`CREG`) (44_predictors.md R227, R237). -/
def Obligations.P2predAnswers : Prop :=
  ∀ (s : State) (a b c : Int), Ready s → inPhase2 s = true → a = s.areg.toNat →
    b = (s.line.read s.col.toNat).toNat → c = s.creg.toNat →
    (s.row = 0 → s.col = 0 → Answers .p2pred s 128 s) ∧
    (s.row = 0 → s.col ≠ 0 → Answers .p2pred s (BitVec.ofInt 32 a) s) ∧
    (s.row ≠ 0 → s.col = 0 → Answers .p2pred s (BitVec.ofInt 32 b) s) ∧
    (s.row ≠ 0 → s.col ≠ 0 →
      (s.pmode = 0 → Answers .p2pred s (BitVec.ofInt 32 a) s) ∧
      (s.pmode = 1 → Answers .p2pred s (BitVec.ofInt 32 b) s) ∧
      (s.pmode = 2 → Answers .p2pred s (BitVec.ofInt 32 ((a + b) / 2)) s) ∧
      (s.pmode = 3 → Answers .p2pred s (BitVec.ofInt 32 (a + b - c)) s) ∧
      (s.pmode = 4 → max a b ≤ c → Answers .p2pred s (BitVec.ofInt 32 (min a b)) s) ∧
      (s.pmode = 4 → c ≤ min a b → Answers .p2pred s (BitVec.ofInt 32 (max a b)) s) ∧
      (s.pmode = 4 → min a b < c → c < max a b → Answers .p2pred s (BitVec.ofInt 32 (a + b - c)) s))

/-- Recording the pixels of a plane in raster order keeps the predictor registers at the neighbours of the next pixel,
and reports the last one (44_predictors.md R230, R231; the invariant 10_state.md R45 infers). -/
def Obligations.PushTracksPlane : Prop :=
  ∀ (pix : Nat → Nat → Byte) (s : State), Tracks pix (p2reset s) ∧
    (s.line.wf = true → s.cols.toNat ≤ s.lineDepth → s.col.toNat < s.cols.toNat → s.row.toNat < s.rows.toNat →
      Tracks pix s → ∃ last t, p2push (pix s.row.toNat s.col.toNat) s = .ok last t ∧ Tracks pix t ∧
        t.row.toNat * s.cols.toNat + t.col.toNat = s.row.toNat * s.cols.toNat + s.col.toNat + 1 ∧
        t.col.toNat < t.cols.toNat ∧ (last = true ↔ t.row.toNat = s.rows.toNat))

/-! ### The 1-D codec -/

/-- BEGIN1A and BEGIN2A start an analysis pass, or refuse the configuration (45_codec1d.md R251, 46_codec2d.md R280,
R281). -/
def Obligations.BeginPasses : Prop :=
  ∀ s : State, s.cause = none → s.phase = .idle →
    (s.nch = 1 ∨ s.nch = 2 → Answers .begin1a s 0 { s with
      ch := 0, idx := 0, h1 := 0, h2 := 0, h3 := 0, hcnt := 0, phase := if s.nsamp = 0 then .idle else .s1anl }) ∧
    (¬ (s.nch = 1 ∨ s.nch = 2) → Raises .begin1a s .invalidArgument
      (if s.mode = .write ∧ s.nbits ≠ 0 ∧ sinkRoom s = true then s.out ++ [s.acc] else s.out)) ∧
    (s.rows ≠ 0 ∧ s.cols ≠ 0 ∧ s.cols.toNat ≤ s.lineDepth ∧ s.pmode.toNat ≤ 4 → ∃ line,
      Answers .begin2a s 0 { s with row := 0, col := 0, areg := 0, creg := 0, line := line, phase := .s2anl } ∧
      ∀ j, line.read j = 0) ∧
    (¬ (s.rows ≠ 0 ∧ s.cols ≠ 0 ∧ s.cols.toNat ≤ s.lineDepth ∧ s.pmode.toNat ≤ 4) →
      Raises .begin2a s .invalidArgument
        (if s.mode = .write ∧ s.nbits ≠ 0 ∧ sinkRoom s = true then s.out ++ [s.acc] else s.out))

/-- The prediction of the next 1-D sample: order 2, or combined with the reference for the right channel with the
inter-channel flag (45_codec1d.md R253). -/
def Obligations.PredictorSelection : Prop :=
  ∀ (s : State) (ref : Int),
    (s.ch = 0 → needref s = false ∧ p1sel ref s = pt 2 s) ∧
    (s.ch = 1 → s.flags.getLsbD 1 = false → needref s = false ∧ p1sel ref s = pt 2 s) ∧
    (s.ch = 1 → s.flags.getLsbD 1 = true → needref s = true ∧ p1sel ref s = pic ref s)

/-- RSD1 answers the residual of the sample, adds its magnitude to the window and advances, writing no bits; with a full
count it faults (45_codec1d.md R257). -/
def Obligations.Rsd1Answers : Prop :=
  ∀ (s : State) (opa opb : Word) (e : Int), Ready s → s.phase = .s1anl → isSample (s32 opa) = true →
    (needref s = true → isSample (s32 opb) = true) → e = s32 opa - p1sel (s32 opb) s →
    (s.cnt.toNat ≠ 4294967295 → ∃ r sum cnt, r.toInt = e ∧
      Answers (.rsd1 opa opb) s r (s1advance (s32 opa) { s with sum := sum, cnt := cnt }) ∧
      sum.toNat = s.sum.toNat + e.natAbs ∧ cnt.toNat = s.cnt.toNat + 1) ∧
    (s.cnt.toNat = 4294967295 → Raises (.rsd1 opa opb) s .rangeOverflow
      (if s.mode = .write ∧ s.nbits ≠ 0 ∧ sinkRoom s = true then s.out ++ [s.acc] else s.out))

/-- WRHDR1 appends the 1-D header, 113 or 114 bits, and starts the encoding phase with an empty history
(45_codec1d.md R258, 30_encoding.md R116). -/
def Obligations.Wrhdr1WritesHeader : Prop :=
  ∀ (s : State) (hdr : Bits), Ready s → s.mode = .write → s.phase = .idle → s.nch = 1 ∨ s.nch = 2 →
    hdr = bitsof s.srate.toNat 32 ++ bitsof s.nch.toNat 16 ++ bitsof s.bps.toNat 16 ++ bitsof s.nsamp.toNat 32 ++
      bitsof s.m.toNat 16 ++ [s.flags.getLsbD 0] ++ (if s.nch = 2 then [s.flags.getLsbD 1] else []) →
    hdr.length = (if s.nch = 2 then 114 else 113) ∧
    (sinkFits s hdr.length = true → ∃ t, Wrote hdr s t ∧ Answers .wrhdr1 s 0 { t with
      ch := 0, idx := 0, h1 := 0, h2 := 0, h3 := 0, hcnt := 0, phase := if s.nsamp = 0 then .idle else .s1enc })

/-- ENC1 answers the residual, appends its zigzag codeword and advances (45_codec1d.md R259). -/
def Obligations.Enc1WritesResidual : Prop :=
  ∀ (s : State) (opa opb : Word) (e : Int), Ready s → s.mode = .write → s.phase = .s1enc →
    isSample (s32 opa) = true → (needref s = true → isSample (s32 opb) = true) →
    e = s32 opa - p1sel (s32 opb) s → sinkFits s (cwZigzag s.m.toNat e).length = true →
    ∃ r t, r.toInt = e ∧ Wrote (cwZigzag s.m.toNat e) s t ∧
      Answers (.enc1 opa opb) s r (s1advance (s32 opa) t)

/-- RDHDR1 loads the configuration and the parameter from a 1-D header and starts the decoding phase; a header cut short
or with a bad field faults, in stream order (45_codec1d.md R260). -/
def Obligations.Rdhdr1LoadsHeader : Prop :=
  ∀ (s : State) (sr nc bp ns m : Nat) (ad ic : Bool) (rest : Bits), Ready s → s.mode = .read → s.phase = .idle →
    sr < 2 ^ 32 → nc < 2 ^ 16 → bp < 2 ^ 16 → ns < 2 ^ 32 → m < 2 ^ 16 →
    ((unread s).length < 113 → Raises .rdhdr1 s .unexpectedEof s.out) ∧
    (unread s = header1 sr nc bp ns m ad ic ++ rest →
      (nc = 1 ∨ nc = 2 → m ≠ 0 → ∃ t, Took (header1 sr nc bp ns m ad ic) s t ∧ unread t = rest ∧
        Answers .rdhdr1 s 0 { t with
          srate := BitVec.ofNat 32 sr, nch := BitVec.ofNat 16 nc, bps := BitVec.ofNat 16 bp,
          nsamp := BitVec.ofNat 32 ns, m := BitVec.ofNat 16 m, b := BitVec.ofNat 5 (clog2 m),
          cutoff := BitVec.ofNat 16 (2 ^ clog2 m - m),
          flags := BitVec.ofNat 2 ((if ad = true then 1 else 0) + (if nc = 2 ∧ ic = true then 2 else 0)),
          ch := 0, idx := 0, h1 := 0, h2 := 0, h3 := 0, hcnt := 0,
          phase := if ns = 0 then .idle else .s1dec }) ∧
      (¬ (nc = 1 ∨ nc = 2) ∨ m = 0 → Raises .rdhdr1 s .invalidArgument s.out)) ∧
    (nc = 2 → unread s ++ [ic] = header1 sr nc bp ns m ad ic → Raises .rdhdr1 s .unexpectedEof s.out)

/-- DEC1 answers the reconstructed sample, consumes the codeword of its residual and advances; a sum that is no sample,
or a value beyond 32 bits, is `RangeOverflow` (45_codec1d.md R261). -/
def Obligations.Dec1Reconstructs : Prop :=
  ∀ (s : State) (opa : Word) (v : Nat) (rest : Bits) (x : Int), Ready s → s.mode = .read → s.phase = .s1dec →
    (needref s = true → isSample (s32 opa) = true) → unread s = cw s.m.toNat v ++ rest →
    x = p1sel (s32 opa) s + unzz v →
    (v ≤ 4294967295 → isSample x = true → ∃ r t, r.toInt = x ∧ Took (cw s.m.toNat v) s t ∧ unread t = rest ∧
      Answers (.dec1 opa) s r (s1advance x t)) ∧
    (4294967295 < v ∨ isSample x = false → Raises (.dec1 opa) s .rangeOverflow s.out)

/-- How a coded sample advances the history and the place: within a channel, from the left channel to the right, and at
the end of the stream (45_codec1d.md R256); no register but these, the window and the channel's accumulator changes. -/
def Obligations.SampleAdvance : Prop :=
  ∀ (i : Instr) (s t : State) (x : Int), Ready s → exec i s = .next t → t.cause = none →
    (∃ a b, (i = .rsd1 a b ∨ i = .enc1 a b) ∧ x = s32 a) ∨
      (∃ a w, i = .dec1 a ∧ t.resp = some (.ok w) ∧ x = s32 w) →
    t = { s with h1 := t.h1, h2 := t.h2, h3 := t.h3, hcnt := t.hcnt, idx := t.idx, ch := t.ch, phase := t.phase,
                 sum := t.sum, cnt := t.cnt, acc := t.acc, nbits := t.nbits, out := t.out, rpos := t.rpos,
                 resp := t.resp } ∧
    (s.idx.toNat + 1 ≠ s.nsamp.toNat → t.h1.toInt = x ∧ t.h2 = s.h1 ∧ t.h3 = s.h2 ∧
      t.hcnt.toNat = min 3 (s.hcnt.toNat + 1) ∧ t.idx.toNat = s.idx.toNat + 1 ∧ t.ch = s.ch ∧ t.phase = s.phase) ∧
    (s.idx.toNat + 1 = s.nsamp.toNat → s.ch = 0 → s.nch = 2 →
      t.h1 = 0 ∧ t.h2 = 0 ∧ t.h3 = 0 ∧ t.hcnt = 0 ∧ t.idx = 0 ∧ t.ch = 1 ∧ t.phase = s.phase) ∧
    (s.idx.toNat + 1 = s.nsamp.toNat → ¬ (s.ch = 0 ∧ s.nch = 2) → t.h1.toInt = x ∧ t.h2 = s.h1 ∧ t.h3 = s.h2 ∧
      t.hcnt.toNat = min 3 (s.hcnt.toNat + 1) ∧ t.idx = 0 ∧ t.ch = 0 ∧ t.phase = .idle)

/-- The 1-D codec is lossless: what OPENW, WRHDR1, one ENC1 per sample and CLOSE put into the sink, OPENR, RDHDR1, one
DEC1 per sample and CLOSE give back; each right-channel command has the left sample for its reference
(the property 45_codec1d.md R264 infers of the sequences of R262 and R263). -/
def Obligations.Lossless1d : Prop :=
  ∀ (s t d : State) (left right : List Word) (vs : List Word), Ready s → Ready d → s.mode = .closed →
    d.mode = .closed → d.phase = .idle → d.env.openOk = true → d.env.data = t.out → left.length = s.nsamp.toNat →
    right.length = (if s.nch = 2 then left.length else 0) →
    runOk (.openw :: .wrhdr1 :: left.map (fun x => .enc1 x 0) ++ List.zipWith (fun x ref => .enc1 x ref) right left ++
      [.close]) s = some (vs, t) →
    ∃ u, runOk (.openr :: .rdhdr1 :: left.map (fun _ => .dec1 0) ++
      List.zipWith (fun _ ref => .dec1 ref) right left ++ [.close]) d =
        some ([0, 0] ++ left ++ right ++ [0], u)

/-! ### The 2-D codec -/

/-- RSD2 answers the residual of the pixel, adds its magnitude to the window and advances, writing no bits; with a full
count it faults (46_codec2d.md R287). -/
def Obligations.Rsd2Answers : Prop :=
  ∀ (s : State) (opa : Word) (e : Int), Ready s → s.phase = .s2anl → opa.toNat ≤ 255 →
    e = opa.toNat - predicted2 s →
    (s.cnt.toNat ≠ 4294967295 → ∃ r sum cnt t, r.toInt = e ∧
      s2advance (opa.setWidth 8) { s with sum := sum, cnt := cnt } = .ok () t ∧ Answers (.rsd2 opa) s r t ∧
      sum.toNat = s.sum.toNat + e.natAbs ∧ cnt.toNat = s.cnt.toNat + 1) ∧
    (s.cnt.toNat = 4294967295 → Raises (.rsd2 opa) s .rangeOverflow
      (if s.mode = .write ∧ s.nbits ≠ 0 ∧ sinkRoom s = true then s.out ++ [s.acc] else s.out))

/-- WRHDR2 appends the 2-D header, 88 bits, and starts the encoding phase with an empty line buffer
(46_codec2d.md R288, 30_encoding.md R117). -/
def Obligations.Wrhdr2WritesHeader : Prop :=
  ∀ (s : State) (hdr : Bits), Ready s → s.mode = .write → s.phase = .idle → s.rows ≠ 0 → s.cols ≠ 0 →
    s.cols.toNat ≤ s.lineDepth → s.pmode.toNat ≤ 4 →
    hdr = bitsof s.rows.toNat 32 ++ bitsof s.cols.toNat 32 ++ bitsof s.m.toNat 16 ++ bitsof s.pmode.toNat 8 →
    hdr.length = 88 ∧
    (sinkFits s hdr.length = true → ∃ t line, Wrote hdr s t ∧ (∀ j, line.read j = 0) ∧ Answers .wrhdr2 s 0 { t with
      row := 0, col := 0, areg := 0, creg := 0, line := line, phase := .s2enc })

/-- ENC2 answers the residual, appends its zigzag codeword and advances (46_codec2d.md R289). -/
def Obligations.Enc2WritesResidual : Prop :=
  ∀ (s : State) (opa : Word) (e : Int), Ready s → s.mode = .write → s.phase = .s2enc → opa.toNat ≤ 255 →
    e = opa.toNat - predicted2 s → sinkFits s (cwZigzag s.m.toNat e).length = true →
    ∃ r t u, r.toInt = e ∧ Wrote (cwZigzag s.m.toNat e) s t ∧ s2advance (opa.setWidth 8) t = .ok () u ∧
      Answers (.enc2 opa) s r u

/-- RDHDR2 loads the configuration and the parameter from a 2-D header and starts the decoding phase; a header cut short
or with a bad field faults (46_codec2d.md R290). -/
def Obligations.Rdhdr2LoadsHeader : Prop :=
  ∀ (s : State) (rw cl m pm : Nat) (rest : Bits), Ready s → s.mode = .read → s.phase = .idle →
    rw < 2 ^ 32 → cl < 2 ^ 32 → m < 2 ^ 16 → pm < 2 ^ 8 →
    ((unread s).length < 88 → Raises .rdhdr2 s .unexpectedEof s.out) ∧
    (unread s = header2 rw cl m pm ++ rest →
      (m ≠ 0 → rw ≠ 0 → cl ≠ 0 → cl ≤ s.lineDepth → pm ≤ 4 → ∃ t line, Took (header2 rw cl m pm) s t ∧
        unread t = rest ∧ (∀ j, line.read j = 0) ∧ Answers .rdhdr2 s 0 { t with
          rows := BitVec.ofNat 32 rw, cols := BitVec.ofNat 32 cl, pmode := BitVec.ofNat 8 pm,
          m := BitVec.ofNat 16 m, b := BitVec.ofNat 5 (clog2 m), cutoff := BitVec.ofNat 16 (2 ^ clog2 m - m),
          row := 0, col := 0, areg := 0, creg := 0, line := line, phase := .s2dec }) ∧
      (m = 0 ∨ rw = 0 ∨ cl = 0 ∨ s.lineDepth < cl ∨ 4 < pm → Raises .rdhdr2 s .invalidArgument s.out))

/-- DEC2 answers the reconstructed pixel clamped to `0 .. 255`, consumes the codeword of its residual and records the
clamped pixel; a value beyond 32 bits is `RangeOverflow` (46_codec2d.md R291). -/
def Obligations.Dec2Reconstructs : Prop :=
  ∀ (s : State) (v : Nat) (rest : Bits) (x : Int), Ready s → s.mode = .read → s.phase = .s2dec →
    unread s = cw s.m.toNat v ++ rest → x = max 0 (min 255 (predicted2 s + unzz v)) →
    (v ≤ 4294967295 → ∃ r t u, r.toInt = x ∧ Took (cw s.m.toNat v) s t ∧ unread t = rest ∧
      s2advance (r.setWidth 8) t = .ok () u ∧ Answers .dec2 s r u) ∧
    (4294967295 < v → Raises .dec2 s .rangeOverflow s.out)

/-- How a coded pixel advances the neighbours and the place: within a row, to the next row, and at the end of the plane
(44_predictors.md R231, 46_codec2d.md R283); no register but these, the window and the channel's accumulator changes. -/
def Obligations.PixelAdvance : Prop :=
  ∀ (i : Instr) (s t : State) (x : Byte), Ready s → exec i s = .next t → t.cause = none →
    (∃ a, (i = .rsd2 a ∨ i = .enc2 a) ∧ x = a.setWidth 8) ∨
      (∃ w, i = .dec2 ∧ t.resp = some (.ok w) ∧ x = w.setWidth 8) →
    t = { s with line := t.line, areg := t.areg, creg := t.creg, col := t.col, row := t.row, phase := t.phase,
                 sum := t.sum, cnt := t.cnt, acc := t.acc, nbits := t.nbits, out := t.out, rpos := t.rpos,
                 resp := t.resp } ∧
    (∀ j, t.line.read j = if j = s.col.toNat then x else s.line.read j) ∧
    (s.col.toNat + 1 ≠ s.cols.toNat → t.col.toNat = s.col.toNat + 1 ∧ t.row = s.row ∧ t.areg = x ∧
      t.creg = s.line.read s.col.toNat ∧ t.phase = s.phase) ∧
    (s.col.toNat + 1 = s.cols.toNat → t.col = 0 ∧ t.areg = 0 ∧ t.creg = 0) ∧
    (s.col.toNat + 1 = s.cols.toNat → s.row.toNat + 1 ≠ s.rows.toNat →
      t.row.toNat = s.row.toNat + 1 ∧ t.phase = s.phase) ∧
    (s.col.toNat + 1 = s.cols.toNat → s.row.toNat + 1 = s.rows.toNat → t.row = 0 ∧ t.phase = .idle)

/-- The 2-D codec is lossless: what OPENW, WRHDR2, one ENC2 per pixel in raster order and CLOSE put into the sink, OPENR,
RDHDR2, one DEC2 per pixel and CLOSE give back (the property 46_codec2d.md R294 infers of the sequences of R292 and
R293). -/
def Obligations.Lossless2d : Prop :=
  ∀ (s t d : State) (pixels : List Word) (vs : List Word), Ready s → Ready d → s.mode = .closed →
    d.mode = .closed → d.phase = .idle → d.env.openOk = true → d.env.data = t.out → s.cols.toNat ≤ d.lineDepth →
    pixels.length = s.rows.toNat * s.cols.toNat →
    runOk (.openw :: .wrhdr2 :: pixels.map (fun x => .enc2 x) ++ [.close]) s = some (vs, t) →
    ∃ u, runOk (.openr :: .rdhdr2 :: List.replicate pixels.length .dec2 ++ [.close]) d =
      some ([0, 0] ++ pixels ++ [0], u)

/-! ### The whole machine -/

/-- The sequencer's only transitions: from `IDLE` by the six phase-starting commands; back to `IDLE` at the last sample of
the last channel, at the last pixel, at CLOSE, at a fault and at reset; and inside a 1-D phase from channel 0 to channel 1
at the left channel's last sample (60_exceptions.md R333, 10_state.md R47, 45_codec1d.md R256). -/
def Obligations.PhaseTransitions : Prop :=
  ∀ (i : Instr) (s t : State), Inv s → exec i s = .next t →
    (t.phase ≠ s.phase →
      (s.phase = .idle ∧ ((i = .begin1a ∧ t.phase = .s1anl) ∨ (i = .wrhdr1 ∧ t.phase = .s1enc) ∨
        (i = .rdhdr1 ∧ t.phase = .s1dec) ∨ (i = .begin2a ∧ t.phase = .s2anl) ∨ (i = .wrhdr2 ∧ t.phase = .s2enc) ∨
        (i = .rdhdr2 ∧ t.phase = .s2dec))) ∨
      (t.phase = .idle ∧ (t.cause ≠ none ∨ i = .close ∨ i = .reset ∨
        ((((∃ a b, i = .rsd1 a b) ∧ s.phase = .s1anl) ∨ ((∃ a b, i = .enc1 a b) ∧ s.phase = .s1enc) ∨
            ((∃ a, i = .dec1 a) ∧ s.phase = .s1dec)) ∧
          s.idx.toNat + 1 = s.nsamp.toNat ∧ ¬ (s.ch = 0 ∧ s.nch = 2)) ∨
        ((((∃ a, i = .rsd2 a) ∧ s.phase = .s2anl) ∨ ((∃ a, i = .enc2 a) ∧ s.phase = .s2enc) ∨
            (i = .dec2 ∧ s.phase = .s2dec)) ∧
          s.row.toNat + 1 = s.rows.toNat ∧ s.col.toNat + 1 = s.cols.toNat)))) ∧
    (t.cause = none → s.ch = 0 → t.ch = 1 →
      (((∃ a b, i = .rsd1 a b) ∧ s.phase = .s1anl) ∨ ((∃ a b, i = .enc1 a b) ∧ s.phase = .s1enc) ∨
        ((∃ a, i = .dec1 a) ∧ s.phase = .s1dec)) ∧
      t.phase = s.phase ∧ s.idx.toNat + 1 = s.nsamp.toNat ∧ s.nch = 2)

/-- Only the commands the spec names write the coder parameter (10_state.md R28, R29), the estimator window (R38), the
sink, the source (R33, R34, 20_memory.md R70) and the line buffer (R70, 44_predictors.md R230, R231), as long as no fault
is taken. Of the window and of the line buffer 70_reset_and_hazards.md says the same in R353 and R375, which the spec marks
[derived]: no clause rests on those two. -/
def Obligations.RegisterWriters : Prop :=
  ∀ (i : Instr) (s t : State), exec i s = .next t → t.cause = none → i ≠ .reset →
    (¬ ((∃ a, i = .setm a) ∨ i = .rdhdr1 ∨ i = .rdhdr2) → t.m = s.m ∧ t.b = s.b ∧ t.cutoff = s.cutoff) ∧
    (¬ (i = .estclr ∨ (∃ a, i = .estacc a) ∨ (∃ a b, i = .rsd1 a b) ∨ (∃ a, i = .rsd2 a)) →
      t.sum = s.sum ∧ t.cnt = s.cnt) ∧
    (s.mode ≠ .write → i ≠ .openw → t.out = s.out) ∧
    (i ≠ .openw → s.out <+: t.out ∧ t.sinkCap = s.sinkCap) ∧
    (i ≠ .openr → t.inp = s.inp) ∧
    (¬ (i = .begin2a ∨ i = .wrhdr2 ∨ i = .rdhdr2 ∨ (∃ a, i = .rsd2 a) ∨ (∃ a, i = .enc2 a) ∨ i = .dec2) →
      t.line = s.line)
end

