-- ==== Sys2Proof/Laws/Bits.lean ====
section
/-! SUPPORT. Bit strings and numbers: `bitsof` and `valof` are inverse, fields concatenate, `clog2` is the least exponent,
and what setting or reading one bit of a byte does to its bit string. -/

namespace Sys2Proof.Machine

/-! ### Fields -/

@[simp] theorem bitsof_zero (v : Nat) : bitsof v 0 = [] := rfl

theorem bitsof_succ (v n : Nat) : bitsof v (n + 1) = v.testBit n :: bitsof v n := rfl

@[simp] theorem bitsof_length (v n : Nat) : (bitsof v n).length = n := by
  induction n with
  | zero => rfl
  | succ n ih => simp [bitsof_succ, ih]

@[simp] theorem valof_nil : valof [] = 0 := rfl

theorem foldl_bits (s : Bits) : ∀ v, s.foldl (fun v x => 2 * v + bitVal x) v = v * 2 ^ s.length + valof s := by
  induction s with
  | nil => simp [valof]
  | cons x s ih =>
    intro v
    simp only [List.foldl_cons, valof, List.length_cons]
    rw [ih, ih (2 * 0 + bitVal x)]
    ring

theorem valof_cons (x : Bool) (s : Bits) : valof (x :: s) = bitVal x * 2 ^ s.length + valof s := by
  rw [valof, List.foldl_cons, foldl_bits]; simp

theorem valof_append (a b : Bits) : valof (a ++ b) = valof a * 2 ^ b.length + valof b := by
  rw [valof, List.foldl_append, foldl_bits, ← valof]

theorem bitVal_lt (x : Bool) : bitVal x < 2 := by cases x <;> decide

theorem bitVal_testBit (v n : Nat) : bitVal (v.testBit n) = v / 2 ^ n % 2 := by
  have h : v / 2 ^ n % 2 = 0 ∨ v / 2 ^ n % 2 = 1 := by omega
  rcases h with h | h <;> simp [bitVal, Nat.testBit_eq_decide_div_mod_eq, h]

theorem valof_lt (s : Bits) : valof s < 2 ^ s.length := by
  induction s with
  | nil => simp
  | cons x s ih =>
    rw [valof_cons, List.length_cons, pow_succ]
    have hx := bitVal_lt x
    have : bitVal x * 2 ^ s.length ≤ 1 * 2 ^ s.length := Nat.mul_le_mul_right _ (by omega)
    omega

/-- A field of `n` bits spells its value. -/
theorem valof_bitsof (v n : Nat) : valof (bitsof v n) = v % 2 ^ n := by
  induction n with
  | zero => simp [Nat.mod_one]
  | succ n ih =>
    rw [bitsof_succ, valof_cons, ih, bitsof_length, bitVal_testBit, Nat.mod_pow_succ]
    ring

theorem testBit_add_mul (a r n i : Nat) (hr : r < 2 ^ n) (hi : i < n) : (a * 2 ^ n + r).testBit i = r.testBit i := by
  rw [Nat.mul_comm, Nat.testBit_two_pow_mul_add _ hr, if_pos hi]

theorem bitsof_add_mul (a r n : Nat) : ∀ m ≤ n, r < 2 ^ n → bitsof (a * 2 ^ n + r) m = bitsof r m
  | 0, _, _ => rfl
  | m + 1, h, hr => by
    rw [bitsof_succ, bitsof_succ, testBit_add_mul a r n m hr h, bitsof_add_mul a r n m (by omega) hr]

/-- A bit string is the field of its own value. -/
theorem bitsof_valof (s : Bits) : bitsof (valof s) s.length = s := by
  induction s with
  | nil => rfl
  | cons x s ih =>
    have hl := valof_lt s
    rw [List.length_cons, bitsof_succ, valof_cons, bitsof_add_mul _ _ _ _ le_rfl hl, ih]
    congr 1
    rw [Nat.mul_comm, Nat.testBit_two_pow_mul_add _ hl]
    cases x <;> simp [bitVal]

theorem valof_injective {a b : Bits} (hl : a.length = b.length) (h : valof a = valof b) : a = b := by
  rw [← bitsof_valof a, ← bitsof_valof b, hl, h]

/-- A field splits into its high part and its low part. -/
theorem bitsof_split (v a b : Nat) : bitsof v (a + b) = bitsof (v / 2 ^ b) a ++ bitsof v b := by
  apply valof_injective (by simp)
  rw [valof_append, valof_bitsof, valof_bitsof, valof_bitsof, bitsof_length, Nat.add_comm a b, Nat.pow_add,
    Nat.mod_mul]
  ring

theorem bitsof_one (x : Bool) : bitsof (bitVal x) 1 = [x] := by cases x <;> decide

theorem bitVal_eq_one {x : Bool} : bitVal x = 1 ↔ x = true := by cases x <;> decide

theorem bitVal_eq_zero {x : Bool} : bitVal x = 0 ↔ x = false := by cases x <;> decide

/-! ### Bytes -/

theorem byteBits_eq (y : Byte) : byteBits y =
    [y.getLsbD 7, y.getLsbD 6, y.getLsbD 5, y.getLsbD 4, y.getLsbD 3, y.getLsbD 2, y.getLsbD 1, y.getLsbD 0] := by
  simp only [byteBits, bitsof, BitVec.testBit_toNat]

@[simp] theorem byteBits_length (y : Byte) : (byteBits y).length = 8 := bitsof_length _ _

@[simp] theorem byteBits_zero : byteBits 0 = List.replicate 8 false := by decide

theorem byteBits_injective {a b : Byte} (h : byteBits a = byteBits b) : a = b := by
  have h' := congrArg valof h
  simp only [byteBits, valof_bitsof] at h'
  have ha := a.isLt
  have hb := b.isLt
  exact BitVec.eq_of_toNat_eq (by omega)

@[simp] theorem streamBits_nil : streamBits [] = [] := rfl

@[simp] theorem streamBits_cons (y : Byte) (ys : List Byte) : streamBits (y :: ys) = byteBits y ++ streamBits ys := rfl

@[simp] theorem streamBits_append (a b : List Byte) : streamBits (a ++ b) = streamBits a ++ streamBits b := by
  simp [streamBits]

@[simp] theorem streamBits_length (ys : List Byte) : (streamBits ys).length = 8 * ys.length := by
  induction ys with
  | nil => rfl
  | cons y ys ih => simp [ih]; omega

theorem getLsbD_setBit (b : Byte) (i : Nat) (x : Bool) (j : Nat) (hi : i < 8) :
    (setBit b i x).getLsbD j = if j = i then x else b.getLsbD j := by
  by_cases hj : j < 8
  · have hb : (1#8 <<< i).getLsbD j = decide (j = i) := by
      rw [BitVec.getLsbD_shiftLeft, BitVec.getLsbD_one]
      by_cases hlt : j < i
      · simp [hlt, Nat.ne_of_lt hlt]
      · have : (j - i = 0) = (j = i) := propext (by omega)
        simp only [hj, hlt, this, decide_true, decide_false, Bool.not_false, Bool.true_and]
        simp
    unfold setBit
    cases x
    · rw [if_neg Bool.false_ne_true, BitVec.getLsbD_and, BitVec.getLsbD_not, hb]
      by_cases h : j = i <;> simp [h, hj, hi]
    · rw [if_pos rfl, BitVec.getLsbD_or, hb]
      by_cases h : j = i <;> simp [h]
  · rw [if_neg (by omega), BitVec.getLsbD_of_ge _ _ (by omega), BitVec.getLsbD_of_ge _ _ (by omega)]

/-- Filling the next free bit of an accumulator with `n` pending bits. -/
theorem take_setBit (b : Byte) (n : Nat) (x : Bool) (hn : n ≤ 7) :
    (byteBits (setBit b (7 - n) x)).take (n + 1) = (byteBits b).take n ++ [x] := by
  simp only [byteBits_eq, getLsbD_setBit b (7 - n) x _ (by omega)]
  interval_cases n <;> simp

/-- The bits after the one just filled stay as they were. -/
theorem drop_setBit (b : Byte) (n : Nat) (x : Bool) (hn : n ≤ 7) :
    (byteBits (setBit b (7 - n) x)).drop (n + 1) = (byteBits b).drop (n + 1) := by
  simp only [byteBits_eq, getLsbD_setBit b (7 - n) x _ (by omega)]
  interval_cases n <;> simp

/-- The next unread bit of a loaded accumulator. -/
theorem drop_next (b : Byte) (n : Nat) (h1 : 1 ≤ n) (h8 : n ≤ 8) :
    (byteBits b).drop (8 - n) = b.getLsbD (n - 1) :: (byteBits b).drop (8 - (n - 1)) := by
  simp only [byteBits_eq]
  interval_cases n <;> simp

/-! ### clog2 -/

theorem clog2From_spec (m : Nat) : ∀ fuel start, m ≤ 2 ^ (start + fuel) → (∀ b < start, 2 ^ b < m) →
    m ≤ 2 ^ clog2From fuel start m ∧ ∀ b < clog2From fuel start m, 2 ^ b < m
  | 0, start, h, hb => by simpa [clog2From] using ⟨h, hb⟩
  | fuel + 1, start, h, hb => by
    simp only [clog2From]
    split
    · rename_i h'; exact ⟨h', hb⟩
    · rename_i h'
      refine clog2From_spec m fuel (start + 1) (by rwa [show start + 1 + fuel = start + (fuel + 1) by omega])
        fun b hlt => ?_
      rcases Nat.lt_succ_iff_lt_or_eq.1 hlt with h'' | h''
      · exact hb b h''
      · subst h''; omega

/-- `clog2 m` is the least `b` with `2^b >= m`. -/
theorem clog2_spec {m : Nat} (hm : m ≤ 2 ^ 32) : m ≤ 2 ^ clog2 m ∧ ∀ b < clog2 m, 2 ^ b < m :=
  clog2From_spec m 32 0 (by simpa using hm) (by simp)

theorem clog2_le {m k : Nat} (hm : m ≤ 2 ^ 32) (h : m ≤ 2 ^ k) : clog2 m ≤ k := by
  by_contra hlt
  exact absurd ((clog2_spec hm).2 k (by omega)) (by omega)

theorem clog2_one : clog2 1 = 0 := by decide

theorem clog2_pos {m : Nat} (h2 : 2 ≤ m) (hm : m ≤ 2 ^ 32) : 1 ≤ clog2 m := by
  by_contra h
  have := (clog2_spec hm).1
  rw [show clog2 m = 0 by omega] at this
  omega

/-- For `m >= 2` the cutoff is below half of `2^clog2 m`. -/
theorem cutoffOf_lt {m : Nat} (h2 : 2 ≤ m) (hm : m ≤ 2 ^ 32) : cutoffOf m < 2 ^ (clog2 m - 1) := by
  have hp := clog2_pos h2 hm
  have h := (clog2_spec hm).2 (clog2 m - 1) (by omega)
  have hpow : 2 ^ clog2 m = 2 * 2 ^ (clog2 m - 1) := by
    conv_lhs => rw [show clog2 m = clog2 m - 1 + 1 by omega, pow_succ]
    ring
  have := Nat.two_pow_pos (clog2 m - 1)
  unfold cutoffOf
  omega

theorem add_cutoffOf {m : Nat} (hm : m ≤ 2 ^ 32) : m + cutoffOf m = 2 ^ clog2 m := by
  have := (clog2_spec hm).1
  unfold cutoffOf
  omega

/-! ### Codewords -/

@[simp] theorem unary_length (q : Nat) : (unary q).length = q + 1 := by simp [unary]

/-- The length of a truncated-binary remainder. -/
theorem tb_length (m r : Nat) : (tb m r).length = if r < cutoffOf m then clog2 m - 1 else clog2 m := by
  unfold tb; split <;> simp

/-- The length of a codeword. -/
theorem cw_length (m v : Nat) : (cw m v).length =
    v / m + 1 + if v % m < cutoffOf m then clog2 m - 1 else clog2 m := by
  simp [cw, tb_length]

theorem unzz_zz (n : Int) : unzz (zz n) = n := by
  unfold zz unzz
  split
  · rw [if_pos (by omega)]; omega
  · rw [if_neg (by omega)]; omega

theorem zz_unzz (v : Nat) : zz (unzz v) = v := by
  unfold unzz zz
  split
  · rw [if_pos (by omega)]; omega
  · rw [if_neg (by omega)]; omega

theorem zz_lt {n : Int} (hlo : -2147483648 ≤ n) (hhi : n ≤ 2147483647) : zz n ≤ Config.valueMax := by
  unfold zz Config.valueMax
  split <;> omega

end Sys2Proof.Machine
end

