-- ==== Sys2Proof/Laws/State.lean ====
section
/-! SUPPORT. The fields of a state after each named update: one lemma per field per update, true by rfl. -/

namespace Sys2Proof.Machine

/-! ### respond -/

@[simp] theorem respond_cause (r : Response) (s : State) : (respond r s).cause = s.cause := rfl
@[simp] theorem respond_m (r : Response) (s : State) : (respond r s).m = s.m := rfl
@[simp] theorem respond_b (r : Response) (s : State) : (respond r s).b = s.b := rfl
@[simp] theorem respond_cutoff (r : Response) (s : State) : (respond r s).cutoff = s.cutoff := rfl
@[simp] theorem respond_mode (r : Response) (s : State) : (respond r s).mode = s.mode := rfl
@[simp] theorem respond_acc (r : Response) (s : State) : (respond r s).acc = s.acc := rfl
@[simp] theorem respond_nbits (r : Response) (s : State) : (respond r s).nbits = s.nbits := rfl
@[simp] theorem respond_out (r : Response) (s : State) : (respond r s).out = s.out := rfl
@[simp] theorem respond_sinkCap (r : Response) (s : State) : (respond r s).sinkCap = s.sinkCap := rfl
@[simp] theorem respond_inp (r : Response) (s : State) : (respond r s).inp = s.inp := rfl
@[simp] theorem respond_rpos (r : Response) (s : State) : (respond r s).rpos = s.rpos := rfl
@[simp] theorem respond_srate (r : Response) (s : State) : (respond r s).srate = s.srate := rfl
@[simp] theorem respond_nch (r : Response) (s : State) : (respond r s).nch = s.nch := rfl
@[simp] theorem respond_bps (r : Response) (s : State) : (respond r s).bps = s.bps := rfl
@[simp] theorem respond_nsamp (r : Response) (s : State) : (respond r s).nsamp = s.nsamp := rfl
@[simp] theorem respond_flags (r : Response) (s : State) : (respond r s).flags = s.flags := rfl
@[simp] theorem respond_rows (r : Response) (s : State) : (respond r s).rows = s.rows := rfl
@[simp] theorem respond_cols (r : Response) (s : State) : (respond r s).cols = s.cols := rfl
@[simp] theorem respond_pmode (r : Response) (s : State) : (respond r s).pmode = s.pmode := rfl
@[simp] theorem respond_sum (r : Response) (s : State) : (respond r s).sum = s.sum := rfl
@[simp] theorem respond_cnt (r : Response) (s : State) : (respond r s).cnt = s.cnt := rfl
@[simp] theorem respond_h1 (r : Response) (s : State) : (respond r s).h1 = s.h1 := rfl
@[simp] theorem respond_h2 (r : Response) (s : State) : (respond r s).h2 = s.h2 := rfl
@[simp] theorem respond_h3 (r : Response) (s : State) : (respond r s).h3 = s.h3 := rfl
@[simp] theorem respond_hcnt (r : Response) (s : State) : (respond r s).hcnt = s.hcnt := rfl
@[simp] theorem respond_areg (r : Response) (s : State) : (respond r s).areg = s.areg := rfl
@[simp] theorem respond_creg (r : Response) (s : State) : (respond r s).creg = s.creg := rfl
@[simp] theorem respond_line (r : Response) (s : State) : (respond r s).line = s.line := rfl
@[simp] theorem respond_phase (r : Response) (s : State) : (respond r s).phase = s.phase := rfl
@[simp] theorem respond_ch (r : Response) (s : State) : (respond r s).ch = s.ch := rfl
@[simp] theorem respond_idx (r : Response) (s : State) : (respond r s).idx = s.idx := rfl
@[simp] theorem respond_row (r : Response) (s : State) : (respond r s).row = s.row := rfl
@[simp] theorem respond_col (r : Response) (s : State) : (respond r s).col = s.col := rfl
@[simp] theorem respond_lineDepth (r : Response) (s : State) : (respond r s).lineDepth = s.lineDepth := rfl
@[simp] theorem respond_pending (r : Response) (s : State) : (respond r s).pending = s.pending := rfl
@[simp] theorem respond_env (r : Response) (s : State) : (respond r s).env = s.env := rfl
@[simp] theorem respond_resp (r : Response) (s : State) : (respond r s).resp = some r := rfl
@[simp] theorem respond_serial (r : Response) (s : State) : (respond r s).serial = s.serial := rfl

/-! ### setAcc -/

@[simp] theorem setAcc_cause (a : Byte) (n : Nat) (s : State) : (setAcc a n s).cause = s.cause := rfl
@[simp] theorem setAcc_m (a : Byte) (n : Nat) (s : State) : (setAcc a n s).m = s.m := rfl
@[simp] theorem setAcc_b (a : Byte) (n : Nat) (s : State) : (setAcc a n s).b = s.b := rfl
@[simp] theorem setAcc_cutoff (a : Byte) (n : Nat) (s : State) : (setAcc a n s).cutoff = s.cutoff := rfl
@[simp] theorem setAcc_mode (a : Byte) (n : Nat) (s : State) : (setAcc a n s).mode = s.mode := rfl
@[simp] theorem setAcc_acc (a : Byte) (n : Nat) (s : State) : (setAcc a n s).acc = a := rfl
@[simp] theorem setAcc_nbits (a : Byte) (n : Nat) (s : State) : (setAcc a n s).nbits = BitVec.ofNat 4 n := rfl
@[simp] theorem setAcc_out (a : Byte) (n : Nat) (s : State) : (setAcc a n s).out = s.out := rfl
@[simp] theorem setAcc_sinkCap (a : Byte) (n : Nat) (s : State) : (setAcc a n s).sinkCap = s.sinkCap := rfl
@[simp] theorem setAcc_inp (a : Byte) (n : Nat) (s : State) : (setAcc a n s).inp = s.inp := rfl
@[simp] theorem setAcc_rpos (a : Byte) (n : Nat) (s : State) : (setAcc a n s).rpos = s.rpos := rfl
@[simp] theorem setAcc_srate (a : Byte) (n : Nat) (s : State) : (setAcc a n s).srate = s.srate := rfl
@[simp] theorem setAcc_nch (a : Byte) (n : Nat) (s : State) : (setAcc a n s).nch = s.nch := rfl
@[simp] theorem setAcc_bps (a : Byte) (n : Nat) (s : State) : (setAcc a n s).bps = s.bps := rfl
@[simp] theorem setAcc_nsamp (a : Byte) (n : Nat) (s : State) : (setAcc a n s).nsamp = s.nsamp := rfl
@[simp] theorem setAcc_flags (a : Byte) (n : Nat) (s : State) : (setAcc a n s).flags = s.flags := rfl
@[simp] theorem setAcc_rows (a : Byte) (n : Nat) (s : State) : (setAcc a n s).rows = s.rows := rfl
@[simp] theorem setAcc_cols (a : Byte) (n : Nat) (s : State) : (setAcc a n s).cols = s.cols := rfl
@[simp] theorem setAcc_pmode (a : Byte) (n : Nat) (s : State) : (setAcc a n s).pmode = s.pmode := rfl
@[simp] theorem setAcc_sum (a : Byte) (n : Nat) (s : State) : (setAcc a n s).sum = s.sum := rfl
@[simp] theorem setAcc_cnt (a : Byte) (n : Nat) (s : State) : (setAcc a n s).cnt = s.cnt := rfl
@[simp] theorem setAcc_h1 (a : Byte) (n : Nat) (s : State) : (setAcc a n s).h1 = s.h1 := rfl
@[simp] theorem setAcc_h2 (a : Byte) (n : Nat) (s : State) : (setAcc a n s).h2 = s.h2 := rfl
@[simp] theorem setAcc_h3 (a : Byte) (n : Nat) (s : State) : (setAcc a n s).h3 = s.h3 := rfl
@[simp] theorem setAcc_hcnt (a : Byte) (n : Nat) (s : State) : (setAcc a n s).hcnt = s.hcnt := rfl
@[simp] theorem setAcc_areg (a : Byte) (n : Nat) (s : State) : (setAcc a n s).areg = s.areg := rfl
@[simp] theorem setAcc_creg (a : Byte) (n : Nat) (s : State) : (setAcc a n s).creg = s.creg := rfl
@[simp] theorem setAcc_line (a : Byte) (n : Nat) (s : State) : (setAcc a n s).line = s.line := rfl
@[simp] theorem setAcc_phase (a : Byte) (n : Nat) (s : State) : (setAcc a n s).phase = s.phase := rfl
@[simp] theorem setAcc_ch (a : Byte) (n : Nat) (s : State) : (setAcc a n s).ch = s.ch := rfl
@[simp] theorem setAcc_idx (a : Byte) (n : Nat) (s : State) : (setAcc a n s).idx = s.idx := rfl
@[simp] theorem setAcc_row (a : Byte) (n : Nat) (s : State) : (setAcc a n s).row = s.row := rfl
@[simp] theorem setAcc_col (a : Byte) (n : Nat) (s : State) : (setAcc a n s).col = s.col := rfl
@[simp] theorem setAcc_lineDepth (a : Byte) (n : Nat) (s : State) : (setAcc a n s).lineDepth = s.lineDepth := rfl
@[simp] theorem setAcc_pending (a : Byte) (n : Nat) (s : State) : (setAcc a n s).pending = s.pending := rfl
@[simp] theorem setAcc_env (a : Byte) (n : Nat) (s : State) : (setAcc a n s).env = s.env := rfl
@[simp] theorem setAcc_resp (a : Byte) (n : Nat) (s : State) : (setAcc a n s).resp = s.resp := rfl
@[simp] theorem setAcc_serial (a : Byte) (n : Nat) (s : State) : (setAcc a n s).serial = s.serial := rfl

/-! ### setParameter -/

@[simp] theorem setParameter_cause (m : Nat) (s : State) : (setParameter m s).cause = s.cause := rfl
@[simp] theorem setParameter_m (m : Nat) (s : State) : (setParameter m s).m = BitVec.ofNat 16 m := rfl
@[simp] theorem setParameter_b (m : Nat) (s : State) : (setParameter m s).b = BitVec.ofNat 5 (clog2 m) := rfl
@[simp] theorem setParameter_cutoff (m : Nat) (s : State) : (setParameter m s).cutoff = BitVec.ofNat 16 (2 ^ clog2 m - m) := rfl
@[simp] theorem setParameter_mode (m : Nat) (s : State) : (setParameter m s).mode = s.mode := rfl
@[simp] theorem setParameter_acc (m : Nat) (s : State) : (setParameter m s).acc = s.acc := rfl
@[simp] theorem setParameter_nbits (m : Nat) (s : State) : (setParameter m s).nbits = s.nbits := rfl
@[simp] theorem setParameter_out (m : Nat) (s : State) : (setParameter m s).out = s.out := rfl
@[simp] theorem setParameter_sinkCap (m : Nat) (s : State) : (setParameter m s).sinkCap = s.sinkCap := rfl
@[simp] theorem setParameter_inp (m : Nat) (s : State) : (setParameter m s).inp = s.inp := rfl
@[simp] theorem setParameter_rpos (m : Nat) (s : State) : (setParameter m s).rpos = s.rpos := rfl
@[simp] theorem setParameter_srate (m : Nat) (s : State) : (setParameter m s).srate = s.srate := rfl
@[simp] theorem setParameter_nch (m : Nat) (s : State) : (setParameter m s).nch = s.nch := rfl
@[simp] theorem setParameter_bps (m : Nat) (s : State) : (setParameter m s).bps = s.bps := rfl
@[simp] theorem setParameter_nsamp (m : Nat) (s : State) : (setParameter m s).nsamp = s.nsamp := rfl
@[simp] theorem setParameter_flags (m : Nat) (s : State) : (setParameter m s).flags = s.flags := rfl
@[simp] theorem setParameter_rows (m : Nat) (s : State) : (setParameter m s).rows = s.rows := rfl
@[simp] theorem setParameter_cols (m : Nat) (s : State) : (setParameter m s).cols = s.cols := rfl
@[simp] theorem setParameter_pmode (m : Nat) (s : State) : (setParameter m s).pmode = s.pmode := rfl
@[simp] theorem setParameter_sum (m : Nat) (s : State) : (setParameter m s).sum = s.sum := rfl
@[simp] theorem setParameter_cnt (m : Nat) (s : State) : (setParameter m s).cnt = s.cnt := rfl
@[simp] theorem setParameter_h1 (m : Nat) (s : State) : (setParameter m s).h1 = s.h1 := rfl
@[simp] theorem setParameter_h2 (m : Nat) (s : State) : (setParameter m s).h2 = s.h2 := rfl
@[simp] theorem setParameter_h3 (m : Nat) (s : State) : (setParameter m s).h3 = s.h3 := rfl
@[simp] theorem setParameter_hcnt (m : Nat) (s : State) : (setParameter m s).hcnt = s.hcnt := rfl
@[simp] theorem setParameter_areg (m : Nat) (s : State) : (setParameter m s).areg = s.areg := rfl
@[simp] theorem setParameter_creg (m : Nat) (s : State) : (setParameter m s).creg = s.creg := rfl
@[simp] theorem setParameter_line (m : Nat) (s : State) : (setParameter m s).line = s.line := rfl
@[simp] theorem setParameter_phase (m : Nat) (s : State) : (setParameter m s).phase = s.phase := rfl
@[simp] theorem setParameter_ch (m : Nat) (s : State) : (setParameter m s).ch = s.ch := rfl
@[simp] theorem setParameter_idx (m : Nat) (s : State) : (setParameter m s).idx = s.idx := rfl
@[simp] theorem setParameter_row (m : Nat) (s : State) : (setParameter m s).row = s.row := rfl
@[simp] theorem setParameter_col (m : Nat) (s : State) : (setParameter m s).col = s.col := rfl
@[simp] theorem setParameter_lineDepth (m : Nat) (s : State) : (setParameter m s).lineDepth = s.lineDepth := rfl
@[simp] theorem setParameter_pending (m : Nat) (s : State) : (setParameter m s).pending = s.pending := rfl
@[simp] theorem setParameter_env (m : Nat) (s : State) : (setParameter m s).env = s.env := rfl
@[simp] theorem setParameter_resp (m : Nat) (s : State) : (setParameter m s).resp = s.resp := rfl
@[simp] theorem setParameter_serial (m : Nat) (s : State) : (setParameter m s).serial = s.serial := rfl

/-! ### hreset -/

@[simp] theorem hreset_cause (s : State) : (hreset s).cause = s.cause := rfl
@[simp] theorem hreset_m (s : State) : (hreset s).m = s.m := rfl
@[simp] theorem hreset_b (s : State) : (hreset s).b = s.b := rfl
@[simp] theorem hreset_cutoff (s : State) : (hreset s).cutoff = s.cutoff := rfl
@[simp] theorem hreset_mode (s : State) : (hreset s).mode = s.mode := rfl
@[simp] theorem hreset_acc (s : State) : (hreset s).acc = s.acc := rfl
@[simp] theorem hreset_nbits (s : State) : (hreset s).nbits = s.nbits := rfl
@[simp] theorem hreset_out (s : State) : (hreset s).out = s.out := rfl
@[simp] theorem hreset_sinkCap (s : State) : (hreset s).sinkCap = s.sinkCap := rfl
@[simp] theorem hreset_inp (s : State) : (hreset s).inp = s.inp := rfl
@[simp] theorem hreset_rpos (s : State) : (hreset s).rpos = s.rpos := rfl
@[simp] theorem hreset_srate (s : State) : (hreset s).srate = s.srate := rfl
@[simp] theorem hreset_nch (s : State) : (hreset s).nch = s.nch := rfl
@[simp] theorem hreset_bps (s : State) : (hreset s).bps = s.bps := rfl
@[simp] theorem hreset_nsamp (s : State) : (hreset s).nsamp = s.nsamp := rfl
@[simp] theorem hreset_flags (s : State) : (hreset s).flags = s.flags := rfl
@[simp] theorem hreset_rows (s : State) : (hreset s).rows = s.rows := rfl
@[simp] theorem hreset_cols (s : State) : (hreset s).cols = s.cols := rfl
@[simp] theorem hreset_pmode (s : State) : (hreset s).pmode = s.pmode := rfl
@[simp] theorem hreset_sum (s : State) : (hreset s).sum = s.sum := rfl
@[simp] theorem hreset_cnt (s : State) : (hreset s).cnt = s.cnt := rfl
@[simp] theorem hreset_h1 (s : State) : (hreset s).h1 = 0 := rfl
@[simp] theorem hreset_h2 (s : State) : (hreset s).h2 = 0 := rfl
@[simp] theorem hreset_h3 (s : State) : (hreset s).h3 = 0 := rfl
@[simp] theorem hreset_hcnt (s : State) : (hreset s).hcnt = 0 := rfl
@[simp] theorem hreset_areg (s : State) : (hreset s).areg = s.areg := rfl
@[simp] theorem hreset_creg (s : State) : (hreset s).creg = s.creg := rfl
@[simp] theorem hreset_line (s : State) : (hreset s).line = s.line := rfl
@[simp] theorem hreset_phase (s : State) : (hreset s).phase = s.phase := rfl
@[simp] theorem hreset_ch (s : State) : (hreset s).ch = s.ch := rfl
@[simp] theorem hreset_idx (s : State) : (hreset s).idx = s.idx := rfl
@[simp] theorem hreset_row (s : State) : (hreset s).row = s.row := rfl
@[simp] theorem hreset_col (s : State) : (hreset s).col = s.col := rfl
@[simp] theorem hreset_lineDepth (s : State) : (hreset s).lineDepth = s.lineDepth := rfl
@[simp] theorem hreset_pending (s : State) : (hreset s).pending = s.pending := rfl
@[simp] theorem hreset_env (s : State) : (hreset s).env = s.env := rfl
@[simp] theorem hreset_resp (s : State) : (hreset s).resp = s.resp := rfl
@[simp] theorem hreset_serial (s : State) : (hreset s).serial = s.serial := rfl

/-! ### hpush -/

@[simp] theorem hpush_cause (x : Int) (s : State) : (hpush x s).cause = s.cause := rfl
@[simp] theorem hpush_m (x : Int) (s : State) : (hpush x s).m = s.m := rfl
@[simp] theorem hpush_b (x : Int) (s : State) : (hpush x s).b = s.b := rfl
@[simp] theorem hpush_cutoff (x : Int) (s : State) : (hpush x s).cutoff = s.cutoff := rfl
@[simp] theorem hpush_mode (x : Int) (s : State) : (hpush x s).mode = s.mode := rfl
@[simp] theorem hpush_acc (x : Int) (s : State) : (hpush x s).acc = s.acc := rfl
@[simp] theorem hpush_nbits (x : Int) (s : State) : (hpush x s).nbits = s.nbits := rfl
@[simp] theorem hpush_out (x : Int) (s : State) : (hpush x s).out = s.out := rfl
@[simp] theorem hpush_sinkCap (x : Int) (s : State) : (hpush x s).sinkCap = s.sinkCap := rfl
@[simp] theorem hpush_inp (x : Int) (s : State) : (hpush x s).inp = s.inp := rfl
@[simp] theorem hpush_rpos (x : Int) (s : State) : (hpush x s).rpos = s.rpos := rfl
@[simp] theorem hpush_srate (x : Int) (s : State) : (hpush x s).srate = s.srate := rfl
@[simp] theorem hpush_nch (x : Int) (s : State) : (hpush x s).nch = s.nch := rfl
@[simp] theorem hpush_bps (x : Int) (s : State) : (hpush x s).bps = s.bps := rfl
@[simp] theorem hpush_nsamp (x : Int) (s : State) : (hpush x s).nsamp = s.nsamp := rfl
@[simp] theorem hpush_flags (x : Int) (s : State) : (hpush x s).flags = s.flags := rfl
@[simp] theorem hpush_rows (x : Int) (s : State) : (hpush x s).rows = s.rows := rfl
@[simp] theorem hpush_cols (x : Int) (s : State) : (hpush x s).cols = s.cols := rfl
@[simp] theorem hpush_pmode (x : Int) (s : State) : (hpush x s).pmode = s.pmode := rfl
@[simp] theorem hpush_sum (x : Int) (s : State) : (hpush x s).sum = s.sum := rfl
@[simp] theorem hpush_cnt (x : Int) (s : State) : (hpush x s).cnt = s.cnt := rfl
@[simp] theorem hpush_h1 (x : Int) (s : State) : (hpush x s).h1 = BitVec.ofInt 16 x := rfl
@[simp] theorem hpush_h2 (x : Int) (s : State) : (hpush x s).h2 = s.h1 := rfl
@[simp] theorem hpush_h3 (x : Int) (s : State) : (hpush x s).h3 = s.h2 := rfl
@[simp] theorem hpush_hcnt (x : Int) (s : State) : (hpush x s).hcnt = BitVec.ofNat 2 (min 3 (s.hcnt.toNat + 1)) := rfl
@[simp] theorem hpush_areg (x : Int) (s : State) : (hpush x s).areg = s.areg := rfl
@[simp] theorem hpush_creg (x : Int) (s : State) : (hpush x s).creg = s.creg := rfl
@[simp] theorem hpush_line (x : Int) (s : State) : (hpush x s).line = s.line := rfl
@[simp] theorem hpush_phase (x : Int) (s : State) : (hpush x s).phase = s.phase := rfl
@[simp] theorem hpush_ch (x : Int) (s : State) : (hpush x s).ch = s.ch := rfl
@[simp] theorem hpush_idx (x : Int) (s : State) : (hpush x s).idx = s.idx := rfl
@[simp] theorem hpush_row (x : Int) (s : State) : (hpush x s).row = s.row := rfl
@[simp] theorem hpush_col (x : Int) (s : State) : (hpush x s).col = s.col := rfl
@[simp] theorem hpush_lineDepth (x : Int) (s : State) : (hpush x s).lineDepth = s.lineDepth := rfl
@[simp] theorem hpush_pending (x : Int) (s : State) : (hpush x s).pending = s.pending := rfl
@[simp] theorem hpush_env (x : Int) (s : State) : (hpush x s).env = s.env := rfl
@[simp] theorem hpush_resp (x : Int) (s : State) : (hpush x s).resp = s.resp := rfl
@[simp] theorem hpush_serial (x : Int) (s : State) : (hpush x s).serial = s.serial := rfl

/-! ### p2reset -/

@[simp] theorem p2reset_cause (s : State) : (p2reset s).cause = s.cause := rfl
@[simp] theorem p2reset_m (s : State) : (p2reset s).m = s.m := rfl
@[simp] theorem p2reset_b (s : State) : (p2reset s).b = s.b := rfl
@[simp] theorem p2reset_cutoff (s : State) : (p2reset s).cutoff = s.cutoff := rfl
@[simp] theorem p2reset_mode (s : State) : (p2reset s).mode = s.mode := rfl
@[simp] theorem p2reset_acc (s : State) : (p2reset s).acc = s.acc := rfl
@[simp] theorem p2reset_nbits (s : State) : (p2reset s).nbits = s.nbits := rfl
@[simp] theorem p2reset_out (s : State) : (p2reset s).out = s.out := rfl
@[simp] theorem p2reset_sinkCap (s : State) : (p2reset s).sinkCap = s.sinkCap := rfl
@[simp] theorem p2reset_inp (s : State) : (p2reset s).inp = s.inp := rfl
@[simp] theorem p2reset_rpos (s : State) : (p2reset s).rpos = s.rpos := rfl
@[simp] theorem p2reset_srate (s : State) : (p2reset s).srate = s.srate := rfl
@[simp] theorem p2reset_nch (s : State) : (p2reset s).nch = s.nch := rfl
@[simp] theorem p2reset_bps (s : State) : (p2reset s).bps = s.bps := rfl
@[simp] theorem p2reset_nsamp (s : State) : (p2reset s).nsamp = s.nsamp := rfl
@[simp] theorem p2reset_flags (s : State) : (p2reset s).flags = s.flags := rfl
@[simp] theorem p2reset_rows (s : State) : (p2reset s).rows = s.rows := rfl
@[simp] theorem p2reset_cols (s : State) : (p2reset s).cols = s.cols := rfl
@[simp] theorem p2reset_pmode (s : State) : (p2reset s).pmode = s.pmode := rfl
@[simp] theorem p2reset_sum (s : State) : (p2reset s).sum = s.sum := rfl
@[simp] theorem p2reset_cnt (s : State) : (p2reset s).cnt = s.cnt := rfl
@[simp] theorem p2reset_h1 (s : State) : (p2reset s).h1 = s.h1 := rfl
@[simp] theorem p2reset_h2 (s : State) : (p2reset s).h2 = s.h2 := rfl
@[simp] theorem p2reset_h3 (s : State) : (p2reset s).h3 = s.h3 := rfl
@[simp] theorem p2reset_hcnt (s : State) : (p2reset s).hcnt = s.hcnt := rfl
@[simp] theorem p2reset_areg (s : State) : (p2reset s).areg = 0 := rfl
@[simp] theorem p2reset_creg (s : State) : (p2reset s).creg = 0 := rfl
@[simp] theorem p2reset_line (s : State) : (p2reset s).line = [] := rfl
@[simp] theorem p2reset_phase (s : State) : (p2reset s).phase = s.phase := rfl
@[simp] theorem p2reset_ch (s : State) : (p2reset s).ch = s.ch := rfl
@[simp] theorem p2reset_idx (s : State) : (p2reset s).idx = s.idx := rfl
@[simp] theorem p2reset_row (s : State) : (p2reset s).row = 0 := rfl
@[simp] theorem p2reset_col (s : State) : (p2reset s).col = 0 := rfl
@[simp] theorem p2reset_lineDepth (s : State) : (p2reset s).lineDepth = s.lineDepth := rfl
@[simp] theorem p2reset_pending (s : State) : (p2reset s).pending = s.pending := rfl
@[simp] theorem p2reset_env (s : State) : (p2reset s).env = s.env := rfl
@[simp] theorem p2reset_resp (s : State) : (p2reset s).resp = s.resp := rfl
@[simp] theorem p2reset_serial (s : State) : (p2reset s).serial = s.serial := rfl

/-! ### s1init -/

@[simp] theorem s1init_cause (s : State) : (s1init s).cause = s.cause := rfl
@[simp] theorem s1init_m (s : State) : (s1init s).m = s.m := rfl
@[simp] theorem s1init_b (s : State) : (s1init s).b = s.b := rfl
@[simp] theorem s1init_cutoff (s : State) : (s1init s).cutoff = s.cutoff := rfl
@[simp] theorem s1init_mode (s : State) : (s1init s).mode = s.mode := rfl
@[simp] theorem s1init_acc (s : State) : (s1init s).acc = s.acc := rfl
@[simp] theorem s1init_nbits (s : State) : (s1init s).nbits = s.nbits := rfl
@[simp] theorem s1init_out (s : State) : (s1init s).out = s.out := rfl
@[simp] theorem s1init_sinkCap (s : State) : (s1init s).sinkCap = s.sinkCap := rfl
@[simp] theorem s1init_inp (s : State) : (s1init s).inp = s.inp := rfl
@[simp] theorem s1init_rpos (s : State) : (s1init s).rpos = s.rpos := rfl
@[simp] theorem s1init_srate (s : State) : (s1init s).srate = s.srate := rfl
@[simp] theorem s1init_nch (s : State) : (s1init s).nch = s.nch := rfl
@[simp] theorem s1init_bps (s : State) : (s1init s).bps = s.bps := rfl
@[simp] theorem s1init_nsamp (s : State) : (s1init s).nsamp = s.nsamp := rfl
@[simp] theorem s1init_flags (s : State) : (s1init s).flags = s.flags := rfl
@[simp] theorem s1init_rows (s : State) : (s1init s).rows = s.rows := rfl
@[simp] theorem s1init_cols (s : State) : (s1init s).cols = s.cols := rfl
@[simp] theorem s1init_pmode (s : State) : (s1init s).pmode = s.pmode := rfl
@[simp] theorem s1init_sum (s : State) : (s1init s).sum = s.sum := rfl
@[simp] theorem s1init_cnt (s : State) : (s1init s).cnt = s.cnt := rfl
@[simp] theorem s1init_h1 (s : State) : (s1init s).h1 = 0 := rfl
@[simp] theorem s1init_h2 (s : State) : (s1init s).h2 = 0 := rfl
@[simp] theorem s1init_h3 (s : State) : (s1init s).h3 = 0 := rfl
@[simp] theorem s1init_hcnt (s : State) : (s1init s).hcnt = 0 := rfl
@[simp] theorem s1init_areg (s : State) : (s1init s).areg = s.areg := rfl
@[simp] theorem s1init_creg (s : State) : (s1init s).creg = s.creg := rfl
@[simp] theorem s1init_line (s : State) : (s1init s).line = s.line := rfl
@[simp] theorem s1init_phase (s : State) : (s1init s).phase = s.phase := rfl
@[simp] theorem s1init_ch (s : State) : (s1init s).ch = 0 := rfl
@[simp] theorem s1init_idx (s : State) : (s1init s).idx = 0 := rfl
@[simp] theorem s1init_row (s : State) : (s1init s).row = s.row := rfl
@[simp] theorem s1init_col (s : State) : (s1init s).col = s.col := rfl
@[simp] theorem s1init_lineDepth (s : State) : (s1init s).lineDepth = s.lineDepth := rfl
@[simp] theorem s1init_pending (s : State) : (s1init s).pending = s.pending := rfl
@[simp] theorem s1init_env (s : State) : (s1init s).env = s.env := rfl
@[simp] theorem s1init_resp (s : State) : (s1init s).resp = s.resp := rfl
@[simp] theorem s1init_serial (s : State) : (s1init s).serial = s.serial := rfl

/-! ### startPhase1 -/

@[simp] theorem startPhase1_cause (p : Phase) (s : State) : (startPhase1 p s).cause = s.cause := rfl
@[simp] theorem startPhase1_m (p : Phase) (s : State) : (startPhase1 p s).m = s.m := rfl
@[simp] theorem startPhase1_b (p : Phase) (s : State) : (startPhase1 p s).b = s.b := rfl
@[simp] theorem startPhase1_cutoff (p : Phase) (s : State) : (startPhase1 p s).cutoff = s.cutoff := rfl
@[simp] theorem startPhase1_mode (p : Phase) (s : State) : (startPhase1 p s).mode = s.mode := rfl
@[simp] theorem startPhase1_acc (p : Phase) (s : State) : (startPhase1 p s).acc = s.acc := rfl
@[simp] theorem startPhase1_nbits (p : Phase) (s : State) : (startPhase1 p s).nbits = s.nbits := rfl
@[simp] theorem startPhase1_out (p : Phase) (s : State) : (startPhase1 p s).out = s.out := rfl
@[simp] theorem startPhase1_sinkCap (p : Phase) (s : State) : (startPhase1 p s).sinkCap = s.sinkCap := rfl
@[simp] theorem startPhase1_inp (p : Phase) (s : State) : (startPhase1 p s).inp = s.inp := rfl
@[simp] theorem startPhase1_rpos (p : Phase) (s : State) : (startPhase1 p s).rpos = s.rpos := rfl
@[simp] theorem startPhase1_srate (p : Phase) (s : State) : (startPhase1 p s).srate = s.srate := rfl
@[simp] theorem startPhase1_nch (p : Phase) (s : State) : (startPhase1 p s).nch = s.nch := rfl
@[simp] theorem startPhase1_bps (p : Phase) (s : State) : (startPhase1 p s).bps = s.bps := rfl
@[simp] theorem startPhase1_nsamp (p : Phase) (s : State) : (startPhase1 p s).nsamp = s.nsamp := rfl
@[simp] theorem startPhase1_flags (p : Phase) (s : State) : (startPhase1 p s).flags = s.flags := rfl
@[simp] theorem startPhase1_rows (p : Phase) (s : State) : (startPhase1 p s).rows = s.rows := rfl
@[simp] theorem startPhase1_cols (p : Phase) (s : State) : (startPhase1 p s).cols = s.cols := rfl
@[simp] theorem startPhase1_pmode (p : Phase) (s : State) : (startPhase1 p s).pmode = s.pmode := rfl
@[simp] theorem startPhase1_sum (p : Phase) (s : State) : (startPhase1 p s).sum = s.sum := rfl
@[simp] theorem startPhase1_cnt (p : Phase) (s : State) : (startPhase1 p s).cnt = s.cnt := rfl
@[simp] theorem startPhase1_h1 (p : Phase) (s : State) : (startPhase1 p s).h1 = 0 := rfl
@[simp] theorem startPhase1_h2 (p : Phase) (s : State) : (startPhase1 p s).h2 = 0 := rfl
@[simp] theorem startPhase1_h3 (p : Phase) (s : State) : (startPhase1 p s).h3 = 0 := rfl
@[simp] theorem startPhase1_hcnt (p : Phase) (s : State) : (startPhase1 p s).hcnt = 0 := rfl
@[simp] theorem startPhase1_areg (p : Phase) (s : State) : (startPhase1 p s).areg = s.areg := rfl
@[simp] theorem startPhase1_creg (p : Phase) (s : State) : (startPhase1 p s).creg = s.creg := rfl
@[simp] theorem startPhase1_line (p : Phase) (s : State) : (startPhase1 p s).line = s.line := rfl
@[simp] theorem startPhase1_phase (p : Phase) (s : State) : (startPhase1 p s).phase = if s.nsamp = 0 then .idle else p := rfl
@[simp] theorem startPhase1_ch (p : Phase) (s : State) : (startPhase1 p s).ch = 0 := rfl
@[simp] theorem startPhase1_idx (p : Phase) (s : State) : (startPhase1 p s).idx = 0 := rfl
@[simp] theorem startPhase1_row (p : Phase) (s : State) : (startPhase1 p s).row = s.row := rfl
@[simp] theorem startPhase1_col (p : Phase) (s : State) : (startPhase1 p s).col = s.col := rfl
@[simp] theorem startPhase1_lineDepth (p : Phase) (s : State) : (startPhase1 p s).lineDepth = s.lineDepth := rfl
@[simp] theorem startPhase1_pending (p : Phase) (s : State) : (startPhase1 p s).pending = s.pending := rfl
@[simp] theorem startPhase1_env (p : Phase) (s : State) : (startPhase1 p s).env = s.env := rfl
@[simp] theorem startPhase1_resp (p : Phase) (s : State) : (startPhase1 p s).resp = s.resp := rfl
@[simp] theorem startPhase1_serial (p : Phase) (s : State) : (startPhase1 p s).serial = s.serial := rfl

/-! ### startPhase2 -/

@[simp] theorem startPhase2_cause (p : Phase) (s : State) : (startPhase2 p s).cause = s.cause := rfl
@[simp] theorem startPhase2_m (p : Phase) (s : State) : (startPhase2 p s).m = s.m := rfl
@[simp] theorem startPhase2_b (p : Phase) (s : State) : (startPhase2 p s).b = s.b := rfl
@[simp] theorem startPhase2_cutoff (p : Phase) (s : State) : (startPhase2 p s).cutoff = s.cutoff := rfl
@[simp] theorem startPhase2_mode (p : Phase) (s : State) : (startPhase2 p s).mode = s.mode := rfl
@[simp] theorem startPhase2_acc (p : Phase) (s : State) : (startPhase2 p s).acc = s.acc := rfl
@[simp] theorem startPhase2_nbits (p : Phase) (s : State) : (startPhase2 p s).nbits = s.nbits := rfl
@[simp] theorem startPhase2_out (p : Phase) (s : State) : (startPhase2 p s).out = s.out := rfl
@[simp] theorem startPhase2_sinkCap (p : Phase) (s : State) : (startPhase2 p s).sinkCap = s.sinkCap := rfl
@[simp] theorem startPhase2_inp (p : Phase) (s : State) : (startPhase2 p s).inp = s.inp := rfl
@[simp] theorem startPhase2_rpos (p : Phase) (s : State) : (startPhase2 p s).rpos = s.rpos := rfl
@[simp] theorem startPhase2_srate (p : Phase) (s : State) : (startPhase2 p s).srate = s.srate := rfl
@[simp] theorem startPhase2_nch (p : Phase) (s : State) : (startPhase2 p s).nch = s.nch := rfl
@[simp] theorem startPhase2_bps (p : Phase) (s : State) : (startPhase2 p s).bps = s.bps := rfl
@[simp] theorem startPhase2_nsamp (p : Phase) (s : State) : (startPhase2 p s).nsamp = s.nsamp := rfl
@[simp] theorem startPhase2_flags (p : Phase) (s : State) : (startPhase2 p s).flags = s.flags := rfl
@[simp] theorem startPhase2_rows (p : Phase) (s : State) : (startPhase2 p s).rows = s.rows := rfl
@[simp] theorem startPhase2_cols (p : Phase) (s : State) : (startPhase2 p s).cols = s.cols := rfl
@[simp] theorem startPhase2_pmode (p : Phase) (s : State) : (startPhase2 p s).pmode = s.pmode := rfl
@[simp] theorem startPhase2_sum (p : Phase) (s : State) : (startPhase2 p s).sum = s.sum := rfl
@[simp] theorem startPhase2_cnt (p : Phase) (s : State) : (startPhase2 p s).cnt = s.cnt := rfl
@[simp] theorem startPhase2_h1 (p : Phase) (s : State) : (startPhase2 p s).h1 = s.h1 := rfl
@[simp] theorem startPhase2_h2 (p : Phase) (s : State) : (startPhase2 p s).h2 = s.h2 := rfl
@[simp] theorem startPhase2_h3 (p : Phase) (s : State) : (startPhase2 p s).h3 = s.h3 := rfl
@[simp] theorem startPhase2_hcnt (p : Phase) (s : State) : (startPhase2 p s).hcnt = s.hcnt := rfl
@[simp] theorem startPhase2_areg (p : Phase) (s : State) : (startPhase2 p s).areg = 0 := rfl
@[simp] theorem startPhase2_creg (p : Phase) (s : State) : (startPhase2 p s).creg = 0 := rfl
@[simp] theorem startPhase2_line (p : Phase) (s : State) : (startPhase2 p s).line = [] := rfl
@[simp] theorem startPhase2_phase (p : Phase) (s : State) : (startPhase2 p s).phase = p := rfl
@[simp] theorem startPhase2_ch (p : Phase) (s : State) : (startPhase2 p s).ch = s.ch := rfl
@[simp] theorem startPhase2_idx (p : Phase) (s : State) : (startPhase2 p s).idx = s.idx := rfl
@[simp] theorem startPhase2_row (p : Phase) (s : State) : (startPhase2 p s).row = 0 := rfl
@[simp] theorem startPhase2_col (p : Phase) (s : State) : (startPhase2 p s).col = 0 := rfl
@[simp] theorem startPhase2_lineDepth (p : Phase) (s : State) : (startPhase2 p s).lineDepth = s.lineDepth := rfl
@[simp] theorem startPhase2_pending (p : Phase) (s : State) : (startPhase2 p s).pending = s.pending := rfl
@[simp] theorem startPhase2_env (p : Phase) (s : State) : (startPhase2 p s).env = s.env := rfl
@[simp] theorem startPhase2_resp (p : Phase) (s : State) : (startPhase2 p s).resp = s.resp := rfl
@[simp] theorem startPhase2_serial (p : Phase) (s : State) : (startPhase2 p s).serial = s.serial := rfl

/-! ### openWriter -/

@[simp] theorem openWriter_cause (s : State) : (openWriter s).cause = s.cause := rfl
@[simp] theorem openWriter_m (s : State) : (openWriter s).m = s.m := rfl
@[simp] theorem openWriter_b (s : State) : (openWriter s).b = s.b := rfl
@[simp] theorem openWriter_cutoff (s : State) : (openWriter s).cutoff = s.cutoff := rfl
@[simp] theorem openWriter_mode (s : State) : (openWriter s).mode = .write := rfl
@[simp] theorem openWriter_acc (s : State) : (openWriter s).acc = 0 := rfl
@[simp] theorem openWriter_nbits (s : State) : (openWriter s).nbits = 0 := rfl
@[simp] theorem openWriter_out (s : State) : (openWriter s).out = [] := rfl
@[simp] theorem openWriter_sinkCap (s : State) : (openWriter s).sinkCap = s.env.cap := rfl
@[simp] theorem openWriter_inp (s : State) : (openWriter s).inp = s.inp := rfl
@[simp] theorem openWriter_rpos (s : State) : (openWriter s).rpos = s.rpos := rfl
@[simp] theorem openWriter_srate (s : State) : (openWriter s).srate = s.srate := rfl
@[simp] theorem openWriter_nch (s : State) : (openWriter s).nch = s.nch := rfl
@[simp] theorem openWriter_bps (s : State) : (openWriter s).bps = s.bps := rfl
@[simp] theorem openWriter_nsamp (s : State) : (openWriter s).nsamp = s.nsamp := rfl
@[simp] theorem openWriter_flags (s : State) : (openWriter s).flags = s.flags := rfl
@[simp] theorem openWriter_rows (s : State) : (openWriter s).rows = s.rows := rfl
@[simp] theorem openWriter_cols (s : State) : (openWriter s).cols = s.cols := rfl
@[simp] theorem openWriter_pmode (s : State) : (openWriter s).pmode = s.pmode := rfl
@[simp] theorem openWriter_sum (s : State) : (openWriter s).sum = s.sum := rfl
@[simp] theorem openWriter_cnt (s : State) : (openWriter s).cnt = s.cnt := rfl
@[simp] theorem openWriter_h1 (s : State) : (openWriter s).h1 = s.h1 := rfl
@[simp] theorem openWriter_h2 (s : State) : (openWriter s).h2 = s.h2 := rfl
@[simp] theorem openWriter_h3 (s : State) : (openWriter s).h3 = s.h3 := rfl
@[simp] theorem openWriter_hcnt (s : State) : (openWriter s).hcnt = s.hcnt := rfl
@[simp] theorem openWriter_areg (s : State) : (openWriter s).areg = s.areg := rfl
@[simp] theorem openWriter_creg (s : State) : (openWriter s).creg = s.creg := rfl
@[simp] theorem openWriter_line (s : State) : (openWriter s).line = s.line := rfl
@[simp] theorem openWriter_phase (s : State) : (openWriter s).phase = s.phase := rfl
@[simp] theorem openWriter_ch (s : State) : (openWriter s).ch = s.ch := rfl
@[simp] theorem openWriter_idx (s : State) : (openWriter s).idx = s.idx := rfl
@[simp] theorem openWriter_row (s : State) : (openWriter s).row = s.row := rfl
@[simp] theorem openWriter_col (s : State) : (openWriter s).col = s.col := rfl
@[simp] theorem openWriter_lineDepth (s : State) : (openWriter s).lineDepth = s.lineDepth := rfl
@[simp] theorem openWriter_pending (s : State) : (openWriter s).pending = s.pending := rfl
@[simp] theorem openWriter_env (s : State) : (openWriter s).env = s.env := rfl
@[simp] theorem openWriter_resp (s : State) : (openWriter s).resp = s.resp := rfl
@[simp] theorem openWriter_serial (s : State) : (openWriter s).serial = s.serial := rfl

/-! ### openReader -/

@[simp] theorem openReader_cause (s : State) : (openReader s).cause = s.cause := rfl
@[simp] theorem openReader_m (s : State) : (openReader s).m = s.m := rfl
@[simp] theorem openReader_b (s : State) : (openReader s).b = s.b := rfl
@[simp] theorem openReader_cutoff (s : State) : (openReader s).cutoff = s.cutoff := rfl
@[simp] theorem openReader_mode (s : State) : (openReader s).mode = .read := rfl
@[simp] theorem openReader_acc (s : State) : (openReader s).acc = 0 := rfl
@[simp] theorem openReader_nbits (s : State) : (openReader s).nbits = 0 := rfl
@[simp] theorem openReader_out (s : State) : (openReader s).out = s.out := rfl
@[simp] theorem openReader_sinkCap (s : State) : (openReader s).sinkCap = s.sinkCap := rfl
@[simp] theorem openReader_inp (s : State) : (openReader s).inp = s.env.data := rfl
@[simp] theorem openReader_rpos (s : State) : (openReader s).rpos = 0 := rfl
@[simp] theorem openReader_srate (s : State) : (openReader s).srate = s.srate := rfl
@[simp] theorem openReader_nch (s : State) : (openReader s).nch = s.nch := rfl
@[simp] theorem openReader_bps (s : State) : (openReader s).bps = s.bps := rfl
@[simp] theorem openReader_nsamp (s : State) : (openReader s).nsamp = s.nsamp := rfl
@[simp] theorem openReader_flags (s : State) : (openReader s).flags = s.flags := rfl
@[simp] theorem openReader_rows (s : State) : (openReader s).rows = s.rows := rfl
@[simp] theorem openReader_cols (s : State) : (openReader s).cols = s.cols := rfl
@[simp] theorem openReader_pmode (s : State) : (openReader s).pmode = s.pmode := rfl
@[simp] theorem openReader_sum (s : State) : (openReader s).sum = s.sum := rfl
@[simp] theorem openReader_cnt (s : State) : (openReader s).cnt = s.cnt := rfl
@[simp] theorem openReader_h1 (s : State) : (openReader s).h1 = s.h1 := rfl
@[simp] theorem openReader_h2 (s : State) : (openReader s).h2 = s.h2 := rfl
@[simp] theorem openReader_h3 (s : State) : (openReader s).h3 = s.h3 := rfl
@[simp] theorem openReader_hcnt (s : State) : (openReader s).hcnt = s.hcnt := rfl
@[simp] theorem openReader_areg (s : State) : (openReader s).areg = s.areg := rfl
@[simp] theorem openReader_creg (s : State) : (openReader s).creg = s.creg := rfl
@[simp] theorem openReader_line (s : State) : (openReader s).line = s.line := rfl
@[simp] theorem openReader_phase (s : State) : (openReader s).phase = s.phase := rfl
@[simp] theorem openReader_ch (s : State) : (openReader s).ch = s.ch := rfl
@[simp] theorem openReader_idx (s : State) : (openReader s).idx = s.idx := rfl
@[simp] theorem openReader_row (s : State) : (openReader s).row = s.row := rfl
@[simp] theorem openReader_col (s : State) : (openReader s).col = s.col := rfl
@[simp] theorem openReader_lineDepth (s : State) : (openReader s).lineDepth = s.lineDepth := rfl
@[simp] theorem openReader_pending (s : State) : (openReader s).pending = s.pending := rfl
@[simp] theorem openReader_env (s : State) : (openReader s).env = s.env := rfl
@[simp] theorem openReader_resp (s : State) : (openReader s).resp = s.resp := rfl
@[simp] theorem openReader_serial (s : State) : (openReader s).serial = s.serial := rfl

/-! ### closeChannel -/

@[simp] theorem closeChannel_cause (s : State) : (closeChannel s).cause = s.cause := rfl
@[simp] theorem closeChannel_m (s : State) : (closeChannel s).m = s.m := rfl
@[simp] theorem closeChannel_b (s : State) : (closeChannel s).b = s.b := rfl
@[simp] theorem closeChannel_cutoff (s : State) : (closeChannel s).cutoff = s.cutoff := rfl
@[simp] theorem closeChannel_mode (s : State) : (closeChannel s).mode = .closed := rfl
@[simp] theorem closeChannel_acc (s : State) : (closeChannel s).acc = 0 := rfl
@[simp] theorem closeChannel_nbits (s : State) : (closeChannel s).nbits = 0 := rfl
@[simp] theorem closeChannel_out (s : State) : (closeChannel s).out = s.out := rfl
@[simp] theorem closeChannel_sinkCap (s : State) : (closeChannel s).sinkCap = s.sinkCap := rfl
@[simp] theorem closeChannel_inp (s : State) : (closeChannel s).inp = s.inp := rfl
@[simp] theorem closeChannel_rpos (s : State) : (closeChannel s).rpos = s.rpos := rfl
@[simp] theorem closeChannel_srate (s : State) : (closeChannel s).srate = s.srate := rfl
@[simp] theorem closeChannel_nch (s : State) : (closeChannel s).nch = s.nch := rfl
@[simp] theorem closeChannel_bps (s : State) : (closeChannel s).bps = s.bps := rfl
@[simp] theorem closeChannel_nsamp (s : State) : (closeChannel s).nsamp = s.nsamp := rfl
@[simp] theorem closeChannel_flags (s : State) : (closeChannel s).flags = s.flags := rfl
@[simp] theorem closeChannel_rows (s : State) : (closeChannel s).rows = s.rows := rfl
@[simp] theorem closeChannel_cols (s : State) : (closeChannel s).cols = s.cols := rfl
@[simp] theorem closeChannel_pmode (s : State) : (closeChannel s).pmode = s.pmode := rfl
@[simp] theorem closeChannel_sum (s : State) : (closeChannel s).sum = s.sum := rfl
@[simp] theorem closeChannel_cnt (s : State) : (closeChannel s).cnt = s.cnt := rfl
@[simp] theorem closeChannel_h1 (s : State) : (closeChannel s).h1 = s.h1 := rfl
@[simp] theorem closeChannel_h2 (s : State) : (closeChannel s).h2 = s.h2 := rfl
@[simp] theorem closeChannel_h3 (s : State) : (closeChannel s).h3 = s.h3 := rfl
@[simp] theorem closeChannel_hcnt (s : State) : (closeChannel s).hcnt = s.hcnt := rfl
@[simp] theorem closeChannel_areg (s : State) : (closeChannel s).areg = s.areg := rfl
@[simp] theorem closeChannel_creg (s : State) : (closeChannel s).creg = s.creg := rfl
@[simp] theorem closeChannel_line (s : State) : (closeChannel s).line = s.line := rfl
@[simp] theorem closeChannel_phase (s : State) : (closeChannel s).phase = .idle := rfl
@[simp] theorem closeChannel_ch (s : State) : (closeChannel s).ch = 0 := rfl
@[simp] theorem closeChannel_idx (s : State) : (closeChannel s).idx = 0 := rfl
@[simp] theorem closeChannel_row (s : State) : (closeChannel s).row = 0 := rfl
@[simp] theorem closeChannel_col (s : State) : (closeChannel s).col = 0 := rfl
@[simp] theorem closeChannel_lineDepth (s : State) : (closeChannel s).lineDepth = s.lineDepth := rfl
@[simp] theorem closeChannel_pending (s : State) : (closeChannel s).pending = s.pending := rfl
@[simp] theorem closeChannel_env (s : State) : (closeChannel s).env = s.env := rfl
@[simp] theorem closeChannel_resp (s : State) : (closeChannel s).resp = s.resp := rfl
@[simp] theorem closeChannel_serial (s : State) : (closeChannel s).serial = s.serial := rfl

/-! ### accept -/

@[simp] theorem accept_cause (t : Txn) (rest : List HostEvent) (s : State) : (accept t rest s).cause = s.cause := rfl
@[simp] theorem accept_m (t : Txn) (rest : List HostEvent) (s : State) : (accept t rest s).m = s.m := rfl
@[simp] theorem accept_b (t : Txn) (rest : List HostEvent) (s : State) : (accept t rest s).b = s.b := rfl
@[simp] theorem accept_cutoff (t : Txn) (rest : List HostEvent) (s : State) : (accept t rest s).cutoff = s.cutoff := rfl
@[simp] theorem accept_mode (t : Txn) (rest : List HostEvent) (s : State) : (accept t rest s).mode = s.mode := rfl
@[simp] theorem accept_acc (t : Txn) (rest : List HostEvent) (s : State) : (accept t rest s).acc = s.acc := rfl
@[simp] theorem accept_nbits (t : Txn) (rest : List HostEvent) (s : State) : (accept t rest s).nbits = s.nbits := rfl
@[simp] theorem accept_out (t : Txn) (rest : List HostEvent) (s : State) : (accept t rest s).out = s.out := rfl
@[simp] theorem accept_sinkCap (t : Txn) (rest : List HostEvent) (s : State) : (accept t rest s).sinkCap = s.sinkCap := rfl
@[simp] theorem accept_inp (t : Txn) (rest : List HostEvent) (s : State) : (accept t rest s).inp = s.inp := rfl
@[simp] theorem accept_rpos (t : Txn) (rest : List HostEvent) (s : State) : (accept t rest s).rpos = s.rpos := rfl
@[simp] theorem accept_srate (t : Txn) (rest : List HostEvent) (s : State) : (accept t rest s).srate = s.srate := rfl
@[simp] theorem accept_nch (t : Txn) (rest : List HostEvent) (s : State) : (accept t rest s).nch = s.nch := rfl
@[simp] theorem accept_bps (t : Txn) (rest : List HostEvent) (s : State) : (accept t rest s).bps = s.bps := rfl
@[simp] theorem accept_nsamp (t : Txn) (rest : List HostEvent) (s : State) : (accept t rest s).nsamp = s.nsamp := rfl
@[simp] theorem accept_flags (t : Txn) (rest : List HostEvent) (s : State) : (accept t rest s).flags = s.flags := rfl
@[simp] theorem accept_rows (t : Txn) (rest : List HostEvent) (s : State) : (accept t rest s).rows = s.rows := rfl
@[simp] theorem accept_cols (t : Txn) (rest : List HostEvent) (s : State) : (accept t rest s).cols = s.cols := rfl
@[simp] theorem accept_pmode (t : Txn) (rest : List HostEvent) (s : State) : (accept t rest s).pmode = s.pmode := rfl
@[simp] theorem accept_sum (t : Txn) (rest : List HostEvent) (s : State) : (accept t rest s).sum = s.sum := rfl
@[simp] theorem accept_cnt (t : Txn) (rest : List HostEvent) (s : State) : (accept t rest s).cnt = s.cnt := rfl
@[simp] theorem accept_h1 (t : Txn) (rest : List HostEvent) (s : State) : (accept t rest s).h1 = s.h1 := rfl
@[simp] theorem accept_h2 (t : Txn) (rest : List HostEvent) (s : State) : (accept t rest s).h2 = s.h2 := rfl
@[simp] theorem accept_h3 (t : Txn) (rest : List HostEvent) (s : State) : (accept t rest s).h3 = s.h3 := rfl
@[simp] theorem accept_hcnt (t : Txn) (rest : List HostEvent) (s : State) : (accept t rest s).hcnt = s.hcnt := rfl
@[simp] theorem accept_areg (t : Txn) (rest : List HostEvent) (s : State) : (accept t rest s).areg = s.areg := rfl
@[simp] theorem accept_creg (t : Txn) (rest : List HostEvent) (s : State) : (accept t rest s).creg = s.creg := rfl
@[simp] theorem accept_line (t : Txn) (rest : List HostEvent) (s : State) : (accept t rest s).line = s.line := rfl
@[simp] theorem accept_phase (t : Txn) (rest : List HostEvent) (s : State) : (accept t rest s).phase = s.phase := rfl
@[simp] theorem accept_ch (t : Txn) (rest : List HostEvent) (s : State) : (accept t rest s).ch = s.ch := rfl
@[simp] theorem accept_idx (t : Txn) (rest : List HostEvent) (s : State) : (accept t rest s).idx = s.idx := rfl
@[simp] theorem accept_row (t : Txn) (rest : List HostEvent) (s : State) : (accept t rest s).row = s.row := rfl
@[simp] theorem accept_col (t : Txn) (rest : List HostEvent) (s : State) : (accept t rest s).col = s.col := rfl
@[simp] theorem accept_lineDepth (t : Txn) (rest : List HostEvent) (s : State) : (accept t rest s).lineDepth = s.lineDepth := rfl
@[simp] theorem accept_pending (t : Txn) (rest : List HostEvent) (s : State) : (accept t rest s).pending = rest := rfl
@[simp] theorem accept_env (t : Txn) (rest : List HostEvent) (s : State) : (accept t rest s).env = t.env := rfl
@[simp] theorem accept_resp (t : Txn) (rest : List HostEvent) (s : State) : (accept t rest s).resp = s.resp := rfl
@[simp] theorem accept_serial (t : Txn) (rest : List HostEvent) (s : State) : (accept t rest s).serial = s.serial := rfl

/-! ### loadHeader1 -/

@[simp] theorem loadHeader1_cause (h : Header1) (s : State) : (loadHeader1 h s).cause = s.cause := rfl
@[simp] theorem loadHeader1_m (h : Header1) (s : State) : (loadHeader1 h s).m = BitVec.ofNat 16 h.m := rfl
@[simp] theorem loadHeader1_b (h : Header1) (s : State) : (loadHeader1 h s).b = BitVec.ofNat 5 (clog2 h.m) := rfl
@[simp] theorem loadHeader1_cutoff (h : Header1) (s : State) : (loadHeader1 h s).cutoff = BitVec.ofNat 16 (2 ^ clog2 h.m - h.m) := rfl
@[simp] theorem loadHeader1_mode (h : Header1) (s : State) : (loadHeader1 h s).mode = s.mode := rfl
@[simp] theorem loadHeader1_acc (h : Header1) (s : State) : (loadHeader1 h s).acc = s.acc := rfl
@[simp] theorem loadHeader1_nbits (h : Header1) (s : State) : (loadHeader1 h s).nbits = s.nbits := rfl
@[simp] theorem loadHeader1_out (h : Header1) (s : State) : (loadHeader1 h s).out = s.out := rfl
@[simp] theorem loadHeader1_sinkCap (h : Header1) (s : State) : (loadHeader1 h s).sinkCap = s.sinkCap := rfl
@[simp] theorem loadHeader1_inp (h : Header1) (s : State) : (loadHeader1 h s).inp = s.inp := rfl
@[simp] theorem loadHeader1_rpos (h : Header1) (s : State) : (loadHeader1 h s).rpos = s.rpos := rfl
@[simp] theorem loadHeader1_srate (h : Header1) (s : State) : (loadHeader1 h s).srate = BitVec.ofNat 32 h.srate := rfl
@[simp] theorem loadHeader1_nch (h : Header1) (s : State) : (loadHeader1 h s).nch = BitVec.ofNat 16 h.nch := rfl
@[simp] theorem loadHeader1_bps (h : Header1) (s : State) : (loadHeader1 h s).bps = BitVec.ofNat 16 h.bps := rfl
@[simp] theorem loadHeader1_nsamp (h : Header1) (s : State) : (loadHeader1 h s).nsamp = BitVec.ofNat 32 h.nsamp := rfl
@[simp] theorem loadHeader1_flags (h : Header1) (s : State) : (loadHeader1 h s).flags = BitVec.ofNat 2 (h.adapt + 2 * h.icp) := rfl
@[simp] theorem loadHeader1_rows (h : Header1) (s : State) : (loadHeader1 h s).rows = s.rows := rfl
@[simp] theorem loadHeader1_cols (h : Header1) (s : State) : (loadHeader1 h s).cols = s.cols := rfl
@[simp] theorem loadHeader1_pmode (h : Header1) (s : State) : (loadHeader1 h s).pmode = s.pmode := rfl
@[simp] theorem loadHeader1_sum (h : Header1) (s : State) : (loadHeader1 h s).sum = s.sum := rfl
@[simp] theorem loadHeader1_cnt (h : Header1) (s : State) : (loadHeader1 h s).cnt = s.cnt := rfl
@[simp] theorem loadHeader1_h1 (h : Header1) (s : State) : (loadHeader1 h s).h1 = s.h1 := rfl
@[simp] theorem loadHeader1_h2 (h : Header1) (s : State) : (loadHeader1 h s).h2 = s.h2 := rfl
@[simp] theorem loadHeader1_h3 (h : Header1) (s : State) : (loadHeader1 h s).h3 = s.h3 := rfl
@[simp] theorem loadHeader1_hcnt (h : Header1) (s : State) : (loadHeader1 h s).hcnt = s.hcnt := rfl
@[simp] theorem loadHeader1_areg (h : Header1) (s : State) : (loadHeader1 h s).areg = s.areg := rfl
@[simp] theorem loadHeader1_creg (h : Header1) (s : State) : (loadHeader1 h s).creg = s.creg := rfl
@[simp] theorem loadHeader1_line (h : Header1) (s : State) : (loadHeader1 h s).line = s.line := rfl
@[simp] theorem loadHeader1_phase (h : Header1) (s : State) : (loadHeader1 h s).phase = s.phase := rfl
@[simp] theorem loadHeader1_ch (h : Header1) (s : State) : (loadHeader1 h s).ch = s.ch := rfl
@[simp] theorem loadHeader1_idx (h : Header1) (s : State) : (loadHeader1 h s).idx = s.idx := rfl
@[simp] theorem loadHeader1_row (h : Header1) (s : State) : (loadHeader1 h s).row = s.row := rfl
@[simp] theorem loadHeader1_col (h : Header1) (s : State) : (loadHeader1 h s).col = s.col := rfl
@[simp] theorem loadHeader1_lineDepth (h : Header1) (s : State) : (loadHeader1 h s).lineDepth = s.lineDepth := rfl
@[simp] theorem loadHeader1_pending (h : Header1) (s : State) : (loadHeader1 h s).pending = s.pending := rfl
@[simp] theorem loadHeader1_env (h : Header1) (s : State) : (loadHeader1 h s).env = s.env := rfl
@[simp] theorem loadHeader1_resp (h : Header1) (s : State) : (loadHeader1 h s).resp = s.resp := rfl
@[simp] theorem loadHeader1_serial (h : Header1) (s : State) : (loadHeader1 h s).serial = s.serial := rfl

/-! ### loadHeader2 -/

@[simp] theorem loadHeader2_cause (h : Header2) (s : State) : (loadHeader2 h s).cause = s.cause := rfl
@[simp] theorem loadHeader2_m (h : Header2) (s : State) : (loadHeader2 h s).m = BitVec.ofNat 16 h.m := rfl
@[simp] theorem loadHeader2_b (h : Header2) (s : State) : (loadHeader2 h s).b = BitVec.ofNat 5 (clog2 h.m) := rfl
@[simp] theorem loadHeader2_cutoff (h : Header2) (s : State) : (loadHeader2 h s).cutoff = BitVec.ofNat 16 (2 ^ clog2 h.m - h.m) := rfl
@[simp] theorem loadHeader2_mode (h : Header2) (s : State) : (loadHeader2 h s).mode = s.mode := rfl
@[simp] theorem loadHeader2_acc (h : Header2) (s : State) : (loadHeader2 h s).acc = s.acc := rfl
@[simp] theorem loadHeader2_nbits (h : Header2) (s : State) : (loadHeader2 h s).nbits = s.nbits := rfl
@[simp] theorem loadHeader2_out (h : Header2) (s : State) : (loadHeader2 h s).out = s.out := rfl
@[simp] theorem loadHeader2_sinkCap (h : Header2) (s : State) : (loadHeader2 h s).sinkCap = s.sinkCap := rfl
@[simp] theorem loadHeader2_inp (h : Header2) (s : State) : (loadHeader2 h s).inp = s.inp := rfl
@[simp] theorem loadHeader2_rpos (h : Header2) (s : State) : (loadHeader2 h s).rpos = s.rpos := rfl
@[simp] theorem loadHeader2_srate (h : Header2) (s : State) : (loadHeader2 h s).srate = s.srate := rfl
@[simp] theorem loadHeader2_nch (h : Header2) (s : State) : (loadHeader2 h s).nch = s.nch := rfl
@[simp] theorem loadHeader2_bps (h : Header2) (s : State) : (loadHeader2 h s).bps = s.bps := rfl
@[simp] theorem loadHeader2_nsamp (h : Header2) (s : State) : (loadHeader2 h s).nsamp = s.nsamp := rfl
@[simp] theorem loadHeader2_flags (h : Header2) (s : State) : (loadHeader2 h s).flags = s.flags := rfl
@[simp] theorem loadHeader2_rows (h : Header2) (s : State) : (loadHeader2 h s).rows = BitVec.ofNat 32 h.rows := rfl
@[simp] theorem loadHeader2_cols (h : Header2) (s : State) : (loadHeader2 h s).cols = BitVec.ofNat 32 h.cols := rfl
@[simp] theorem loadHeader2_pmode (h : Header2) (s : State) : (loadHeader2 h s).pmode = BitVec.ofNat 8 h.pmode := rfl
@[simp] theorem loadHeader2_sum (h : Header2) (s : State) : (loadHeader2 h s).sum = s.sum := rfl
@[simp] theorem loadHeader2_cnt (h : Header2) (s : State) : (loadHeader2 h s).cnt = s.cnt := rfl
@[simp] theorem loadHeader2_h1 (h : Header2) (s : State) : (loadHeader2 h s).h1 = s.h1 := rfl
@[simp] theorem loadHeader2_h2 (h : Header2) (s : State) : (loadHeader2 h s).h2 = s.h2 := rfl
@[simp] theorem loadHeader2_h3 (h : Header2) (s : State) : (loadHeader2 h s).h3 = s.h3 := rfl
@[simp] theorem loadHeader2_hcnt (h : Header2) (s : State) : (loadHeader2 h s).hcnt = s.hcnt := rfl
@[simp] theorem loadHeader2_areg (h : Header2) (s : State) : (loadHeader2 h s).areg = s.areg := rfl
@[simp] theorem loadHeader2_creg (h : Header2) (s : State) : (loadHeader2 h s).creg = s.creg := rfl
@[simp] theorem loadHeader2_line (h : Header2) (s : State) : (loadHeader2 h s).line = s.line := rfl
@[simp] theorem loadHeader2_phase (h : Header2) (s : State) : (loadHeader2 h s).phase = s.phase := rfl
@[simp] theorem loadHeader2_ch (h : Header2) (s : State) : (loadHeader2 h s).ch = s.ch := rfl
@[simp] theorem loadHeader2_idx (h : Header2) (s : State) : (loadHeader2 h s).idx = s.idx := rfl
@[simp] theorem loadHeader2_row (h : Header2) (s : State) : (loadHeader2 h s).row = s.row := rfl
@[simp] theorem loadHeader2_col (h : Header2) (s : State) : (loadHeader2 h s).col = s.col := rfl
@[simp] theorem loadHeader2_lineDepth (h : Header2) (s : State) : (loadHeader2 h s).lineDepth = s.lineDepth := rfl
@[simp] theorem loadHeader2_pending (h : Header2) (s : State) : (loadHeader2 h s).pending = s.pending := rfl
@[simp] theorem loadHeader2_env (h : Header2) (s : State) : (loadHeader2 h s).env = s.env := rfl
@[simp] theorem loadHeader2_resp (h : Header2) (s : State) : (loadHeader2 h s).resp = s.resp := rfl
@[simp] theorem loadHeader2_serial (h : Header2) (s : State) : (loadHeader2 h s).serial = s.serial := rfl

/-! ### takeFault: what the fault entry defines, and the model's own fields -/

@[simp] theorem takeFault_cause (c : Cause) (s : State) : (takeFault c s).cause = some c := rfl
@[simp] theorem takeFault_mode (c : Cause) (s : State) : (takeFault c s).mode = .closed := rfl
@[simp] theorem takeFault_phase (c : Cause) (s : State) : (takeFault c s).phase = .idle := rfl
@[simp] theorem takeFault_resp (c : Cause) (s : State) : (takeFault c s).resp = some (.fault c) := rfl
@[simp] theorem takeFault_out (c : Cause) (s : State) : (takeFault c s).out = flushed c s := rfl
@[simp] theorem takeFault_line (c : Cause) (s : State) : (takeFault c s).line = Memory.ofWrites s.lineDepth (Config.unspecifiedLine s.serial) := rfl
@[simp] theorem takeFault_serial (c : Cause) (s : State) : (takeFault c s).serial = s.serial + 1 := rfl
@[simp] theorem takeFault_lineDepth (c : Cause) (s : State) : (takeFault c s).lineDepth = s.lineDepth := rfl
@[simp] theorem takeFault_pending (c : Cause) (s : State) : (takeFault c s).pending = s.pending := rfl
@[simp] theorem takeFault_env (c : Cause) (s : State) : (takeFault c s).env = s.env := rfl

/-! ### resetState: the model's own fields -/

@[simp] theorem resetState_lineDepth (s : State) : (resetState s).lineDepth = s.lineDepth := rfl
@[simp] theorem resetState_pending (s : State) : (resetState s).pending = s.pending := rfl
@[simp] theorem resetState_env (s : State) : (resetState s).env = s.env := rfl
@[simp] theorem resetState_resp (s : State) : (resetState s).resp = s.resp := rfl
@[simp] theorem resetState_serial (s : State) : (resetState s).serial = s.serial := rfl

end Sys2Proof.Machine
end

