-- ==== Sys2Proof/Laws/Memory.lean ====
section
/-! SUPPORT. The line buffer's cells: read after write, the canonical form is kept by every operation, and canonical
memories with equal reads are equal. -/

namespace Sys2Proof.Machine

@[simp] theorem Memory.read_nil (a : Nat) : Memory.read [] a = Memory.unlisted := rfl

theorem Memory.unlisted_eq : Memory.unlisted = 0 := rfl

theorem Memory.read_cons (k : Nat) (v : Byte) (rest : Memory) (a : Nat) :
    Memory.read ((k, v) :: rest) a = if a = k then v else Memory.read rest a := rfl

theorem Memory.wfFrom_cons (low k : Nat) (v : Byte) (rest : Memory) :
    Memory.wfFrom low ((k, v) :: rest) = true ↔ low ≤ k ∧ v ≠ Memory.unlisted ∧ Memory.wfFrom (k + 1) rest = true := by
  simp [Memory.wfFrom, and_assoc]

theorem Memory.wfFrom_mono {low low' : Nat} (h : low ≤ low') :
    ∀ {mem : Memory}, Memory.wfFrom low' mem = true → Memory.wfFrom low mem = true
  | [], _ => rfl
  | (k, v) :: rest, hm => by
    rw [Memory.wfFrom_cons] at hm ⊢
    exact ⟨by omega, hm.2⟩

theorem Memory.read_below {low : Nat} : ∀ {mem : Memory} {a : Nat}, Memory.wfFrom low mem = true → a < low →
    Memory.read mem a = Memory.unlisted
  | [], _, _, _ => rfl
  | (k, v) :: rest, a, hm, ha => by
    rw [Memory.wfFrom_cons] at hm
    rw [Memory.read_cons, if_neg (by omega)]
    exact Memory.read_below hm.2.2 (by omega)

/-- What a write does to every entry of a canonical memory. -/
theorem Memory.read_write {low : Nat} : ∀ {mem : Memory} (a b : Nat) (y : Byte), Memory.wfFrom low mem = true →
    Memory.read (Memory.write mem a y) b = if b = a then y else Memory.read mem b
  | [], a, b, y, _ => by
    by_cases hy : y = Memory.unlisted <;> by_cases hb : b = a <;> simp [Memory.write, hy, hb, Memory.read_cons]
  | (k, v) :: rest, a, b, y, hm => by
    rw [Memory.wfFrom_cons] at hm
    have ih := Memory.read_write a b y hm.2.2
    have hbelow : a ≤ k → Memory.read rest a = Memory.unlisted := fun h => Memory.read_below hm.2.2 (by omega)
    simp only [Memory.write]
    split
    · split
      · rename_i h hy
        subst hy
        rw [Memory.read_cons]
        by_cases hb : b = a
        · subst hb; simp [hbelow (by omega), show b ≠ k by omega]
        · simp [hb]
      · rw [Memory.read_cons]
    · split
      · rename_i h hak
        subst hak
        split
        · rename_i hy
          rw [Memory.read_cons]
          by_cases hb : b = a
          · subst hb; simp [hbelow (by omega), hy]
          · simp [hb]
        · by_cases hb : b = a <;> simp [Memory.read_cons, hb]
      · rw [Memory.read_cons, Memory.read_cons, ih]
        by_cases hb : b = k
        · subst hb; simp [show ¬ b = a by omega]
        · simp [hb]

theorem Memory.write_wfFrom {low : Nat} : ∀ {mem : Memory} (a : Nat) (y : Byte), Memory.wfFrom low mem = true →
    low ≤ a → Memory.wfFrom low (Memory.write mem a y) = true
  | [], a, y, _, ha => by
    by_cases hy : y = Memory.unlisted <;> simp [Memory.write, hy, Memory.wfFrom, ha]
  | (k, v) :: rest, a, y, hm, ha => by
    have hm' := hm
    rw [Memory.wfFrom_cons] at hm
    simp only [Memory.write]
    split
    · split
      · exact hm'
      · rename_i h hy
        rw [Memory.wfFrom_cons, Memory.wfFrom_cons]
        exact ⟨ha, hy, by omega, hm.2⟩
    · split
      · split
        · exact Memory.wfFrom_mono (by omega) hm.2.2
        · rename_i hy
          rw [Memory.wfFrom_cons]
          exact ⟨hm.1, hy, hm.2.2⟩
      · rw [Memory.wfFrom_cons]
        exact ⟨hm.1, hm.2.1, Memory.write_wfFrom a y hm.2.2 (by omega)⟩

/-- Every write keeps the canonical form. -/
theorem Memory.write_wf {mem : Memory} (a : Nat) (y : Byte) (h : mem.wf = true) : (Memory.write mem a y).wf = true :=
  Memory.write_wfFrom a y h (Nat.zero_le a)

/-- A write lists no index but its own and those listed before. -/
theorem Memory.mem_write : ∀ {mem : Memory} {a : Nat} {y : Byte} {c : Host.Cell}, c ∈ Memory.write mem a y →
    c.1 = a ∨ c ∈ mem
  | [], a, y, c, h => by
    simp only [Memory.write] at h
    split at h <;> simp_all
  | (k, v) :: rest, a, y, c, h => by
    simp only [Memory.write] at h
    split at h
    · split at h
      · exact .inr h
      · rcases List.mem_cons.1 h with h | h
        · exact .inl (by rw [h])
        · exact .inr h
    · split at h
      · split at h
        · exact .inr (List.mem_cons_of_mem _ h)
        · rename_i hk _
          rcases List.mem_cons.1 h with h | h
          · exact .inl (by rw [h, hk])
          · exact .inr (List.mem_cons_of_mem _ h)
      · rcases List.mem_cons.1 h with h | h
        · exact .inr (by simp [h])
        · rcases Memory.mem_write h with h | h
          · exact .inl h
          · exact .inr (List.mem_cons_of_mem _ h)

theorem Memory.foldl_writes_ok (depth : Nat) : ∀ (ws : List (Nat × Byte)) (mem : Memory), mem.wf = true →
    (∀ c ∈ mem, c.1 < depth) →
    (ws.foldl (fun mem c => if c.1 < depth then Memory.write mem c.1 c.2 else mem) mem).wf = true ∧
    ∀ c ∈ ws.foldl (fun mem c => if c.1 < depth then Memory.write mem c.1 c.2 else mem) mem, c.1 < depth
  | [], _, hw, hb => ⟨hw, hb⟩
  | w :: ws, mem, hw, hb => by
    simp only [List.foldl_cons]
    split
    · rename_i h
      refine Memory.foldl_writes_ok depth ws _ (Memory.write_wf _ _ hw) fun c hc => ?_
      rcases Memory.mem_write hc with h' | h'
      · omega
      · exact hb c h'
    · exact Memory.foldl_writes_ok depth ws mem hw hb

/-- A line buffer built from writes is canonical. -/
theorem Memory.ofWrites_wf (depth : Nat) (ws : List (Nat × Byte)) : (Memory.ofWrites depth ws).wf = true :=
  (Memory.foldl_writes_ok depth ws [] rfl (by simp)).1

/-- A line buffer built from writes lists only indexes below its depth. -/
theorem Memory.ofWrites_bounded (depth : Nat) (ws : List (Nat × Byte)) :
    ∀ c ∈ Memory.ofWrites depth ws, c.1 < depth :=
  (Memory.foldl_writes_ok depth ws [] rfl (by simp)).2

theorem Memory.eq_of_read_eq_from {low : Nat} : ∀ {a b : Memory}, Memory.wfFrom low a = true →
    Memory.wfFrom low b = true → (∀ i, Memory.read a i = Memory.read b i) → a = b
  | [], [], _, _, _ => rfl
  | [], (k, v) :: rest, _, hb, h => by
    rw [Memory.wfFrom_cons] at hb
    have := h k
    simp [Memory.read_cons] at this
    exact absurd this.symm hb.2.1
  | (k, v) :: rest, [], ha, _, h => by
    rw [Memory.wfFrom_cons] at ha
    have := h k
    simp [Memory.read_cons] at this
    exact absurd this ha.2.1
  | (k, v) :: rest, (k', v') :: rest', ha, hb, h => by
    rw [Memory.wfFrom_cons] at ha hb
    have hk : k = k' := by
      rcases Nat.lt_trichotomy k k' with hlt | heq | hgt
      · have := h k
        rw [Memory.read_cons, Memory.read_cons, if_pos rfl, if_neg (by omega),
          Memory.read_below hb.2.2 (by omega)] at this
        exact absurd this ha.2.1
      · exact heq
      · have := h k'
        rw [Memory.read_cons, Memory.read_cons, if_pos rfl, if_neg (by omega),
          Memory.read_below ha.2.2 (by omega)] at this
        exact absurd this.symm hb.2.1
    subst hk
    have hv : v = v' := by simpa [Memory.read_cons] using h k
    subst hv
    congr 1
    refine Memory.eq_of_read_eq_from ha.2.2 hb.2.2 fun i => ?_
    by_cases hi : i = k
    · subst hi; rw [Memory.read_below ha.2.2 (by omega), Memory.read_below hb.2.2 (by omega)]
    · simpa [Memory.read_cons, hi] using h i

/-- Canonical memories with equal entries are equal data. -/
theorem Memory.eq_of_read_eq {a b : Memory} (ha : a.wf = true) (hb : b.wf = true)
    (h : ∀ i, Memory.read a i = Memory.read b i) : a = b := Memory.eq_of_read_eq_from ha hb h

theorem lineRead_eq_some {s : State} {i : Nat} (h : i < s.lineDepth) : lineRead s i = some (s.line.read i) := by
  simp [lineRead, h]

theorem lineRead_eq_none {s : State} {i : Nat} (h : s.lineDepth ≤ i) : lineRead s i = none := by
  simp [lineRead, Nat.not_lt.2 h]

theorem lineWrite_eq {s : State} {i : Nat} (y : Byte) (h : i < s.lineDepth) :
    lineWrite i y s = { s with line := s.line.write i y } := by
  simp [lineWrite, h]

end Sys2Proof.Machine
end

