-- ==== Sys2Proof/Laws/Ops.lean ====
section
/-! SUPPORT. How a command ends: sequencing, the prologue, and what fault entry leaves. -/

namespace Sys2Proof.Machine

variable {α β γ : Type}

@[simp] theorem Res.bind_ok (a : α) (s : State) (k : α → State → Res β) : (Res.ok a s).bind k = k a s := rfl

@[simp] theorem Res.bind_raise (c : Cause) (s : State) (k : α → State → Res β) :
    (Res.raise c s : Res α).bind k = .raise c s := rfl

@[simp] theorem Res.bind_stop (f : Fault) (k : α → State → Res β) : (Res.stop f : Res α).bind k = .stop f := rfl

theorem Res.bind_assoc (r : Res α) (k : α → State → Res β) (l : β → State → Res γ) :
    (r.bind k).bind l = r.bind fun a s => (k a s).bind l := by cases r <;> rfl

theorem Res.bind_unit (r : Res Unit) : (r.bind fun _ s => .ok () s) = r := by cases r <;> rfl

/-- If a sequence goes on, its first part did. -/
theorem Res.bind_eq_ok {r : Res α} {k : α → State → Res β} {b : β} {t : State} (h : r.bind k = .ok b t) :
    ∃ a s, r = .ok a s ∧ k a s = .ok b t := by
  cases r with
  | ok a s => exact ⟨a, s, rfl, h⟩
  | raise c s => cases h
  | stop f => cases h

/-- If a sequence raises a cause, its first part does, or went on and the rest does. -/
theorem Res.bind_eq_raise {r : Res α} {k : α → State → Res β} {c : Cause} {t : State} (h : r.bind k = .raise c t) :
    r = .raise c t ∨ ∃ a s, r = .ok a s ∧ k a s = .raise c t := by
  cases r with
  | ok a s => exact .inr ⟨a, s, rfl, h⟩
  | raise c s => cases h; exact .inl rfl
  | stop f => cases h

/-- If a sequence stops the machine, its first part does, or went on and the rest does. -/
theorem Res.bind_eq_stop {r : Res α} {k : α → State → Res β} {f : Fault} (h : r.bind k = .stop f) :
    r = .stop f ∨ ∃ a s, r = .ok a s ∧ k a s = .stop f := by
  cases r with
  | ok a s => exact .inr ⟨a, s, rfl, h⟩
  | raise c s => cases h
  | stop f => cases h; exact .inl rfl

@[simp] theorem finish_ok (r : Response) (s : State) : finish (.ok r s) = .next (respond r s) := rfl

@[simp] theorem finish_raise (c : Cause) (s : State) : finish (.raise c s) = .next (takeFault c s) := rfl

@[simp] theorem finish_stop (f : Fault) : finish (.stop f) = .fault f := rfl

@[simp] theorem finish_answer (v : Word) (s : State) : finish (answer v s) = .next (respond (.ok v) s) := rfl

/-- In the faulted state a command answers the stored cause and changes nothing (60_exceptions.md R318 step 1). -/
theorem execute_faulted {s : State} {c : Cause} (h : s.cause = some c) (legal : Bool) (body : State → Res Response) :
    execute legal body s = .next (respond (.fault c) s) := by
  simp [execute, h]

/-- An illegal command raises `IllegalCommand` (R318 step 3). -/
theorem execute_illegal {s : State} (h : s.cause = none) (body : State → Res Response) :
    execute false body s = .next (takeFault .illegalCommand s) := by
  simp [execute, h]

/-- A legal command runs its pseudocode. -/
theorem execute_legal {s : State} (h : s.cause = none) {legal : Bool} (hl : legal = true)
    (body : State → Res Response) : execute legal body s = finish (body s) := by
  simp [execute, h, hl]

/-- Everything a command under the common prologue can do when it answers a next state. -/
theorem execute_cases {legal : Bool} {body : State → Res Response} {s t : State}
    (h : execute legal body s = .next t) :
    (∃ c, s.cause = some c ∧ t = respond (.fault c) s) ∨
    (s.cause = none ∧ legal = false ∧ t = takeFault .illegalCommand s) ∨
    (s.cause = none ∧ legal = true ∧ ∃ r s', body s = .ok r s' ∧ t = respond r s') ∨
    (s.cause = none ∧ legal = true ∧ ∃ c s', body s = .raise c s' ∧ t = takeFault c s') := by
  cases hc : s.cause with
  | some c =>
    rw [execute_faulted hc] at h
    cases h
    exact .inl ⟨c, rfl, rfl⟩
  | none =>
    cases legal with
    | false =>
      rw [execute_illegal hc] at h
      cases h
      exact .inr (.inl ⟨rfl, rfl, rfl⟩)
    | true =>
      rw [execute_legal hc rfl] at h
      cases hb : body s with
      | ok r s' => rw [hb] at h; cases h; exact .inr (.inr (.inl ⟨rfl, rfl, r, s', rfl, rfl⟩))
      | raise c s' => rw [hb] at h; cases h; exact .inr (.inr (.inr ⟨rfl, rfl, c, s', rfl, rfl⟩))
      | stop f => rw [hb] at h; cases h

/-- A command under the common prologue stops the machine only where its pseudocode does. -/
theorem execute_fault {legal : Bool} {body : State → Res Response} {s : State} {f : Fault}
    (h : execute legal body s = .fault f) : s.cause = none ∧ legal = true ∧ body s = .stop f := by
  cases hc : s.cause with
  | some c => rw [execute_faulted hc] at h; cases h
  | none =>
    cases legal with
    | false => rw [execute_illegal hc] at h; cases h
    | true =>
      rw [execute_legal hc rfl] at h
      cases hb : body s with
      | ok r s' => rw [hb] at h; cases h
      | raise c s' => rw [hb] at h; cases h
      | stop f' => rw [hb] at h; cases h; exact ⟨rfl, rfl, rfl⟩

/-- No command under the common prologue is refused. -/
theorem execute_ne_refused (legal : Bool) (body : State → Res Response) (s : State) (r : Refusal) :
    execute legal body s ≠ .refused r := by
  intro h
  cases hc : s.cause with
  | some c => rw [execute_faulted hc] at h; cases h
  | none =>
    cases legal with
    | false => rw [execute_illegal hc] at h; cases h
    | true => rw [execute_legal hc rfl] at h; cases hb : body s <;> rw [hb] at h <;> cases h

/-- What fault entry defines, whatever the free values. -/
theorem takeFault_faultedFrom (c : Cause) (s : State) : FaultedFrom c (flushed c s) s (takeFault c s) :=
  ⟨rfl, rfl, rfl, rfl, rfl, rfl, rfl, rfl⟩

/-- After an `IoError` nothing is flushed. -/
@[simp] theorem flushed_ioError (s : State) : flushed .ioError s = s.out := by simp [flushed]

/-- Fault entry keeps the invariant, from every state. -/
theorem takeFault_inv (c : Cause) (s : State) : Inv (takeFault c s) where
  canonical := Memory.ofWrites_wf _ _
  bounded := Memory.ofWrites_bounded _ _
  faulted := fun _ => ⟨rfl, rfl⟩
  running := fun h => by cases h

/-- The state after reset is the hardware's reset state around the model's own fields. -/
theorem resetState_running (s : State) : Running (resetState s) where
  coder := ⟨show 1 ≤ State.reset.m.toNat by decide, show State.reset.b.toNat = clog2 State.reset.m.toNat by decide,
    show State.reset.cutoff.toNat = cutoffOf State.reset.m.toNat by decide⟩
  closed := fun _ => ⟨rfl, rfl⟩
  writer := fun h => by cases h
  reader := fun h => by cases h
  encoding := fun h => by rcases h with h | h <;> cases h
  decoding := fun h => by rcases h with h | h <;> cases h
  history := ⟨fun _ => rfl, fun _ => rfl, fun _ => rfl⟩
  window := Nat.zero_le _
  place1 := fun h => by cases h
  noPlace1 := fun _ => ⟨rfl, rfl⟩
  place2 := fun h => by cases h
  noPlace2 := fun _ => ⟨rfl, rfl⟩
  rowStart := fun h => by cases h
  leftOf := fun h => by cases h

end Sys2Proof.Machine
end

