-- ==== Sys2Proof/Laws/Channel.lean ====
section
/-! SUPPORT. The bit channel in terms of bit strings: what each micro-operation appends to the bits written or takes from
the bits unread, and when it raises a cause. -/

namespace Sys2Proof.Machine

/-! ### Writing -/

theorem written_length {s : State} (h : s.nbits.toNat ≤ 8) :
    (written s).length = 8 * s.out.length + s.nbits.toNat := by
  simp [written, h]

theorem sinkRoom_iff (s : State) : sinkRoom s = true ↔ ∀ c, s.sinkCap = some c → s.out.length < c := by
  unfold sinkRoom; cases s.sinkCap <;> simp

theorem sinkFits_iff (s : State) (k : Nat) :
    sinkFits s k = true ↔ ∀ c, s.sinkCap = some c → s.out.length + (s.nbits.toNat + k) / 8 ≤ c := by
  unfold sinkFits; cases s.sinkCap <;> simp

theorem Wrote.refl {s : State} (h : WriterOk s) : Wrote [] s s := ⟨rfl, by simp, h⟩

theorem Wrote.trans {a b : Bits} {s t u : State} (h : Wrote a s t) (g : Wrote b t u) : Wrote (a ++ b) s u where
  frame := by rw [g.frame, h.frame]
  bits := by rw [g.bits, h.bits, List.append_assoc]
  ok := g.ok

theorem Wrote.sinkCap {w : Bits} {s t : State} (h : Wrote w s t) : t.sinkCap = s.sinkCap := by rw [h.frame]

/-- Room for more bits after some have been written. -/
theorem Wrote.fits {w : Bits} {s t : State} (hs : WriterOk s) (h : Wrote w s t) (k : Nat) :
    sinkFits t k = sinkFits s (w.length + k) := by
  have hl := congrArg List.length h.bits
  have hn := h.ok.pending
  have hn' := hs.pending
  rw [List.length_append, written_length (by omega), written_length (by omega)] at hl
  rw [Bool.eq_iff_iff, sinkFits_iff, sinkFits_iff, h.sinkCap]
  refine forall_congr' fun c => imp_congr_right fun _ => ?_
  omega

/-- `putbit` where the sink can take a completed byte. -/
theorem putbit_ok {s : State} (x : Bool) (hw : WriterOk s) (hf : sinkFits s 1 = true) :
    ∃ t, putbit x s = .ok () t ∧ Wrote [x] s t := by
  have hp := hw.pending
  have htake := take_setBit s.acc s.nbits.toNat x hp
  have hdrop := drop_setBit s.acc s.nbits.toNat x hp
  have hpad : (byteBits s.acc).drop (s.nbits.toNat + 1) = List.replicate (7 - s.nbits.toNat) false := by
    have := congrArg List.tail hw.padded
    rw [List.tail_drop, List.tail_replicate] at this
    rw [this, show 8 - s.nbits.toNat - 1 = 7 - s.nbits.toNat by omega]
  have h0 := (sinkFits_iff s 0).1 hw.fits
  have h1 := (sinkFits_iff s 1).1 hf
  by_cases h7 : s.nbits.toNat + 1 = 8
  · have hroom : sinkRoom s = true := (sinkRoom_iff s).2 fun c hc => by have := h1 c hc; omega
    have hroom' : sinkRoom (setAcc (setBit s.acc (7 - s.nbits.toNat) x) (s.nbits.toNat + 1) s) = true := hroom
    refine ⟨setAcc 0 0 { s with out := s.out ++ [setBit s.acc (7 - s.nbits.toNat) x] }, ?_, rfl, ?_, ?_, ?_, ?_⟩
    · simp only [putbit]
      rw [if_pos h7]
      unfold sinkPush
      rw [if_pos hroom']
      rfl
    · rw [h7, List.take_of_length_le (by simp)] at htake
      simp [written, htake]
    · simp
    · simp; decide
    · refine (sinkFits_iff _ 0).2 fun c hc => ?_
      have := h1 c hc
      simp
      omega
  · have hn : (BitVec.ofNat 4 (s.nbits.toNat + 1)).toNat = s.nbits.toNat + 1 := by
      rw [BitVec.toNat_ofNat]; omega
    refine ⟨setAcc (setBit s.acc (7 - s.nbits.toNat) x) (s.nbits.toNat + 1) s, ?_, rfl, ?_, ?_, ?_, ?_⟩
    · simp only [putbit]
      rw [if_neg h7]
    · simp only [written, setAcc_out, setAcc_acc, setAcc_nbits, hn, htake, List.append_assoc]
    · simp only [setAcc_nbits, hn]; omega
    · simp only [setAcc_nbits, setAcc_acc, hn, hdrop, hpad]; congr 1; omega
    · refine (sinkFits_iff _ 0).2 fun c hc => ?_
      have := h1 c hc
      simp only [setAcc_out, setAcc_nbits, hn]
      omega

/-- A sink without room for one more bit is full, and the pending bits are seven. -/
theorem sinkFits_one_false {s : State} (hw : WriterOk s) (hf : sinkFits s 1 = false) :
    s.nbits.toNat = 7 ∧ s.sinkCap = some s.out.length := by
  have hp := hw.pending
  have h0 := hw.fits
  unfold sinkFits at hf h0
  cases hc : s.sinkCap with
  | none => simp [hc] at hf
  | some c =>
    simp only [hc, decide_eq_true_eq, decide_eq_false_iff_not] at hf h0
    exact ⟨by omega, by congr 1; omega⟩

/-- `putbit` where the completed byte is refused. -/
theorem putbit_full {s : State} (x : Bool) (hw : WriterOk s) (hf : sinkFits s 1 = false) :
    ∃ t, putbit x s = .raise .ioError t ∧ t.out = s.out ∧ t.lineDepth = s.lineDepth ∧ t.pending = s.pending ∧
      t.env = s.env := by
  obtain ⟨h7, hcap⟩ := sinkFits_one_false hw hf
  have hroom : sinkRoom (setAcc (setBit s.acc (7 - s.nbits.toNat) x) (s.nbits.toNat + 1) s) = false := by
    simp [sinkRoom, hcap]
  refine ⟨setAcc (setBit s.acc (7 - s.nbits.toNat) x) (s.nbits.toNat + 1) s, ?_, rfl, rfl, rfl, rfl⟩
  simp only [putbit, h7, sinkPush] at hroom ⊢
  rw [if_pos trivial, hroom]
  rfl

theorem putAll_append (a b : Bits) (s : State) : putAll (a ++ b) s = (putAll a s).bind fun _ s1 => putAll b s1 := by
  induction a generalizing s with
  | nil => rfl
  | cons x a ih =>
    simp only [List.cons_append, putAll, Res.bind_assoc]
    congr 1
    funext _ s1
    exact ih s1

theorem putAll_singleton (x : Bool) (s : State) : putAll [x] s = putbit x s := Res.bind_unit _

/-- `putbits` writes a field. -/
theorem putbits_eq_putAll (n v : Nat) (s : State) : putbits n v s = putAll (bitsof v n) s := by
  induction n generalizing s with
  | zero => rfl
  | succ n ih =>
    simp only [putbits, bitsof_succ, putAll]
    congr 1
    funext _ s1
    exact ih s1

theorem putZeros_eq_putAll (q : Nat) (s : State) : putZeros q s = putAll (List.replicate q false) s := by
  induction q generalizing s with
  | zero => rfl
  | succ q ih =>
    simp only [putZeros, List.replicate_succ, putAll]
    congr 1
    funext _ s1
    exact ih s1

theorem sinkFits_mono {s : State} {j k : Nat} (h : j ≤ k) (hf : sinkFits s k = true) : sinkFits s j = true := by
  rw [sinkFits_iff] at hf ⊢
  intro c hc
  have := hf c hc
  omega

/-- A bit string for which the sink has room is written, and nothing else changes. -/
theorem putAll_ok {w : Bits} : ∀ {s : State}, WriterOk s → sinkFits s w.length = true →
    ∃ t, putAll w s = .ok () t ∧ Wrote w s t := by
  induction w with
  | nil => intro s hw _; exact ⟨s, rfl, .refl hw⟩
  | cons x w ih =>
    intro s hw hf
    obtain ⟨t, ht, hwt⟩ := putbit_ok x hw (sinkFits_mono (by simp) hf)
    obtain ⟨u, hu, hwu⟩ := ih hwt.ok (by rw [hwt.fits hw]; simpa [Nat.add_comm] using hf)
    exact ⟨u, by simp [putAll, ht, hu], hwt.trans hwu⟩

/-- A bit string for which the sink has no room ends in `IoError` with the sink filled to its capacity. -/
theorem putAll_full {w : Bits} : ∀ {s : State}, WriterOk s → sinkFits s w.length = false →
    ∃ t, putAll w s = .raise .ioError t ∧ s.sinkCap = some t.out.length ∧ streamBits t.out <+: written s ++ w ∧
      t.lineDepth = s.lineDepth ∧ t.pending = s.pending ∧ t.env = s.env := by
  induction w with
  | nil => intro s hw hf; rw [List.length_nil, hw.fits] at hf; cases hf
  | cons x w ih =>
    intro s hw hf
    cases h1 : sinkFits s 1 with
    | false =>
      obtain ⟨t, ht, ho, hf⟩ := putbit_full x hw h1
      refine ⟨t, by simp [putAll, ht], by rw [ho]; exact (sinkFits_one_false hw h1).2, ?_, hf⟩
      rw [ho, written, List.append_assoc]
      exact List.prefix_append _ _
    | true =>
      obtain ⟨t, ht, hwt⟩ := putbit_ok x hw h1
      obtain ⟨u, hu, hc, hpre, hd, hp, he⟩ := ih hwt.ok (by rw [hwt.fits hw]; simpa [Nat.add_comm] using hf)
      refine ⟨u, by simp [putAll, ht, hu], by rw [← hc, hwt.sinkCap], ?_, ?_, ?_, ?_⟩
      · rw [hwt.bits] at hpre; simpa using hpre
      · rw [hd, hwt.frame]
      · rw [hp, hwt.frame]
      · rw [he, hwt.frame]

/-! ### Reading -/

theorem bitsLeft_eq {s : State} (h : ReaderOk s) : bitsLeft s = (unread s).length := by
  have := h.loaded
  simp only [bitsLeft, unread, List.length_append, List.length_drop, byteBits_length, streamBits_length]
  omega

theorem Took.refl {s : State} (h : ReaderOk s) : Took [] s s := by
  have h8 := h.loaded
  exact ⟨rfl, rfl, by rw [List.length_nil]; omega, by rw [List.length_nil]; omega, h⟩

theorem Took.trans {a b : Bits} {s t u : State} (h : Took a s t) (g : Took b t u) : Took (a ++ b) s u where
  frame := by rw [g.frame, h.frame]
  bits := by rw [h.bits, g.bits, List.append_assoc]
  pulled := by
    have h1 := h.pulled; have h2 := h.left; have g1 := g.pulled
    rw [List.length_append]
    omega
  left := by
    have h1 := h.pulled; have h2 := h.left; have g1 := g.pulled; have g2 := g.left
    rw [List.length_append]
    omega
  ok := g.ok

/-- One bit from a loaded accumulator. -/
theorem nextBit_took {s : State} (h : ReaderOk s) (h1 : 1 ≤ s.nbits.toNat) :
    Took [(nextBit s).1] s (nextBit s).2 := by
  have h8 := h.loaded
  have hn : (BitVec.ofNat 4 (s.nbits.toNat - 1)).toNat = s.nbits.toNat - 1 := by
    rw [BitVec.toNat_ofNat]; omega
  have hpos : s.rpos ≠ 0 := fun h0 => by
    rw [(h.fresh h0).2] at h1
    exact absurd h1 (by decide)
  refine ⟨rfl, ?_, ?_, ?_, ?_, h.inside, h.current, fun h0 => absurd h0 hpos⟩
  · simp only [unread, nextBit, hn]
    rw [drop_next s.acc s.nbits.toNat h1 h8]
    rfl
  · simp only [nextBit, List.length_singleton]; omega
  · simp only [nextBit, hn, List.length_singleton]; omega
  · simp only [nextBit, hn]; omega

theorem nbits_eq_zero {s : State} : s.nbits = 0 ↔ s.nbits.toNat = 0 := by
  rw [← BitVec.toNat_inj]; rfl

/-- `getbit` at the end of the data. -/
theorem getbit_none {s : State} (h : ReaderOk s) (hu : unread s = []) : getbit s = none := by
  have h8 := h.loaded
  have hl := congrArg List.length hu
  rw [← bitsLeft_eq h] at hl
  simp only [bitsLeft, List.length_nil] at hl
  have h0 : s.nbits = 0 := nbits_eq_zero.2 (by omega)
  simp [getbit, h0, List.getElem?_eq_none (show s.inp.length ≤ s.rpos by omega)]

/-- `getbit` gives the next unread bit, and nothing else changes. -/
theorem getbit_some {s : State} {x : Bool} {rest : Bits} (h : ReaderOk s) (hu : unread s = x :: rest) :
    ∃ t, getbit s = some (x, t) ∧ Took [x] s t ∧ unread t = rest := by
  have key : ∃ y t, getbit s = some (y, t) ∧ Took [y] s t := by
    by_cases h0 : s.nbits = 0
    · have hlt : s.rpos < s.inp.length := by
        have hl := congrArg List.length hu
        rw [← bitsLeft_eq h] at hl
        simp only [bitsLeft, List.length_cons, nbits_eq_zero.1 h0] at hl
        omega
      have hg : s.inp[s.rpos]? = some s.inp[s.rpos] := List.getElem?_eq_getElem hlt
      let s1 : State := { s with acc := s.inp[s.rpos], rpos := s.rpos + 1, nbits := 8 }
      have hs1 : ReaderOk s1 := ⟨show (8 : BitVec 4).toNat ≤ 8 by decide, hlt, fun _ => hg,
        fun h0 => absurd h0 (Nat.succ_ne_zero _)⟩
      have hun : unread s = unread s1 := by
        simp only [unread, s1, nbits_eq_zero.1 h0]
        rw [List.drop_eq_getElem_cons hlt]
        rw [List.drop_eq_nil_of_le (show (byteBits s.acc).length ≤ 8 - 0 by simp)]
        rfl
      have ht := nextBit_took hs1 (show 1 ≤ (8 : BitVec 4).toNat by decide)
      have hp : (nextBit s1).2.rpos = s.rpos + 1 := rfl
      refine ⟨_, _, by simp only [getbit, h0, if_pos, hg]; rfl, ?_, ?_, ?_, ?_, ht.ok⟩
      · rw [ht.frame]
      · rw [hun]; exact ht.bits
      · rw [nbits_eq_zero.1 h0, List.length_singleton]; exact hp
      · rw [nbits_eq_zero.1 h0]
        have hl := ht.left
        have h8 : s1.nbits.toNat = 8 := rfl
        have h1 : s1.rpos = s.rpos + 1 := rfl
        rw [List.length_singleton] at hl ⊢
        omega
    · have hpos : 1 ≤ s.nbits.toNat := by
        by_contra hc
        exact h0 (nbits_eq_zero.2 (by omega))
      exact ⟨_, _, by simp only [getbit, h0, if_false], nextBit_took h hpos⟩
  obtain ⟨y, t, hg, ht⟩ := key
  have hb := ht.bits
  rw [hu, List.singleton_append] at hb
  obtain ⟨rfl, rfl⟩ := List.cons.inj hb
  exact ⟨t, hg, ht, rfl⟩

theorem readAll_ok {w : Bits} : ∀ {s : State} {rest : Bits}, ReaderOk s → unread s = w ++ rest →
    ∃ t, readAll w.length s = some (w, t) ∧ Took w s t ∧ unread t = rest := by
  induction w with
  | nil => intro s rest h hu; exact ⟨s, rfl, .refl h, hu⟩
  | cons x w ih =>
    intro s rest h hu
    obtain ⟨t, ht, htook, hut⟩ := getbit_some h hu
    obtain ⟨u, hu', htook', huu⟩ := ih htook.ok hut
    exact ⟨u, by simp [readAll, ht, hu'], htook.trans htook', huu⟩

theorem getbitsLoop_ok {w : Bits} : ∀ {s : State} {rest : Bits} (v : Nat), ReaderOk s → unread s = w ++ rest →
    ∃ t, getbitsLoop w.length v s = .ok (v * 2 ^ w.length + valof w) t ∧ Took w s t ∧ unread t = rest := by
  induction w with
  | nil => intro s rest v h hu; exact ⟨s, by simp [getbitsLoop], .refl h, hu⟩
  | cons x w ih =>
    intro s rest v h hu
    obtain ⟨t, ht, htook, hut⟩ := getbit_some h hu
    obtain ⟨u, hu', htook', huu⟩ := ih (2 * v + bitVal x) htook.ok hut
    refine ⟨u, ?_, htook.trans htook', huu⟩
    rw [List.length_cons, getbitsLoop, ht]
    simp only [hu', valof_cons]
    congr 1
    ring

/-- `getbits` of bits that are there gives the number they spell. -/
theorem getbits_ok {s : State} {w rest : Bits} (h : ReaderOk s) (hu : unread s = w ++ rest) :
    ∃ t, getbits w.length s = .ok (valof w) t ∧ Took w s t ∧ unread t = rest := by
  obtain ⟨t, ht, htook, hut⟩ := getbitsLoop_ok 0 h hu
  refine ⟨t, ?_, htook, hut⟩
  rw [getbits, bitsLeft_eq h, hu, if_neg (by simp), ht]
  simp

/-- `getbits` of a field gives its value. -/
theorem getbits_field {s : State} {n v : Nat} {rest : Bits} (h : ReaderOk s) (hv : v < 2 ^ n)
    (hu : unread s = bitsof v n ++ rest) :
    ∃ t, getbits n s = .ok v t ∧ Took (bitsof v n) s t ∧ unread t = rest := by
  have := getbits_ok h hu
  rwa [bitsof_length, valof_bitsof, Nat.mod_eq_of_lt hv] at this

/-- `getbits` of more bits than there are raises `UnexpectedEof` and consumes none. -/
theorem getbits_short {s : State} {n : Nat} (h : ReaderOk s) (hn : (unread s).length < n) :
    getbits n s = .raise .unexpectedEof s := by
  rw [getbits, bitsLeft_eq h, if_pos hn]

/-- Everything `getbits` can do. -/
theorem getbits_cases {s : State} (n : Nat) (h : ReaderOk s) :
    ((unread s).length < n ∧ getbits n s = .raise .unexpectedEof s) ∨
    ∃ w t, w.length = n ∧ getbits n s = .ok (valof w) t ∧ Took w s t := by
  by_cases hn : (unread s).length < n
  · exact .inl ⟨hn, getbits_short h hn⟩
  · obtain ⟨t, ht, htook, _⟩ := getbits_ok h (List.take_append_drop n (unread s)).symm
    have hl : ((unread s).take n).length = n := by rw [List.length_take]; omega
    rw [hl] at ht
    exact .inr ⟨_, t, hl, ht, htook⟩

end Sys2Proof.Machine
end

