-- ==== Sys2Proof/Laws/Coder.lean ====
section
/-! SUPPORT. The Golomb-Rice coder in terms of codewords: `encu` writes `cw`, and `decu` reads it back, or says how the data
falls short of a codeword. -/

namespace Sys2Proof.Machine

/-! ### Frames that need no invariant -/

/-- Only the writer's accumulator and the sink differ. -/
def WriteFrame (s t : State) : Prop := t = { s with acc := t.acc, nbits := t.nbits, out := t.out }

/-- Only the reader's accumulator and position differ. -/
def ReadFrame (s t : State) : Prop := t = { s with acc := t.acc, nbits := t.nbits, rpos := t.rpos }

theorem WriteFrame.refl (s : State) : WriteFrame s s := rfl

theorem WriteFrame.trans {s t u : State} (h : WriteFrame s t) (g : WriteFrame t u) : WriteFrame s u := by
  unfold WriteFrame at *
  rw [g, h]

theorem ReadFrame.refl (s : State) : ReadFrame s s := rfl

theorem ReadFrame.trans {s t u : State} (h : ReadFrame s t) (g : ReadFrame t u) : ReadFrame s u := by
  unfold ReadFrame at *
  rw [g, h]

/-- The first part of a sequence decides which continuations matter. -/
theorem Res.bind_congr {α β : Type} {r : Res α} {k l : α → State → Res β} (h : ∀ a t, r = .ok a t → k a t = l a t) :
    r.bind k = r.bind l := by
  cases r with
  | ok a s => exact h a s rfl
  | raise c s => rfl
  | stop f => rfl

/-- `putbit` goes on or raises `IoError`; either way only the writer's accumulator and the sink differ. -/
theorem putbit_cases (x : Bool) (s : State) :
    ∃ t, WriteFrame s t ∧ (putbit x s = .ok () t ∨ putbit x s = .raise .ioError t) := by
  unfold putbit
  by_cases h : s.nbits.toNat + 1 = 8
  · rw [if_pos h]
    unfold sinkPush
    split
    · exact ⟨setAcc 0 0 { s with out := s.out ++ [setBit s.acc (7 - s.nbits.toNat) x] }, rfl, .inl rfl⟩
    · exact ⟨setAcc (setBit s.acc (7 - s.nbits.toNat) x) (s.nbits.toNat + 1) s, rfl, .inr rfl⟩
  · rw [if_neg h]
    exact ⟨setAcc (setBit s.acc (7 - s.nbits.toNat) x) (s.nbits.toNat + 1) s, rfl, .inl rfl⟩

theorem putAll_cases : ∀ (w : Bits) (s : State),
    ∃ t, WriteFrame s t ∧ (putAll w s = .ok () t ∨ putAll w s = .raise .ioError t)
  | [], s => ⟨s, .refl s, .inl rfl⟩
  | x :: w, s => by
    obtain ⟨t, hf, h | h⟩ := putbit_cases x s
    · obtain ⟨u, hg, h'⟩ := putAll_cases w t
      refine ⟨u, hf.trans hg, ?_⟩
      simpa [putAll, h] using h'
    · exact ⟨t, hf, .inr (by simp [putAll, h])⟩

theorem putAll_frame {w : Bits} {s t : State} (h : putAll w s = .ok () t) : WriteFrame s t := by
  obtain ⟨u, hf, h' | h'⟩ := putAll_cases w s
  · rw [h] at h'; cases h'; exact hf
  · rw [h] at h'; cases h'

/-! ### Writing a codeword -/

theorem CoderOk.of_eq {s t : State} (h : CoderOk s) (hm : t.m = s.m) (hb : t.b = s.b) (hc : t.cutoff = s.cutoff) :
    CoderOk t := ⟨hm ▸ h.positive, hm ▸ hb ▸ h.width, hm ▸ hc ▸ h.cutoff⟩

theorem CoderOk.le {s : State} (_ : CoderOk s) : s.m.toNat ≤ 2 ^ 32 := by have := s.m.isLt; omega

/-- `B = 0` exactly for the parameter 1. -/
theorem CoderOk.b_eq_zero {s : State} (h : CoderOk s) : s.b = 0 ↔ s.m.toNat = 1 := by
  have hb : s.b = 0 ↔ s.b.toNat = 0 := by rw [← BitVec.toNat_inj]; rfl
  rw [hb, h.width]
  have := h.positive
  constructor
  · intro h0
    by_contra hne
    have := clog2_pos (show 2 ≤ s.m.toNat by omega) h.le
    omega
  · intro h1; rw [h1, clog2_one]

theorem putRemainder_eq {s : State} (h : CoderOk s) (r : Nat) : putRemainder r s = putAll (tb s.m.toNat r) s := by
  unfold putRemainder tb
  rw [h.cutoff, h.width]
  split <;> exact putbits_eq_putAll _ _ _

/-- `encu(v)` writes the codeword of `v` (42_golomb.md R172). -/
theorem encu_eq_putAll {s : State} (h : CoderOk s) (v : Nat) : encu v s = putAll (cw s.m.toNat v) s := by
  unfold encu cw unary
  rw [putZeros_eq_putAll, putAll_append, putAll_append, Res.bind_assoc]
  refine Res.bind_congr fun _ t ht => ?_
  rw [putAll_singleton]
  refine Res.bind_congr fun _ u hu => ?_
  have hf : WriteFrame s u := by
    have h2 : putAll [true] t = .ok () u := by rw [putAll_singleton]; exact hu
    exact (putAll_frame ht).trans (putAll_frame h2)
  have hm : u.m = s.m := by rw [hf]
  have hc : CoderOk u := h.of_eq hm (by rw [hf]) (by rw [hf])
  rw [putRemainder_eq hc, hm]

/-- A codeword for which the sink has room is written, and nothing else changes. -/
theorem encu_ok {s : State} {v : Nat} (hc : CoderOk s) (hw : WriterOk s)
    (hf : sinkFits s (cw s.m.toNat v).length = true) : ∃ t, encu v s = .ok () t ∧ Wrote (cw s.m.toNat v) s t := by
  rw [encu_eq_putAll hc]
  exact putAll_ok hw hf

/-- Everything `encu` can do. -/
theorem encu_cases {s : State} (hc : CoderOk s) (v : Nat) :
    ∃ t, WriteFrame s t ∧ (encu v s = .ok () t ∨ encu v s = .raise .ioError t) := by
  rw [encu_eq_putAll hc]
  exact putAll_cases _ _

/-! ### Codewords as bit strings -/

theorem all_false_or {w : Bits} : w = List.replicate w.length false ∨ ∃ q rest, w = unary q ++ rest := by
  induction w with
  | nil => exact .inl rfl
  | cons x w ih =>
    cases x with
    | true => exact .inr ⟨0, w, rfl⟩
    | false =>
      rcases ih with h | ⟨q, rest, h⟩
      · exact .inl (by rw [List.length_cons, List.replicate_succ, ← h])
      · exact .inr ⟨q + 1, rest, by rw [h]; simp [unary, List.replicate_succ]⟩

theorem tb_one (r : Nat) (h : r < 1) : tb 1 r = [] := by
  obtain rfl : r = 0 := by omega
  decide

/-- The short remainders are the fields below the cutoff. -/
theorem tb_short {m : Nat} {w : Bits} (hl : w.length = clog2 m - 1) (h : valof w < cutoffOf m) :
    tb m (valof w) = w := by
  unfold tb
  rw [if_pos h, ← hl, bitsof_valof]

/-- The long remainders are the fields from the cutoff on, with one more bit (42_golomb.md R179). -/
theorem tb_long {m : Nat} {w : Bits} (x : Bool) (h2 : 2 ≤ m) (hm : m ≤ 2 ^ 32) (hl : w.length = clog2 m - 1)
    (h : cutoffOf m ≤ valof w) :
    tb m (2 * valof w + bitVal x - cutoffOf m) = w ++ [x] ∧ cutoffOf m ≤ 2 * valof w + bitVal x - cutoffOf m ∧
      2 * valof w + bitVal x - cutoffOf m < m := by
  have hp := clog2_pos h2 hm
  have hv := valof_lt w
  have hx := bitVal_lt x
  have hadd := add_cutoffOf hm
  have hpow : 2 ^ clog2 m = 2 * 2 ^ w.length := by
    rw [hl]
    conv_lhs => rw [show clog2 m = clog2 m - 1 + 1 by omega, pow_succ]
    ring
  refine ⟨?_, by omega, by omega⟩
  unfold tb
  rw [if_neg (by omega), Nat.sub_add_cancel (by omega)]
  have hval : 2 * valof w + bitVal x = valof (w ++ [x]) := by
    rw [valof_append]; simp [valof_cons]; ring
  have hlen : clog2 m = (w ++ [x]).length := by simp; omega
  rw [hval, hlen, bitsof_valof]

/-- A bit string is the codeword remainder of exactly the value it spells, or it is too short to be one. -/
theorem tb_prefix_cases {m : Nat} (h1 : 1 ≤ m) (hm : m ≤ 2 ^ 32) (w : Bits) :
    (∃ r rest, r < m ∧ w = tb m r ++ rest) ∨
    (2 ≤ m ∧ w.length < clog2 m - 1) ∨
    (2 ≤ m ∧ w.length = clog2 m - 1 ∧ cutoffOf m ≤ valof w) := by
  rcases Nat.lt_or_ge 1 m with h2 | h2
  · rcases Nat.lt_or_ge w.length (clog2 m - 1) with hlt | hge
    · exact .inr (.inl ⟨h2, hlt⟩)
    · have hl : (w.take (clog2 m - 1)).length = clog2 m - 1 := by rw [List.length_take]; omega
      by_cases hv : valof (w.take (clog2 m - 1)) < cutoffOf m
      · refine .inl ⟨valof (w.take (clog2 m - 1)), w.drop (clog2 m - 1), ?_, ?_⟩
        · have := cutoffOf_lt h2 hm
          have := add_cutoffOf hm
          have hp := clog2_pos h2 hm
          have hpow : 2 ^ clog2 m = 2 * 2 ^ (clog2 m - 1) := by
            conv_lhs => rw [show clog2 m = clog2 m - 1 + 1 by omega, pow_succ]
            ring
          omega
        · rw [tb_short hl hv, List.take_append_drop]
      · rw [Nat.not_lt] at hv
        cases hd : w.drop (clog2 m - 1) with
        | nil =>
          have hw : w.take (clog2 m - 1) = w := by
            have := List.take_append_drop (clog2 m - 1) w
            rwa [hd, List.append_nil] at this
          rw [hw] at hl hv
          exact .inr (.inr ⟨h2, hl, hv⟩)
        | cons x rest =>
          obtain ⟨ht, _, hr⟩ := tb_long x h2 hm hl hv
          refine .inl ⟨_, rest, hr, ?_⟩
          rw [ht, List.append_assoc, List.singleton_append, ← hd, List.take_append_drop]
  · obtain rfl : m = 1 := by omega
    exact .inl ⟨0, w, by omega, by rw [tb_one 0 (by omega), List.nil_append]⟩

/-- A codeword splits into its quotient and its remainder. -/
theorem cw_mul_add {m q r : Nat} (h : r < m) : cw m (q * m + r) = unary q ++ tb m r := by
  unfold cw
  rw [Nat.mul_comm, Nat.mul_add_div (by omega), Nat.div_eq_of_lt h, Nat.add_zero, Nat.mul_add_mod, Nat.mod_eq_of_lt h]

/-! ### Reading a codeword -/

theorem Took.readFrame {w : Bits} {s t : State} (h : Took w s t) : ReadFrame s t := h.frame

theorem Took.coder {w : Bits} {s t : State} (h : Took w s t) (hc : CoderOk s) : CoderOk t :=
  hc.of_eq (by rw [h.frame]) (by rw [h.frame]) (by rw [h.frame])

/-- The unary loop on a terminated run of zeros. -/
theorem countZeros_ok {q : Nat} : ∀ {fuel : Nat} {s : State} {rest : Bits} (q0 : Nat), ReaderOk s →
    unread s = unary q ++ rest → q < fuel →
    ∃ t, countZeros fuel q0 s = .ok (q0 + q) t ∧ Took (unary q) s t ∧ unread t = rest := by
  induction q with
  | zero =>
    intro fuel s rest q0 h hu hq
    obtain ⟨n, rfl⟩ := Nat.exists_eq_succ_of_ne_zero (show fuel ≠ 0 by omega)
    obtain ⟨t, ht, htook, hut⟩ := getbit_some h hu
    exact ⟨t, by simp [countZeros, ht], htook, hut⟩
  | succ q ih =>
    intro fuel s rest q0 h hu hq
    obtain ⟨n, rfl⟩ := Nat.exists_eq_succ_of_ne_zero (show fuel ≠ 0 by omega)
    rw [unary, List.replicate_succ] at hu
    obtain ⟨t, ht, htook, hut⟩ := getbit_some h hu
    obtain ⟨u, hu', htook', huu⟩ := ih (fuel := n) (rest := rest) (q0 + 1) htook.ok (by rw [hut]; rfl) (by omega)
    refine ⟨u, ?_, ?_, huu⟩
    · simp only [countZeros, ht, hu']
      congr 1
      omega
    · have := htook.trans htook'
      rwa [unary, List.replicate_succ]

/-- The unary loop on data that ends before the terminator. -/
theorem countZeros_none : ∀ {k fuel : Nat} {s : State} (q0 : Nat), ReaderOk s →
    unread s = List.replicate k false → ∃ t, countZeros fuel q0 s = .raise .invalidEncoding t ∧ ReadFrame s t
  | _, 0, s, _, _, _ => ⟨s, rfl, .refl s⟩
  | 0, fuel + 1, s, q0, h, hu => ⟨s, by simp [countZeros, getbit_none h hu], .refl s⟩
  | k + 1, fuel + 1, s, q0, h, hu => by
    rw [List.replicate_succ] at hu
    obtain ⟨t, ht, htook, hut⟩ := getbit_some h hu
    obtain ⟨u, hu', hf⟩ := countZeros_none (q0 + 1) htook.ok (k := k) (fuel := fuel) hut
    exact ⟨u, by simp [countZeros, ht, hu'], htook.readFrame.trans hf⟩

/-- Reading the remainder of a codeword that is there. -/
theorem getRemainder_ok {s : State} {r : Nat} {rest : Bits} (hc : CoderOk s) (h : ReaderOk s) (hr : r < s.m.toNat)
    (hu : unread s = tb s.m.toNat r ++ rest) :
    ∃ t, getRemainder s = .ok r t ∧ Took (tb s.m.toNat r) s t ∧ unread t = rest := by
  unfold getRemainder
  by_cases h0 : s.b = 0
  · have h1 := hc.b_eq_zero.1 h0
    rw [h1, tb_one r (by omega)] at hu ⊢
    exact ⟨s, by rw [if_pos h0, show r = 0 by omega], .refl h, hu⟩
  · have h2 : 2 ≤ s.m.toNat := by
      have := hc.positive
      have := mt hc.b_eq_zero.2 h0
      omega
    rw [if_neg h0, hc.width]
    have hcut := cutoffOf_lt h2 hc.le
    have hadd := add_cutoffOf hc.le
    have hp := clog2_pos h2 hc.le
    have hpow : 2 ^ clog2 s.m.toNat = 2 * 2 ^ (clog2 s.m.toNat - 1) := by
      conv_lhs => rw [show clog2 s.m.toNat = clog2 s.m.toNat - 1 + 1 by omega, pow_succ]
      ring
    by_cases hlt : r < cutoffOf s.m.toNat
    · rw [tb, if_pos hlt] at hu
      obtain ⟨t, ht, htook, hut⟩ := getbits_field h (by omega) hu
      refine ⟨t, ?_, by rw [tb, if_pos hlt]; exact htook, hut⟩
      rw [ht, Res.bind_ok, if_pos]
      rw [show t.cutoff = s.cutoff by rw [htook.frame], hc.cutoff]
      exact hlt
    · have hsplit : bitsof (r + cutoffOf s.m.toNat) (clog2 s.m.toNat) =
          bitsof ((r + cutoffOf s.m.toNat) / 2) (clog2 s.m.toNat - 1) ++ [(r + cutoffOf s.m.toNat).testBit 0] := by
        conv_lhs => rw [show clog2 s.m.toNat = clog2 s.m.toNat - 1 + 1 by omega, bitsof_split]
        rfl
      rw [tb, if_neg hlt, hsplit, List.append_assoc] at hu
      obtain ⟨t, ht, htook, hut⟩ := getbits_field h (by omega) hu
      obtain ⟨u, hu', htook', huu⟩ := getbit_some htook.ok hut
      refine ⟨u, ?_, by rw [tb, if_neg hlt, hsplit]; exact htook.trans htook', huu⟩
      rw [ht, Res.bind_ok, if_neg, hu']
      · simp only [bitVal_testBit]
        rw [show u.cutoff = s.cutoff by rw [htook'.frame, htook.frame], hc.cutoff]
        congr 1
        omega
      · rw [show t.cutoff = s.cutoff by rw [htook.frame], hc.cutoff]
        omega

/-- Reading a remainder that is cut short. -/
theorem getRemainder_short {s : State} (hc : CoderOk s) (h : ReaderOk s)
    (hu : ∀ r < s.m.toNat, ¬ tb s.m.toNat r <+: unread s) :
    ∃ t, getRemainder s = .raise .unexpectedEof t ∧ ReadFrame s t := by
  rcases tb_prefix_cases hc.positive hc.le (unread s) with ⟨r, rest, hr, he⟩ | ⟨h2, hl⟩ | ⟨h2, hl, hv⟩
  · exact absurd ⟨rest, he.symm⟩ (hu r hr)
  · have h0 : s.b ≠ 0 := fun hb => by have := hc.b_eq_zero.1 hb; omega
    exact ⟨s, by rw [getRemainder, if_neg h0, hc.width, getbits_short h hl, Res.bind_raise], .refl s⟩
  · have h0 : s.b ≠ 0 := fun hb => by have := hc.b_eq_zero.1 hb; omega
    obtain ⟨t, ht, htook, hut⟩ := getbits_ok h (List.append_nil _).symm
    rw [hl] at ht
    refine ⟨t, ?_, htook.readFrame⟩
    rw [getRemainder, if_neg h0, hc.width, ht, Res.bind_ok, if_neg, getbit_none htook.ok hut]
    rw [show t.cutoff = s.cutoff by rw [htook.frame], hc.cutoff]
    omega

/-- `decu` on a codeword that is there: the whole codeword is consumed, and the value answered if 32 bits hold it
(42_golomb.md R178, R179). -/
theorem decu_codeword {s : State} {v : Nat} {rest : Bits} (hc : CoderOk s) (h : ReaderOk s)
    (hu : unread s = cw s.m.toNat v ++ rest) :
    ∃ t, decu s = (if Config.valueMax < v then .raise .rangeOverflow t else .ok v t) ∧
      Took (cw s.m.toNat v) s t ∧ unread t = rest := by
  have hm := hc.positive
  have hr : v % s.m.toNat < s.m.toNat := Nat.mod_lt _ (by omega)
  rw [cw, List.append_assoc] at hu
  obtain ⟨t, ht, htook, hut⟩ := countZeros_ok 0 h hu (fuel := bitsLeft s) (by
    rw [bitsLeft_eq h, hu]; simp; omega)
  have hmt : t.m = s.m := by rw [htook.frame]
  obtain ⟨u, hu', htook', huu⟩ := getRemainder_ok (htook.coder hc) htook.ok (by rw [hmt]; exact hr)
    (by rw [hmt]; exact hut)
  rw [hmt] at htook'
  refine ⟨u, ?_, htook.trans htook', huu⟩
  have hmu : u.m = s.m := by rw [htook'.frame, htook.frame]
  have hv : v / s.m.toNat * s.m.toNat + v % s.m.toNat = v := by rw [Nat.mul_comm]; exact Nat.div_add_mod _ _
  rw [decu, ht, Res.bind_ok, hu', Res.bind_ok, hmu, Nat.zero_add, hv]

/-- `decu` on data that ends before a terminator. -/
theorem decu_unterminated {s : State} {k : Nat} (h : ReaderOk s) (hu : unread s = List.replicate k false) :
    ∃ t, decu s = .raise .invalidEncoding t ∧ ReadFrame s t := by
  obtain ⟨t, ht, hf⟩ := countZeros_none 0 h hu (fuel := bitsLeft s)
  exact ⟨t, by rw [decu, ht, Res.bind_raise], hf⟩

/-- `decu` on data that ends inside a remainder. -/
theorem decu_short {s : State} {q : Nat} {rest : Bits} (hc : CoderOk s) (h : ReaderOk s)
    (hu : unread s = unary q ++ rest) (hr : ∀ r < s.m.toNat, ¬ tb s.m.toNat r <+: rest) :
    ∃ t, decu s = .raise .unexpectedEof t ∧ ReadFrame s t := by
  obtain ⟨t, ht, htook, hut⟩ := countZeros_ok 0 h hu (fuel := bitsLeft s) (by
    rw [bitsLeft_eq h, hu]; simp; omega)
  have hmt : t.m = s.m := by rw [htook.frame]
  obtain ⟨u, hu', hf⟩ := getRemainder_short (htook.coder hc) htook.ok (by rw [hmt, hut]; exact hr)
  exact ⟨u, by rw [decu, ht, Res.bind_ok, hu', Res.bind_raise], htook.readFrame.trans hf⟩

/-- Everything `decu` can do. -/
theorem decu_cases {s : State} (hc : CoderOk s) (h : ReaderOk s) :
    (∃ v t, v ≤ Config.valueMax ∧ decu s = .ok v t ∧ Took (cw s.m.toNat v) s t) ∨
    (∃ v t, Config.valueMax < v ∧ decu s = .raise .rangeOverflow t ∧ Took (cw s.m.toNat v) s t) ∨
    (∃ k t, unread s = List.replicate k false ∧ decu s = .raise .invalidEncoding t ∧ ReadFrame s t) ∨
    (∃ q rest t, unread s = unary q ++ rest ∧ (∀ r < s.m.toNat, ¬ tb s.m.toNat r <+: rest) ∧
      decu s = .raise .unexpectedEof t ∧ ReadFrame s t) := by
  rcases all_false_or (w := unread s) with he | ⟨q, rest, he⟩
  · obtain ⟨t, ht, hf⟩ := decu_unterminated h he
    exact .inr (.inr (.inl ⟨_, t, he, ht, hf⟩))
  · by_cases hr : ∃ r < s.m.toNat, tb s.m.toNat r <+: rest
    · obtain ⟨r, hr, rest', hrest⟩ := hr
      have hu : unread s = cw s.m.toNat (q * s.m.toNat + r) ++ rest' := by
        rw [cw_mul_add hr, List.append_assoc, hrest, he]
      obtain ⟨t, ht, htook, _⟩ := decu_codeword hc h hu
      by_cases hv : Config.valueMax < q * s.m.toNat + r
      · rw [if_pos hv] at ht
        exact .inr (.inl ⟨_, t, hv, ht, htook⟩)
      · rw [if_neg hv] at ht
        exact .inl ⟨_, t, by omega, ht, htook⟩
    · have hr' : ∀ r < s.m.toNat, ¬ tb s.m.toNat r <+: rest := fun r h1 h2 => hr ⟨r, h1, h2⟩
      obtain ⟨t, ht, hf⟩ := decu_short hc h he hr'
      exact .inr (.inr (.inr ⟨q, rest, t, he, hr', ht, hf⟩))

end Sys2Proof.Machine
end

