-- ==== Sys2Proof/Laws/Estimator.lean ====
section
/-! SUPPORT. The estimator: everything `estacc` can do, and what the two searches find. -/

namespace Sys2Proof.Machine

/-- `estacc` with a full `CNT` raises `RangeOverflow` and changes nothing (43_estimator.md R203). -/
theorem estacc_full {s : State} (e : Int) (h : s.cnt.toNat = Config.cntMax) :
    estacc e s = .raise .rangeOverflow s := by
  rw [estacc, if_pos h]

/-- `estacc` with room in `CNT`. -/
theorem estacc_ok {s : State} (e : Int) (h : s.cnt.toNat ≠ Config.cntMax) :
    estacc e s = .ok () { s with sum := s.sum + BitVec.ofNat 64 e.natAbs, cnt := s.cnt + 1 } := by
  rw [estacc, if_neg h]

theorem cnt_succ {s : State} (h : s.cnt.toNat ≠ Config.cntMax) : (s.cnt + 1).toNat = s.cnt.toNat + 1 := by
  have := s.cnt.isLt
  unfold Config.cntMax at h
  rw [BitVec.toNat_add]
  have h1 : (1 : BitVec 32).toNat = 1 := rfl
  rw [h1]
  omega

/-- The window's sum stays exact: no 64-bit sum of magnitudes of 32-bit integers wraps (10_state.md R38). -/
theorem sum_add {s : State} {e : Int} (hw : s.sum.toNat ≤ s.cnt.toNat * 2147483648) (he : e.natAbs ≤ 2147483648)
    (h : s.cnt.toNat ≠ Config.cntMax) :
    (s.sum + BitVec.ofNat 64 e.natAbs).toNat = s.sum.toNat + e.natAbs ∧
      s.sum.toNat + e.natAbs ≤ (s.cnt + 1).toNat * 2147483648 := by
  rw [cnt_succ h]
  have := s.cnt.isLt
  have h' : s.sum.toNat + e.natAbs ≤ (s.cnt.toNat + 1) * 2147483648 := by omega
  refine ⟨?_, h'⟩
  rw [BitVec.toNat_add, BitVec.toNat_ofNat]
  omega

/-- The search of `est1d` from `k` on ends where the condition first fails, or where the fuel ends. -/
theorem est1dFrom_spec (S N : Nat) : ∀ fuel k, k ≤ est1dFrom S N fuel k ∧ est1dFrom S N fuel k ≤ k + fuel ∧
    (∀ j, k < j → j ≤ est1dFrom S N fuel k → (N + S) ^ (2 * j - 1) ≤ 4 * N ^ (2 * j - 1)) ∧
    (est1dFrom S N fuel k < k + fuel →
      ¬ (N + S) ^ (2 * (est1dFrom S N fuel k + 1) - 1) ≤ 4 * N ^ (2 * (est1dFrom S N fuel k + 1) - 1))
  | 0, k => ⟨le_rfl, le_rfl, fun j h1 h2 => by simp only [est1dFrom] at h2; omega,
      fun h => by simp only [est1dFrom] at h; omega⟩
  | fuel + 1, k => by
    rw [est1dFrom]
    split
    · rename_i hc
      obtain ⟨h1, h2, h3, h4⟩ := est1dFrom_spec S N fuel (k + 1)
      refine ⟨by omega, by omega, fun j hj hj' => ?_, fun h => h4 (by omega)⟩
      rcases Nat.lt_or_ge (k + 1) j with h | h
      · exact h3 j h hj'
      · obtain rfl : j = k + 1 := by omega
        exact hc
    · rename_i hc
      exact ⟨le_rfl, by omega, fun j h1 h2 => by omega, fun _ => hc⟩

/-- The estimate lies in `1 .. 256` (43_estimator.md R207). -/
theorem est1d_range (S N : Nat) : 1 ≤ est1d S N ∧ est1d S N ≤ 256 := by
  unfold est1d
  split
  · omega
  · obtain ⟨h1, h2, _⟩ := est1dFrom_spec S N (Config.m1dMax - 1) 1
    unfold Config.m1dMax at *
    omega

/-- The estimate lies in `1 .. 65535` (43_estimator.md R211). -/
theorem est2d_range (S N : Nat) : 1 ≤ est2d S N ∧ est2d S N ≤ 65535 := by
  unfold est2d Config.mMax
  split <;> omega

end Sys2Proof.Machine
end

