-- ==== Sys2Proof/Laws/Predictors.lean ====
section
/-! SUPPORT. The predictors: the ranges of predictions, everything `ps` and `p2push` can do, and where the next position
is. -/

namespace Sys2Proof.Machine

theorem isSample_iff (x : Int) : isSample x = true ↔ -32768 ≤ x ∧ x ≤ 32767 := by simp [isSample]

theorem isPixel_iff (w : Word) : isPixel w = true ↔ w.toNat ≤ 255 := by simp [isPixel]

/-- A 16-bit register holds a sample. -/
theorem toInt_range (x : BitVec 16) : -32768 ≤ x.toInt ∧ x.toInt ≤ 32767 := by
  have h1 := x.toInt_lt
  have h2 := x.le_toInt
  norm_num at h1 h2
  omega

theorem toInt_ofInt_sample {x : Int} (h : isSample x = true) : (BitVec.ofInt 16 x).toInt = x := by
  rw [isSample_iff] at h
  rw [BitVec.toInt_ofInt, Int.bmod_def]
  omega

/-- `pt(1)` is the last sample of the history, or 0 (44_predictors.md R222). -/
theorem pt_one (s : State) : pt 1 s = if s.hcnt.toNat = 0 then 0 else s.h1.toInt := by simp [pt]

/-- `pt(2)` is within the range R222 gives. -/
theorem pt_two_range (s : State) : -98303 ≤ pt 2 s ∧ pt 2 s ≤ 98302 := by
  have h1 := toInt_range s.h1
  have h2 := toInt_range s.h2
  have : pt 2 s = 0 ∨ pt 2 s = 2 * s.h1.toInt - s.h2.toInt ∨ pt 2 s = s.h1.toInt := by
    unfold pt
    split
    · exact .inl rfl
    · split
      · exact .inr (.inl rfl)
      · simp
  omega

/-- The combined prediction is a 16-bit value (44_predictors.md R224). -/
theorem pic_range {ref : Int} (s : State) (h : isSample ref = true) : isSample (pic ref s) = true := by
  rw [isSample_iff] at *
  have h1 := toInt_range s.h1
  have hp : -32768 ≤ pt 1 s ∧ pt 1 s ≤ 32767 := by rw [pt_one]; split <;> omega
  unfold pic tdiv2
  split <;> omega

/-- The spatial prediction of five modes lies in `-255 .. 510` (44_predictors.md R227). -/
theorem spatial_range (pmode r c : Nat) (a b d : Byte) :
    -255 ≤ spatial pmode r c a.toNat b.toNat d.toNat ∧ spatial pmode r c a.toNat b.toNat d.toNat ≤ 510 := by
  have ha := a.isLt
  have hb := b.isLt
  have hd := d.isLt
  unfold spatial
  split
  · decide
  · split
    · omega
    · split
      · omega
      · unfold interior med
        split
        · omega
        · omega
        · omega
        · omega
        · split
          · omega
          · split <;> omega

/-- `ps()` where `LINE[COL]` exists. -/
theorem ps_eq {s : State} (h : s.col.toNat < s.lineDepth) :
    ps s = .ok (spatial s.pmode.toNat s.row.toNat s.col.toNat s.areg.toNat (s.line.read s.col.toNat).toNat
      s.creg.toNat) s := by
  rw [ps, lineRead_eq_some h]

/-- `p2push` where `LINE[COL]` exists (44_predictors.md R231). -/
theorem p2push_eq {s : State} (x : Byte) (h : s.col.toNat < s.lineDepth) :
    p2push x s = .ok
      (decide ((nextPosition { s with
        line := s.line.write s.col.toNat x, creg := s.line.read s.col.toNat, areg := x }).row = s.rows))
      (nextPosition { s with
        line := s.line.write s.col.toNat x, creg := s.line.read s.col.toNat, areg := x }) := by
  rw [p2push, lineRead_eq_some h, lineWrite_eq x h]
  simp only [nextPosition]
  split <;> rfl

/-- The next position within a row. -/
theorem nextPosition_within {s : State} (h : s.col + 1 ≠ s.cols) :
    nextPosition s = { s with col := s.col + 1 } := by
  rw [nextPosition, if_neg h]

/-- The next position at the end of a row. -/
theorem nextPosition_end {s : State} (h : s.col + 1 = s.cols) :
    nextPosition s = { s with col := 0, row := s.row + 1, areg := 0, creg := 0 } := by
  rw [nextPosition, if_pos h]

/-- A counter below another of its width can be raised by one. -/
theorem toNat_succ_of_lt {a b : BitVec 32} (h : a.toNat < b.toNat) : (a + 1).toNat = a.toNat + 1 := by
  have := b.isLt
  have h1 : (1 : BitVec 32).toNat = 1 := rfl
  rw [BitVec.toNat_add, h1]
  omega

theorem succ_eq_iff {a b : BitVec 32} (h : a.toNat < b.toNat) : a + 1 = b ↔ a.toNat + 1 = b.toNat := by
  rw [← BitVec.toNat_inj, toNat_succ_of_lt h]

end Sys2Proof.Machine
end

