-- ==== Sys2Proof/Laws/Codec.lean ====
section
/-! SUPPORT. The codecs: headers as bit strings, written and read, and everything the two sequencers' advances can do. -/

namespace Sys2Proof.Machine

/-! ### Writing headers -/

/-- WRHDR1's fields are the 1-D header (45_codec1d.md R258, 30_encoding.md R116). -/
theorem putHeader1_eq (s : State) : putHeader1 s = putAll (header1 s.srate.toNat s.nch.toNat s.bps.toNat s.nsamp.toNat
    s.m.toNat (s.flags.getLsbD 0) (s.flags.getLsbD 1)) s := by
  have h2 : s.nch.toNat = 2 ↔ s.nch = 2 := by rw [← BitVec.toNat_inj]; rfl
  simp only [putHeader1, header1, putAll_append, Res.bind_assoc, putbits_eq_putAll, bitsof_one, h2]
  refine Res.bind_congr fun _ _ _ => Res.bind_congr fun _ _ _ => Res.bind_congr fun _ _ _ =>
    Res.bind_congr fun _ _ _ => Res.bind_congr fun _ _ _ => Res.bind_congr fun _ _ _ => ?_
  split <;> rfl

/-- WRHDR2's fields are the 2-D header (46_codec2d.md R288, 30_encoding.md R117). -/
theorem putHeader2_eq (s : State) :
    putHeader2 s = putAll (header2 s.rows.toNat s.cols.toNat s.m.toNat s.pmode.toNat) s := by
  simp only [putHeader2, header2, putAll_append, Res.bind_assoc, putbits_eq_putAll]

/-- The 1-D header is 113 bits, or 114 for stereo. -/
theorem header1_length (sr nc bp ns m : Nat) (ad ic : Bool) :
    (header1 sr nc bp ns m ad ic).length = if nc = 2 then 114 else 113 := by
  unfold header1
  split <;> simp

@[simp] theorem header2_length (rows cols m pm : Nat) : (header2 rows cols m pm).length = 88 := by simp [header2]

/-! ### Reading headers -/

theorem channelsOk_iff (n : Nat) : channelsOk n = true ↔ n = 1 ∨ n = 2 := by simp [channelsOk]

theorem geomOk_iff (rows cols pm depth : Nat) :
    geomOk rows cols pm depth = true ↔ rows ≠ 0 ∧ cols ≠ 0 ∧ cols ≤ depth ∧ pm ≤ 4 := by simp [geomOk]

/-- `getbits` of any length in terms of the field that is there, or the shortage. -/
theorem getbits_field_cases {s : State} (n : Nat) (h : ReaderOk s) :
    ((unread s).length < n ∧ getbits n s = .raise .unexpectedEof s) ∨
    ∃ v t, v < 2 ^ n ∧ getbits n s = .ok v t ∧ Took (bitsof v n) s t := by
  rcases getbits_cases n h with hs | ⟨w, t, hl, ht, htook⟩
  · exact .inl hs
  · subst hl
    exact .inr ⟨valof w, t, valof_lt w, ht, by rwa [bitsof_valof]⟩

theorem Took.rest {w a : Bits} {s t : State} (h : Took w s t) (hu : unread s = w ++ a) : unread t = a := by
  have := h.bits
  rw [hu] at this
  exact (List.append_cancel_left this).symm

/-- A 1-D header that is cut short before its 113th bit. -/
theorem getHeader1_short {s : State} (h : ReaderOk s) (hl : (unread s).length < 113) :
    ∃ t, getHeader1 s = .raise .unexpectedEof t ∧ ReadFrame s t := by
  have key : ∀ {s : State} (n : Nat), ReaderOk s → getbits n s = .raise .unexpectedEof s ∨
      ∃ w t, w.length = n ∧ getbits n s = .ok (valof w) t ∧ Took w s t := fun n h => by
    rcases getbits_cases n h with ⟨_, h'⟩ | h'
    · exact .inl h'
    · exact .inr h'
  unfold getHeader1
  rcases key 32 h with e | ⟨w1, s1, l1, e1, k1⟩
  · exact ⟨s, by rw [e, Res.bind_raise], .refl s⟩
  rcases key 16 k1.ok with e | ⟨w2, s2, l2, e2, k2⟩
  · exact ⟨s1, by simp only [e1, e, Res.bind_ok, Res.bind_raise], k1.readFrame⟩
  have f2 := k1.trans k2
  rcases key 16 k2.ok with e | ⟨w3, s3, l3, e3, k3⟩
  · exact ⟨s2, by simp only [e1, e2, e, Res.bind_ok, Res.bind_raise], f2.readFrame⟩
  have f3 := f2.trans k3
  rcases key 32 k3.ok with e | ⟨w4, s4, l4, e4, k4⟩
  · exact ⟨s3, by simp only [e1, e2, e3, e, Res.bind_ok, Res.bind_raise], f3.readFrame⟩
  have f4 := f3.trans k4
  rcases key 16 k4.ok with e | ⟨w5, s5, l5, e5, k5⟩
  · exact ⟨s4, by simp only [e1, e2, e3, e4, e, Res.bind_ok, Res.bind_raise], f4.readFrame⟩
  have f5 := f4.trans k5
  rcases key 1 k5.ok with e | ⟨w6, s6, l6, e6, k6⟩
  · exact ⟨s5, by simp only [e1, e2, e3, e4, e5, e, Res.bind_ok, Res.bind_raise], f5.readFrame⟩
  have := congrArg List.length (f5.trans k6).bits
  simp only [List.length_append, l1, l2, l3, l4, l5, l6] at this
  omega

/-- The six fields every 1-D header begins with. -/
theorem getHeader1_fields {s : State} {sr nc bp ns m : Nat} {ad : Bool} {rest : Bits} (h : ReaderOk s)
    (hsr : sr < 2 ^ 32) (hnc : nc < 2 ^ 16) (hbp : bp < 2 ^ 16) (hns : ns < 2 ^ 32) (hm : m < 2 ^ 16)
    (hu : unread s = bitsof sr 32 ++ bitsof nc 16 ++ bitsof bp 16 ++ bitsof ns 32 ++ bitsof m 16 ++ [ad] ++ rest) :
    ∃ t, getHeader1 s = (if channelsOk nc then
        (getIcp nc t).bind fun ic s7 =>
          if m = 0 then .raise .invalidArgument s7 else .ok ⟨sr, nc, bp, ns, m, bitVal ad, ic⟩ s7
      else .raise .invalidArgument t) ∧
      Took (bitsof sr 32 ++ bitsof nc 16 ++ bitsof bp 16 ++ bitsof ns 32 ++ bitsof m 16 ++ [ad]) s t ∧
      unread t = rest := by
  simp only [List.append_assoc] at hu
  obtain ⟨s1, e1, k1, u1⟩ := getbits_field h hsr hu
  obtain ⟨s2, e2, k2, u2⟩ := getbits_field k1.ok hnc u1
  obtain ⟨s3, e3, k3, u3⟩ := getbits_field k2.ok hbp u2
  obtain ⟨s4, e4, k4, u4⟩ := getbits_field k3.ok hns u3
  obtain ⟨s5, e5, k5, u5⟩ := getbits_field k4.ok hm u4
  rw [← bitsof_one ad] at u5
  obtain ⟨s6, e6, k6, u6⟩ := getbits_field k5.ok (show bitVal ad < 2 ^ 1 from bitVal_lt ad) u5
  have hk := ((((k1.trans k2).trans k3).trans k4).trans k5).trans k6
  rw [bitsof_one] at hk
  refine ⟨s6, ?_, hk, u6⟩
  unfold getHeader1
  simp only [e1, e2, e3, e4, e5, e6, Res.bind_ok]

/-- Reading a 1-D header that is there. -/
theorem getHeader1_ok {s : State} {sr nc bp ns m : Nat} {ad ic : Bool} {rest : Bits} (h : ReaderOk s)
    (hsr : sr < 2 ^ 32) (hnc : nc = 1 ∨ nc = 2) (hbp : bp < 2 ^ 16) (hns : ns < 2 ^ 32) (hm : m < 2 ^ 16)
    (hu : unread s = header1 sr nc bp ns m ad ic ++ rest) :
    ∃ t, getHeader1 s = (if m = 0 then .raise .invalidArgument t
        else .ok ⟨sr, nc, bp, ns, m, bitVal ad, if nc = 2 then bitVal ic else 0⟩ t) ∧
      Took (header1 sr nc bp ns m ad ic) s t ∧ unread t = rest := by
  unfold header1 at hu ⊢
  rw [List.append_assoc] at hu
  obtain ⟨t, ht, k, u⟩ := getHeader1_fields h hsr (by omega) hbp hns hm hu
  rw [if_pos ((channelsOk_iff nc).2 hnc)] at ht
  unfold getIcp at ht
  by_cases h2 : nc = 2
  · rw [if_pos h2] at ht u
    rw [← bitsof_one ic] at u
    obtain ⟨t', ht', k', u'⟩ := getbits_field k.ok (show bitVal ic < 2 ^ 1 from bitVal_lt ic) u
    refine ⟨t', by rw [ht, ht', Res.bind_ok, if_pos h2], ?_, u'⟩
    have := k.trans k'
    rwa [bitsof_one, ← if_pos (c := nc = 2) (t := [ic]) (e := []) h2] at this
  · rw [if_neg h2] at ht u
    refine ⟨t, by rw [ht, Res.bind_ok, if_neg h2], ?_, u⟩
    rwa [if_neg h2, List.append_nil]

/-- A 1-D header whose channel count is refused. -/
theorem getHeader1_channels {s : State} {sr nc bp ns m : Nat} {ad ic : Bool} {rest : Bits} (h : ReaderOk s)
    (hsr : sr < 2 ^ 32) (hnc : nc < 2 ^ 16) (hno : ¬ (nc = 1 ∨ nc = 2)) (hbp : bp < 2 ^ 16) (hns : ns < 2 ^ 32)
    (hm : m < 2 ^ 16) (hu : unread s = header1 sr nc bp ns m ad ic ++ rest) :
    ∃ t, getHeader1 s = .raise .invalidArgument t ∧ ReadFrame s t := by
  unfold header1 at hu
  rw [List.append_assoc] at hu
  obtain ⟨t, ht, k, _⟩ := getHeader1_fields h hsr hnc hbp hns hm hu
  exact ⟨t, by rw [ht, if_neg]; rwa [channelsOk_iff], k.readFrame⟩

/-- A stereo header without its last bit. -/
theorem getHeader1_noIcp {s : State} {sr bp ns m : Nat} {ad : Bool} (h : ReaderOk s) (hsr : sr < 2 ^ 32)
    (hbp : bp < 2 ^ 16) (hns : ns < 2 ^ 32) (hm : m < 2 ^ 16)
    (hu : unread s = bitsof sr 32 ++ bitsof 2 16 ++ bitsof bp 16 ++ bitsof ns 32 ++ bitsof m 16 ++ [ad]) :
    ∃ t, getHeader1 s = .raise .unexpectedEof t ∧ ReadFrame s t := by
  obtain ⟨t, ht, k, u⟩ := getHeader1_fields h hsr (by omega) hbp hns hm (hu.trans (List.append_nil _).symm)
  refine ⟨t, ?_, k.readFrame⟩
  rw [ht, if_pos (by decide), getIcp, if_pos rfl, getbits_short k.ok (by rw [u]; decide), Res.bind_raise]

/-- A 2-D header that is cut short. -/
theorem getHeader2_short {s : State} (h : ReaderOk s) (hl : (unread s).length < 88) :
    ∃ t, getHeader2 s = .raise .unexpectedEof t ∧ ReadFrame s t := by
  have key : ∀ {s : State} (n : Nat), ReaderOk s → getbits n s = .raise .unexpectedEof s ∨
      ∃ w t, w.length = n ∧ getbits n s = .ok (valof w) t ∧ Took w s t := fun n h => by
    rcases getbits_cases n h with ⟨_, h'⟩ | h'
    · exact .inl h'
    · exact .inr h'
  unfold getHeader2
  rcases key 32 h with e | ⟨w1, s1, l1, e1, k1⟩
  · exact ⟨s, by rw [e, Res.bind_raise], .refl s⟩
  rcases key 32 k1.ok with e | ⟨w2, s2, l2, e2, k2⟩
  · exact ⟨s1, by simp only [e1, e, Res.bind_ok, Res.bind_raise], k1.readFrame⟩
  have f2 := k1.trans k2
  rcases key 16 k2.ok with e | ⟨w3, s3, l3, e3, k3⟩
  · exact ⟨s2, by simp only [e1, e2, e, Res.bind_ok, Res.bind_raise], f2.readFrame⟩
  have f3 := f2.trans k3
  rcases key 8 k3.ok with e | ⟨w4, s4, l4, e4, k4⟩
  · exact ⟨s3, by simp only [e1, e2, e3, e, Res.bind_ok, Res.bind_raise], f3.readFrame⟩
  have := congrArg List.length (f3.trans k4).bits
  simp only [List.length_append, l1, l2, l3, l4] at this
  omega

/-- Reading a 2-D header that is there. -/
theorem getHeader2_ok {s : State} {rw cl m pm : Nat} {rest : Bits} (h : ReaderOk s) (hrw : rw < 2 ^ 32)
    (hcl : cl < 2 ^ 32) (hm : m < 2 ^ 16) (hpm : pm < 2 ^ 8) (hu : unread s = header2 rw cl m pm ++ rest) :
    ∃ t, getHeader2 s = (if m ≠ 0 ∧ geomOk rw cl pm s.lineDepth then .ok ⟨rw, cl, m, pm⟩ t
        else .raise .invalidArgument t) ∧ Took (header2 rw cl m pm) s t ∧ unread t = rest := by
  simp only [header2, List.append_assoc] at hu
  obtain ⟨s1, e1, k1, u1⟩ := getbits_field h hrw hu
  obtain ⟨s2, e2, k2, u2⟩ := getbits_field k1.ok hcl u1
  obtain ⟨s3, e3, k3, u3⟩ := getbits_field k2.ok hm u2
  obtain ⟨s4, e4, k4, u4⟩ := getbits_field k3.ok hpm u3
  have hk := ((k1.trans k2).trans k3).trans k4
  have hd : s4.lineDepth = s.lineDepth := by rw [hk.frame]
  refine ⟨s4, ?_, by simpa [header2] using hk, u4⟩
  unfold getHeader2
  simp only [e1, e2, e3, e4, Res.bind_ok, hd]

/-- Everything reading a 1-D header can do (45_codec1d.md R260). -/
theorem getHeader1_cases {s : State} (h : ReaderOk s) :
    (∃ t, ReadFrame s t ∧ (getHeader1 s = .raise .unexpectedEof t ∨ getHeader1 s = .raise .invalidArgument t)) ∨
    ∃ sr nc bp ns m ad ic t, sr < 2 ^ 32 ∧ (nc = 1 ∨ nc = 2) ∧ bp < 2 ^ 16 ∧ ns < 2 ^ 32 ∧ m < 2 ^ 16 ∧ m ≠ 0 ∧
      getHeader1 s = .ok ⟨sr, nc, bp, ns, m, bitVal ad, if nc = 2 then bitVal ic else 0⟩ t ∧
      Took (header1 sr nc bp ns m ad ic) s t := by
  have hbit : ∀ v, v < 2 ^ 1 → ∃ x, v = bitVal x := fun v hv => by
    rcases (show v = 0 ∨ v = 1 by omega) with rfl | rfl
    · exact ⟨false, rfl⟩
    · exact ⟨true, rfl⟩
  have key : ∀ {s : State} (n : Nat), ReaderOk s → getbits n s = .raise .unexpectedEof s ∨
      ∃ v t, v < 2 ^ n ∧ getbits n s = .ok v t ∧ Took (bitsof v n) s t := fun n h => by
    rcases getbits_field_cases n h with ⟨_, h'⟩ | h'
    · exact .inl h'
    · exact .inr h'
  unfold getHeader1
  rcases key 32 h with e | ⟨sr, s1, l1, e1, k1⟩
  · exact .inl ⟨s, .refl s, .inl (by rw [e, Res.bind_raise])⟩
  rcases key 16 k1.ok with e | ⟨nc, s2, l2, e2, k2⟩
  · exact .inl ⟨s1, k1.readFrame, .inl (by simp only [e1, e, Res.bind_ok, Res.bind_raise])⟩
  have f2 := k1.trans k2
  rcases key 16 k2.ok with e | ⟨bp, s3, l3, e3, k3⟩
  · exact .inl ⟨s2, f2.readFrame, .inl (by simp only [e1, e2, e, Res.bind_ok, Res.bind_raise])⟩
  have f3 := f2.trans k3
  rcases key 32 k3.ok with e | ⟨ns, s4, l4, e4, k4⟩
  · exact .inl ⟨s3, f3.readFrame, .inl (by simp only [e1, e2, e3, e, Res.bind_ok, Res.bind_raise])⟩
  have f4 := f3.trans k4
  rcases key 16 k4.ok with e | ⟨m, s5, l5, e5, k5⟩
  · exact .inl ⟨s4, f4.readFrame, .inl (by simp only [e1, e2, e3, e4, e, Res.bind_ok, Res.bind_raise])⟩
  have f5 := f4.trans k5
  rcases key 1 k5.ok with e | ⟨ad, s6, l6, e6, k6⟩
  · exact .inl ⟨s5, f5.readFrame, .inl (by simp only [e1, e2, e3, e4, e5, e, Res.bind_ok, Res.bind_raise])⟩
  have f6 := f5.trans k6
  obtain ⟨ad, rfl⟩ := hbit ad l6
  simp only [e1, e2, e3, e4, e5, e6, Res.bind_ok]
  by_cases hnc : nc = 1 ∨ nc = 2
  · simp only [(channelsOk_iff nc).2 hnc, if_true, getIcp]
    by_cases h2 : nc = 2
    · rw [if_pos h2]
      rcases key 1 k6.ok with e | ⟨ic, s7, l7, e7, k7⟩
      · exact .inl ⟨s6, f6.readFrame, .inl (by rw [e, Res.bind_raise])⟩
      obtain ⟨ic, rfl⟩ := hbit ic l7
      have f7 := f6.trans k7
      by_cases hm : m = 0
      · exact .inl ⟨s7, f7.readFrame, .inr (by rw [e7, Res.bind_ok, if_pos hm])⟩
      · refine .inr ⟨sr, nc, bp, ns, m, ad, ic, s7, l1, hnc, l3, l4, l5, hm, ?_, ?_⟩
        · rw [e7, Res.bind_ok, if_neg hm, if_pos h2]
        · rw [bitsof_one, bitsof_one] at f7
          simpa [header1, h2] using f7
    · rw [if_neg h2]
      by_cases hm : m = 0
      · exact .inl ⟨s6, f6.readFrame, .inr (by rw [Res.bind_ok, if_pos hm])⟩
      · refine .inr ⟨sr, nc, bp, ns, m, ad, false, s6, l1, hnc, l3, l4, l5, hm, ?_, ?_⟩
        · rw [Res.bind_ok, if_neg hm, if_neg h2]
        · rw [bitsof_one] at f6
          simpa [header1, h2] using f6
  · have hno : channelsOk nc = false := by rw [← Bool.not_eq_true, channelsOk_iff]; exact hnc
    exact .inl ⟨s6, f6.readFrame, .inr (by simp [hno])⟩

/-- Everything reading a 2-D header can do (46_codec2d.md R290). -/
theorem getHeader2_cases {s : State} (h : ReaderOk s) :
    (∃ t, ReadFrame s t ∧ (getHeader2 s = .raise .unexpectedEof t ∨ getHeader2 s = .raise .invalidArgument t)) ∨
    ∃ rw cl m pm t, rw < 2 ^ 32 ∧ cl < 2 ^ 32 ∧ m < 2 ^ 16 ∧ pm < 2 ^ 8 ∧ m ≠ 0 ∧
      geomOk rw cl pm s.lineDepth = true ∧ getHeader2 s = .ok ⟨rw, cl, m, pm⟩ t ∧ Took (header2 rw cl m pm) s t := by
  have key : ∀ {s : State} (n : Nat), ReaderOk s → getbits n s = .raise .unexpectedEof s ∨
      ∃ v t, v < 2 ^ n ∧ getbits n s = .ok v t ∧ Took (bitsof v n) s t := fun n h => by
    rcases getbits_field_cases n h with ⟨_, h'⟩ | h'
    · exact .inl h'
    · exact .inr h'
  unfold getHeader2
  rcases key 32 h with e | ⟨rw', s1, l1, e1, k1⟩
  · exact .inl ⟨s, .refl s, .inl (by rw [e, Res.bind_raise])⟩
  rcases key 32 k1.ok with e | ⟨cl, s2, l2, e2, k2⟩
  · exact .inl ⟨s1, k1.readFrame, .inl (by simp only [e1, e, Res.bind_ok, Res.bind_raise])⟩
  have f2 := k1.trans k2
  rcases key 16 k2.ok with e | ⟨m, s3, l3, e3, k3⟩
  · exact .inl ⟨s2, f2.readFrame, .inl (by simp only [e1, e2, e, Res.bind_ok, Res.bind_raise])⟩
  have f3 := f2.trans k3
  rcases key 8 k3.ok with e | ⟨pm, s4, l4, e4, k4⟩
  · exact .inl ⟨s3, f3.readFrame, .inl (by simp only [e1, e2, e3, e, Res.bind_ok, Res.bind_raise])⟩
  have f4 := f3.trans k4
  have hd : s4.lineDepth = s.lineDepth := by rw [f4.frame]
  simp only [e1, e2, e3, e4, Res.bind_ok, hd]
  by_cases hg : m ≠ 0 ∧ geomOk rw' cl pm s.lineDepth = true
  · refine .inr ⟨rw', cl, m, pm, s4, l1, l2, l3, l4, hg.1, hg.2, by rw [if_pos hg], ?_⟩
    simpa [header2] using f4
  · exact .inl ⟨s4, f4.readFrame, .inr (by rw [if_neg hg])⟩

/-! ### The sequencers -/

/-- `s1advance` before the last sample of a channel (45_codec1d.md R256). -/
theorem s1advance_within {s : State} (x : Int) (h : s.idx + 1 ≠ s.nsamp) :
    s1advance x s = { hpush x s with idx := s.idx + 1 } := by
  unfold s1advance
  exact if_neg h

/-- `s1advance` at the last sample of the left channel of a stereo stream. -/
theorem s1advance_channel {s : State} (x : Int) (h : s.idx + 1 = s.nsamp) (hc : s.ch = 0) (hn : s.nch = 2) :
    s1advance x s = hreset { s with ch := 1, idx := 0 } := by
  unfold s1advance
  exact (if_pos h).trans (if_pos ⟨hc, hn⟩)

/-- `s1advance` at the last sample of the stream. -/
theorem s1advance_end {s : State} (x : Int) (h : s.idx + 1 = s.nsamp) (hc : ¬ (s.ch = 0 ∧ s.nch = 2)) :
    s1advance x s = { hpush x s with phase := .idle, ch := 0, idx := 0 } := by
  unfold s1advance
  exact (if_pos h).trans (if_neg hc)

/-- `s2advance` within a row (46_codec2d.md R283, 44_predictors.md R231). -/
theorem s2advance_within {s : State} (x : Byte) (hd : s.col.toNat < s.lineDepth) (hc : s.col + 1 ≠ s.cols)
    (hr : s.row ≠ s.rows) :
    s2advance x s = .ok () { s with
      line := s.line.write s.col.toNat x, creg := s.line.read s.col.toNat, areg := x, col := s.col + 1 } := by
  rw [s2advance, p2push_eq x hd, Res.bind_ok]
  simp only [nextPosition]
  rw [if_neg hc]
  simp [hr]

/-- `s2advance` at the end of a row that is not the last. -/
theorem s2advance_row {s : State} (x : Byte) (hd : s.col.toNat < s.lineDepth) (hc : s.col + 1 = s.cols)
    (hr : s.row + 1 ≠ s.rows) :
    s2advance x s = .ok () { s with
      line := s.line.write s.col.toNat x, creg := 0, areg := 0, col := 0, row := s.row + 1 } := by
  rw [s2advance, p2push_eq x hd, Res.bind_ok]
  simp only [nextPosition]
  rw [if_pos hc]
  simp only [decide_eq_false hr, Bool.false_eq_true, if_false]

/-- `s2advance` at the last pixel of the plane. -/
theorem s2advance_end {s : State} (x : Byte) (hd : s.col.toNat < s.lineDepth) (hc : s.col + 1 = s.cols)
    (hr : s.row + 1 = s.rows) :
    s2advance x s = .ok () { s with
      line := s.line.write s.col.toNat x, creg := 0, areg := 0, col := 0, row := 0, phase := .idle } := by
  rw [s2advance, p2push_eq x hd, Res.bind_ok]
  simp only [nextPosition]
  rw [if_pos hc]
  simp only [decide_eq_true hr, if_true]

/-- The operand checks of RSD1 and ENC1 where they pass. -/
theorem residual1_ok {opa opb : Word} {s : State} (h : isSample (s32 opa) = true)
    (hr : needref s = true → isSample (s32 opb) = true) :
    residual1 opa opb s = .ok (s32 opa - p1sel (s32 opb) s) s := by
  unfold residual1
  rw [if_neg (by simp [h]), if_neg]
  rintro ⟨h1, h2⟩
  exact h2 (hr h1)

/-- The prediction the 1-D codec uses is within 17 bits and a sign (45_codec1d.md R253). -/
theorem p1sel_range {ref : Int} (s : State) (hr : needref s = true → isSample ref = true) :
    -98303 ≤ p1sel ref s ∧ p1sel ref s ≤ 98302 := by
  unfold p1sel
  split
  · rename_i h
    have := (isSample_iff _).1 (pic_range s (hr h))
    omega
  · exact pt_two_range s

/-- The pixel check of RSD2 and ENC2 where it passes. -/
theorem residual2_ok {opa : Word} {s : State} (h : isPixel opa = true) (hd : s.col.toNat < s.lineDepth) :
    residual2 opa s = .ok (opa.toNat - spatial s.pmode.toNat s.row.toNat s.col.toNat s.areg.toNat
      (s.line.read s.col.toNat).toNat s.creg.toNat) s := by
  rw [residual2, if_pos h, ps_eq hd, Res.bind_ok]

end Sys2Proof.Machine
end

