-- ==== Sys2Proof/Laws/PerInstr.lean ====
section
/-! SUPPORT. The laws stated per instruction: what the command word of every instruction holds (30_encoding.md R101 to
R103). -/

namespace Sys2Proof.Laws

/-- The command word of an instruction holds its opcode, zeros, and its immediate. -/
def EncodedFields.Statement (i : Instr) : Prop :=
  opcOf (encode i).cmd = opcode i ∧ rsvdOf (encode i).cmd = 0 ∧ immOf (encode i).cmd = imm8 i

/-- The fields of a word put together from an opcode and an immediate. -/
theorem fields_of_word (o k : BitVec 8) : opcOf (o ++ ((0 : BitVec 16) ++ k)) = o ∧
    rsvdOf (o ++ ((0 : BitVec 16) ++ k)) = 0 ∧ immOf (o ++ ((0 : BitVec 16) ++ k)) = k := by
  refine ⟨?_, ?_, ?_⟩ <;> (apply BitVec.eq_of_getLsbD_eq; intro i hi)
  · simp only [opcOf, BitVec.getLsbD_extractLsb', BitVec.getLsbD_append]
    simp [hi, show ¬ 24 + i < 24 by omega]
  · simp only [rsvdOf, BitVec.getLsbD_extractLsb', BitVec.getLsbD_append]
    simp [hi, show 8 + i < 24 by omega]
  · simp only [immOf, BitVec.getLsbD_extractLsb', BitVec.getLsbD_append]
    simp [hi, show i < 24 by omega]

theorem EncodedFields.nop : EncodedFields.Statement .nop := fields_of_word _ _

theorem EncodedFields.reset : EncodedFields.Statement .reset := fields_of_word _ _

theorem EncodedFields.rdreg (r : Reg) : EncodedFields.Statement (.rdreg r) := fields_of_word _ _

theorem EncodedFields.wrreg (r : Reg) (opa : Word) : EncodedFields.Statement (.wrreg r opa) := fields_of_word _ _

theorem EncodedFields.openw : EncodedFields.Statement .openw := fields_of_word _ _

theorem EncodedFields.openr : EncodedFields.Statement .openr := fields_of_word _ _

theorem EncodedFields.close : EncodedFields.Statement .close := fields_of_word _ _

theorem EncodedFields.putbit (opa : Word) : EncodedFields.Statement (.putbit opa) := fields_of_word _ _

theorem EncodedFields.putbits (n : BitVec 8) (opa : Word) : EncodedFields.Statement (.putbits n opa) := fields_of_word _ _

theorem EncodedFields.getbit : EncodedFields.Statement .getbit := fields_of_word _ _

theorem EncodedFields.getbits (n : BitVec 8) : EncodedFields.Statement (.getbits n) := fields_of_word _ _

theorem EncodedFields.setm (opa : Word) : EncodedFields.Statement (.setm opa) := fields_of_word _ _

theorem EncodedFields.encu (opa : Word) : EncodedFields.Statement (.encu opa) := fields_of_word _ _

theorem EncodedFields.decu : EncodedFields.Statement .decu := fields_of_word _ _

theorem EncodedFields.encz (opa : Word) : EncodedFields.Statement (.encz opa) := fields_of_word _ _

theorem EncodedFields.decz : EncodedFields.Statement .decz := fields_of_word _ _

theorem EncodedFields.encs (opa : Word) : EncodedFields.Statement (.encs opa) := fields_of_word _ _

theorem EncodedFields.decs : EncodedFields.Statement .decs := fields_of_word _ _

theorem EncodedFields.estclr : EncodedFields.Statement .estclr := fields_of_word _ _

theorem EncodedFields.estacc (opa : Word) : EncodedFields.Statement (.estacc opa) := fields_of_word _ _

theorem EncodedFields.est1d : EncodedFields.Statement .est1d := fields_of_word _ _

theorem EncodedFields.est2d : EncodedFields.Statement .est2d := fields_of_word _ _

theorem EncodedFields.p1rst : EncodedFields.Statement .p1rst := fields_of_word _ _

theorem EncodedFields.p1push (opa : Word) : EncodedFields.Statement (.p1push opa) := fields_of_word _ _

theorem EncodedFields.p1pred (k : BitVec 8) (opa : Word) : EncodedFields.Statement (.p1pred k opa) := fields_of_word _ _

theorem EncodedFields.p2pred : EncodedFields.Statement .p2pred := fields_of_word _ _

theorem EncodedFields.begin1a : EncodedFields.Statement .begin1a := fields_of_word _ _

theorem EncodedFields.rsd1 (opa opb : Word) : EncodedFields.Statement (.rsd1 opa opb) := fields_of_word _ _

theorem EncodedFields.wrhdr1 : EncodedFields.Statement .wrhdr1 := fields_of_word _ _

theorem EncodedFields.enc1 (opa opb : Word) : EncodedFields.Statement (.enc1 opa opb) := fields_of_word _ _

theorem EncodedFields.rdhdr1 : EncodedFields.Statement .rdhdr1 := fields_of_word _ _

theorem EncodedFields.dec1 (opa : Word) : EncodedFields.Statement (.dec1 opa) := fields_of_word _ _

theorem EncodedFields.begin2a : EncodedFields.Statement .begin2a := fields_of_word _ _

theorem EncodedFields.rsd2 (opa : Word) : EncodedFields.Statement (.rsd2 opa) := fields_of_word _ _

theorem EncodedFields.wrhdr2 : EncodedFields.Statement .wrhdr2 := fields_of_word _ _

theorem EncodedFields.enc2 (opa : Word) : EncodedFields.Statement (.enc2 opa) := fields_of_word _ _

theorem EncodedFields.rdhdr2 : EncodedFields.Statement .rdhdr2 := fields_of_word _ _

theorem EncodedFields.dec2 : EncodedFields.Statement .dec2 := fields_of_word _ _

end Sys2Proof.Laws
end

