-- ==== Sys2Proof/Tests/Slice0.lean ====
section
/-! SUPPORT. Tests of the model: well-formedness, every command's decoding from a word written out from the spec's
encoding table, single steps with the spec's own expected results, and for every statement with hypotheses a witness that
meets them. -/

namespace Sys2Proof.Tests

set_option Elab.async false

open Sys2Proof.Machine

/-! ### Well-formedness (30_encoding.md R104) -/

theorem test_wellFormed_refuses_readOnly_register : (Instr.wrreg .m 5).wellFormed = false := rfl
theorem test_wellFormed_refuses_33_bits_written : (Instr.putbits 33 0).wellFormed = false := rfl
theorem test_wellFormed_refuses_33_bits_read : (Instr.getbits 33).wellFormed = false := rfl
theorem test_wellFormed_refuses_predictor_0 : (Instr.p1pred 0 0).wellFormed = false := rfl
theorem test_wellFormed_refuses_predictor_5 : (Instr.p1pred 5 0).wellFormed = false := rfl

/-! ### Decoding (30_encoding.md R103 to R106) -/

theorem test_decode_system :
    decode ⟨0x00000000, 7, 7⟩ = .ok .nop ∧ decode ⟨0x01000000, 0, 0⟩ = .ok .reset ∧
    decode ⟨0x02000001, 0, 0⟩ = .ok (.rdreg .m) ∧ decode ⟨0x0200001C, 0, 0⟩ = .ok (.rdreg .creg) ∧
    decode ⟨0x03000009, 2, 0⟩ = .ok (.wrreg .nch 2) := ⟨rfl, rfl, rfl, rfl, rfl⟩

theorem test_decode_channel :
    decode ⟨0x10000000, 0, 0⟩ = .ok .openw ∧ decode ⟨0x11000000, 0, 0⟩ = .ok .openr ∧
    decode ⟨0x12000000, 0, 0⟩ = .ok .close ∧ decode ⟨0x13000000, 1, 0⟩ = .ok (.putbit 1) ∧
    decode ⟨0x14000020, 5, 0⟩ = .ok (.putbits 32 5) ∧ decode ⟨0x15000000, 0, 0⟩ = .ok .getbit ∧
    decode ⟨0x16000008, 0, 0⟩ = .ok (.getbits 8) := ⟨rfl, rfl, rfl, rfl, rfl, rfl, rfl⟩

theorem test_decode_golomb :
    decode ⟨0x20000000, 4, 0⟩ = .ok (.setm 4) ∧ decode ⟨0x21000000, 9, 0⟩ = .ok (.encu 9) ∧
    decode ⟨0x22000000, 0, 0⟩ = .ok .decu ∧ decode ⟨0x23000000, 0xFFFFFFFD, 0⟩ = .ok (.encz 0xFFFFFFFD) ∧
    decode ⟨0x24000000, 0, 0⟩ = .ok .decz ∧ decode ⟨0x25000000, 3, 0⟩ = .ok (.encs 3) ∧
    decode ⟨0x26000000, 0, 0⟩ = .ok .decs := ⟨rfl, rfl, rfl, rfl, rfl, rfl, rfl⟩

theorem test_decode_estimator :
    decode ⟨0x30000000, 0, 0⟩ = .ok .estclr ∧ decode ⟨0x31000000, 0xFFFFFFF9, 0⟩ = .ok (.estacc 0xFFFFFFF9) ∧
    decode ⟨0x32000000, 0, 0⟩ = .ok .est1d ∧ decode ⟨0x33000000, 0, 0⟩ = .ok .est2d := ⟨rfl, rfl, rfl, rfl⟩

theorem test_decode_predictors :
    decode ⟨0x40000000, 0, 0⟩ = .ok .p1rst ∧ decode ⟨0x41000000, 0x64, 0⟩ = .ok (.p1push 100) ∧
    decode ⟨0x42000004, 0xFFFFFF8D, 0⟩ = .ok (.p1pred 4 0xFFFFFF8D) ∧ decode ⟨0x43000000, 0, 0⟩ = .ok .p2pred :=
  ⟨rfl, rfl, rfl, rfl⟩

theorem test_decode_codec1d :
    decode ⟨0x50000000, 0, 0⟩ = .ok .begin1a ∧ decode ⟨0x51000000, 5, 6⟩ = .ok (.rsd1 5 6) ∧
    decode ⟨0x52000000, 0, 0⟩ = .ok .wrhdr1 ∧ decode ⟨0x53000000, 5, 6⟩ = .ok (.enc1 5 6) ∧
    decode ⟨0x54000000, 0, 0⟩ = .ok .rdhdr1 ∧ decode ⟨0x55000000, 6, 0⟩ = .ok (.dec1 6) :=
  ⟨rfl, rfl, rfl, rfl, rfl, rfl⟩

theorem test_decode_codec2d :
    decode ⟨0x60000000, 0, 0⟩ = .ok .begin2a ∧ decode ⟨0x61000000, 0x64, 0⟩ = .ok (.rsd2 100) ∧
    decode ⟨0x62000000, 0, 0⟩ = .ok .wrhdr2 ∧ decode ⟨0x63000000, 0x64, 0⟩ = .ok (.enc2 100) ∧
    decode ⟨0x64000000, 0, 0⟩ = .ok .rdhdr2 ∧ decode ⟨0x65000000, 0, 0⟩ = .ok .dec2 :=
  ⟨rfl, rfl, rfl, rfl, rfl, rfl⟩

theorem test_decode_refuses :
    decode ⟨0xFFFFFFFF, 0, 0⟩ = .error .reservedBits ∧ decode ⟨0x04000000, 0, 0⟩ = .error .unassignedOpcode ∧
    decode ⟨0x00000001, 0, 0⟩ = .error .immNotZero ∧ decode ⟨0x02000006, 0, 0⟩ = .error .immOutOfRange ∧
    decode ⟨0x03000001, 0, 0⟩ = .error .immOutOfRange ∧ decode ⟨0x14000021, 0, 0⟩ = .error .immOutOfRange ∧
    decode ⟨0x42000000, 0, 0⟩ = .error .immOutOfRange := ⟨rfl, rfl, rfl, rfl, rfl, rfl, rfl⟩

/-- The numbering of the triple: `OPA` lies above `CMD`, `OPB` above `OPA` (notes/assumptions/10.md). -/
theorem test_decodeTableWord :
    decodeTableWord 96 0x000000060000000553000000 = some (.enc1 5 6) ∧
    decodeTableWord 32 0x0000000553000000 = some (.enc1 0 0) := ⟨rfl, rfl⟩

/-! ### Small states -/

/-- The state a command leaves. -/
def after (i : Instr) (s : State) : State :=
  match exec i s with
  | .next t => t
  | _ => s

/-- A fresh writer on a sink without bound. -/
def writer : State := { State.reset with mode := .write, sinkCap := none }

/-- A fresh reader. -/
def reader (data : List Byte) : State := { State.reset with mode := .read, inp := data }

/-- A writer with seven bits pending and a sink that takes no byte. -/
def fullWriter : State := { State.reset with mode := .write, sinkCap := some 0, nbits := 7, acc := 0xFE }

/-- The parameter `M = 5`: `B = 3`, `CUTOFF = 3` (10_state.md R29). -/
def withM5 (s : State) : State := { s with m := 5, b := 3, cutoff := 3 }

/-- The parameter `M = 4`: `B = 2`, `CUTOFF = 0`. -/
def withM4 (s : State) : State := { s with m := 4, b := 2, cutoff := 0 }

/-- The parameter `M = 3`: `B = 2`, `CUTOFF = 1`. -/
def withM3 (s : State) : State := { s with m := 3, b := 2, cutoff := 1 }

/-- A mono stream of one sample, in a phase. -/
def mono (p : Phase) (s : State) : State := { s with nch := 1, nsamp := 1, phase := p }

/-- The last sample of the right channel, predicted from the left one, in a phase. -/
def stereo (p : Phase) (s : State) : State := { s with nch := 2, nsamp := 1, flags := 2, ch := 1, phase := p }

/-- The last pixel of a plane of one row and one column, in a phase. -/
def plane (p : Phase) (s : State) : State := { s with rows := 1, cols := 1, phase := p }

/-- Position (1, 1) of a plane of two rows and two columns, the neighbours those of 44_predictors.md R237's example. -/
def inside (pm : BitVec 8) (s : State) : State :=
  { s with rows := 2, cols := 2, phase := .s2anl, row := 1, col := 1, pmode := pm,
           areg := 10, creg := 30, line := [(0, 10), (1, 20)] }

/-- A transaction with the standard inputs as the next event. -/
def issue (w : Words) (s : State) : State := { s with pending := [.transact ⟨w, Env.standard⟩] }

/-- The faulted state after an I/O error. -/
def broken : State := { State.reset with cause := some .ioError }

/-! ### Single steps with the spec's results -/

/-- 40_system.md R142's example. -/
theorem test_rdreg_m_after_reset : (after (.rdreg .m) State.reset).resp = some (.ok 1) := rfl

/-- 40_system.md R143's examples. -/
theorem test_wrreg_nch : (after (.wrreg .nch 2) State.reset).nch = 2 := rfl
theorem test_wrreg_flags_too_wide : (after (.wrreg .flags 4) State.reset).resp = some (.fault .invalidArgument) := rfl

/-- 41_bitchannel.md R155's and R156's examples. -/
theorem test_openw_status : statusWord (after .openw State.reset) = 0x10 := rfl
theorem test_openr_status : statusWord (after .openr State.reset) = 0x20 := rfl

/-- 41_bitchannel.md R157's example. -/
theorem test_putbits_3_5 : (after (.putbits 3 5) writer).acc = 0xA0 ∧ (after (.putbits 3 5) writer).nbits = 3 :=
  ⟨rfl, rfl⟩
theorem test_close_pushes : (after .close { writer with acc := 0xA0, nbits := 3 }).out = [0xA0] := rfl

/-- 41_bitchannel.md R162's example. -/
theorem test_getbit : (after .getbit (reader [0x80])).resp = some (.ok 1) := rfl
theorem test_getbit_end : (after .getbit (reader [])).resp = some .eod := rfl

/-- 41_bitchannel.md R163's example. -/
theorem test_getbits_12 : (after (.getbits 12) (reader [0xAB, 0xCD])).resp = some (.ok 0xABC) := rfl
theorem test_getbits_12_registers : (after (.getbits 12) (reader [0xAB, 0xCD])).acc = 0xCD ∧
    (after (.getbits 12) (reader [0xAB, 0xCD])).nbits = 4 ∧ (after (.getbits 12) (reader [0xAB, 0xCD])).rpos = 2 :=
  ⟨rfl, rfl, rfl⟩

/-- 10_state.md R29's example. -/
theorem test_setm_65535 : (after (.setm 65535) State.reset).b = 16 ∧ (after (.setm 65535) State.reset).cutoff = 1 :=
  ⟨rfl, rfl⟩

/-- 45_codec1d.md R259's codeword: `cw(4, 10) = "00110"`. -/
theorem test_encu_10 : (after (.encu 10) (withM4 writer)).acc = 0x30 ∧ (after (.encu 10) (withM4 writer)).nbits = 5 :=
  ⟨rfl, rfl⟩
theorem test_decu_10 : (after .decu (withM4 (reader [0x30]))).resp = some (.ok 10) := rfl
theorem test_decz_10 : (after .decz (withM4 (reader [0x30]))).resp = some (.ok 5) := rfl

/-- A negative zero is 0 (30_encoding.md R115). -/
theorem test_decs_negative_zero : (after .decs (reader [0xC0])).resp = some (.ok 0) := rfl

/-- 43_estimator.md R202's, R207's and R211's examples. -/
theorem test_estacc_extreme : (after (.estacc 0x80000000) State.reset).sum = 0x80000000 := rfl
theorem test_est1d : (after .est1d { State.reset with sum := 1, cnt := 10 }).resp = some (.ok 7) := by decide +kernel
theorem test_est2d : (after .est2d { State.reset with sum := 10, cnt := 1 }).resp = some (.ok 7) := by decide +kernel

/-- 44_predictors.md R236's and R237's examples. -/
theorem test_p1pred_2 : (after (.p1pred 2 0) { State.reset with h1 := 110, h2 := 100, hcnt := 2 }).resp =
    some (.ok 120) := rfl
theorem test_p1pred_4 : (after (.p1pred 4 0xFFFFFF8D) { State.reset with h1 := 110, h2 := 100, hcnt := 2 }).resp =
    some (.ok 0xFFFFFFFE) := rfl
theorem test_p2pred_median : (after .p2pred (inside 4 State.reset)).resp = some (.ok 10) := rfl
theorem test_p2pred_plane : (after .p2pred (inside 3 State.reset)).resp = some (.ok 0) := rfl

/-- 45_codec1d.md R251's, R257's, R259's and R261's examples. -/
theorem test_begin1a : statusWord (after .begin1a { State.reset with nch := 1, nsamp := 4 }) = 0x100 := rfl
theorem test_rsd1_third : (after (.rsd1 10 0) { State.reset with
    nch := 1, nsamp := 4, idx := 2, phase := .s1anl, h1 := 7, h2 := 5, hcnt := 2 }).resp = some (.ok 1) := rfl
theorem test_enc1 : (after (.enc1 5 0) (mono .s1enc (withM4 writer))).acc = 0x30 ∧
    (after (.enc1 5 0) (mono .s1enc (withM4 writer))).phase = .idle := ⟨rfl, rfl⟩
theorem test_dec1 : (after (.dec1 0) (mono .s1dec (withM4 (reader [0x30])))).resp = some (.ok 5) := rfl

/-- 45_codec1d.md R258's and R260's examples. -/
theorem test_wrhdr1 : (after .wrhdr1 { withM4 writer with srate := 8000, nch := 1, bps := 16, nsamp := 3 }).out =
    [0, 0, 0x1F, 0x40, 0, 1, 0, 0x10, 0, 0, 0, 3, 0, 4] := by decide +kernel
theorem test_rdhdr1 :
    (after .rdhdr1 (reader [0, 0, 0x1F, 0x40, 0, 1, 0, 0x10, 0, 0, 0, 3, 0, 4, 0x1B, 0])).srate = 8000 ∧
    (after .rdhdr1 (reader [0, 0, 0x1F, 0x40, 0, 1, 0, 0x10, 0, 0, 0, 3, 0, 4, 0x1B, 0])).nbits = 7 := by
  decide +kernel

/-- 46_codec2d.md R289's and R291's examples. -/
theorem test_rsd2 : (after (.rsd2 100) (plane .s2anl State.reset)).resp = some (.ok 0xFFFFFFE4) := rfl
theorem test_enc2 : (after (.enc2 100) (plane .s2enc (withM3 writer))).out = [0, 0] ∧
    (after (.enc2 100) (plane .s2enc (withM3 writer))).acc = 0x30 := by decide +kernel
theorem test_dec2 : (after .dec2 (plane .s2dec (withM3 (reader [0, 0, 0x30])))).resp = some (.ok 100) := by
  decide +kernel

/-- 46_codec2d.md R288's and R290's examples. -/
theorem test_wrhdr2 : (after .wrhdr2 { withM3 writer with rows := 2, cols := 3, pmode := 4 }).out =
    [0, 0, 0, 2, 0, 0, 0, 3, 0, 3, 4] := by decide +kernel
theorem test_rdhdr2 : (after .rdhdr2 (reader [0, 0, 0, 2, 0, 0, 0, 3, 0, 3, 4])).phase = .s2dec ∧
    (after .rdhdr2 (reader [0, 0, 0, 2, 0, 0, 0, 3, 0, 3, 4])).cutoff = 1 := by decide +kernel

/-- The first command after reset, from its table word. -/
theorem test_first_step : step (State.reset.withFetchWord 32 0x10000000) = exec .openw State.reset := rfl

/-! ### Witnesses: for every statement with hypotheses, states and operands that meet them -/

/-- A concrete state that is not faulted meets the invariant: what is left to check is decidable. -/
theorem ready_of {s : State} (hl : s.line.wf = true ∧ s.line.all (fun c => decide (c.1 < s.lineDepth)) = true)
    (hc : s.cause = none)
    (hk : 1 ≤ s.m.toNat ∧ s.b.toNat = clog2 s.m.toNat ∧ s.cutoff.toNat = cutoffOf s.m.toNat)
    (hclosed : s.mode = .closed → s.acc = 0 ∧ s.nbits = 0)
    (hw : s.mode = .write → s.nbits.toNat ≤ 7 ∧
      (byteBits s.acc).drop s.nbits.toNat = List.replicate (8 - s.nbits.toNat) false ∧ sinkFits s 0 = true)
    (hr : s.mode = .read → s.nbits.toNat ≤ 8 ∧ s.rpos ≤ s.inp.length ∧
      (s.rpos ≠ 0 → s.inp[s.rpos - 1]? = some s.acc) ∧ (s.rpos = 0 → s.acc = 0 ∧ s.nbits = 0))
    (hp : (s.phase = .s1enc ∨ s.phase = .s2enc → s.mode = .write) ∧
      (s.phase = .s1dec ∨ s.phase = .s2dec → s.mode = .read))
    (hh : (s.hcnt.toNat < 1 → s.h1 = 0) ∧ (s.hcnt.toNat < 2 → s.h2 = 0) ∧ (s.hcnt.toNat < 3 → s.h3 = 0))
    (hs : s.sum.toNat ≤ s.cnt.toNat * 2147483648)
    (h1 : (inPhase1 s = true → channelsOk s.nch.toNat = true ∧ s.idx.toNat < s.nsamp.toNat ∧ (s.ch = 1 → s.nch = 2)) ∧
      (inPhase1 s = false → s.ch = 0 ∧ s.idx = 0))
    (h2 : (inPhase2 s = true → geometryOk s = true ∧ s.row.toNat < s.rows.toNat ∧ s.col.toNat < s.cols.toNat) ∧
      (inPhase2 s = false → s.row = 0 ∧ s.col = 0) ∧ (inPhase2 s = true → s.col = 0 → s.areg = 0 ∧ s.creg = 0) ∧
      (inPhase2 s = true → s.col ≠ 0 → s.areg = s.line.read (s.col.toNat - 1))) : Ready s where
  healthy := hc
  inv :=
    { canonical := hl.1
      bounded := fun c h => of_decide_eq_true (List.all_eq_true.1 hl.2 c h)
      faulted := fun h => absurd hc h
      running := fun _ =>
        { coder := ⟨hk.1, hk.2.1, hk.2.2⟩
          closed := hclosed
          writer := fun h => ⟨(hw h).1, (hw h).2.1, (hw h).2.2⟩
          reader := fun h => ⟨(hr h).1, (hr h).2.1, (hr h).2.2.1, (hr h).2.2.2⟩
          encoding := hp.1
          decoding := hp.2
          history := ⟨hh.1, hh.2.1, hh.2.2⟩
          window := hs
          place1 := h1.1
          noPlace1 := h1.2
          place2 := h2.1
          noPlace2 := h2.2.1
          rowStart := h2.2.2.1
          leftOf := h2.2.2.2 } }

theorem ready_reset : Ready State.reset := by apply ready_of <;> decide +kernel

theorem ready_writer : Ready writer := by apply ready_of <;> decide +kernel

theorem inv_broken : Inv broken where
  canonical := rfl
  bounded := fun _ h => nomatch h
  faulted := fun _ => ⟨rfl, rfl⟩
  running := fun h => nomatch h

theorem witness_DecodeEncodeAgree : (Instr.wrreg .pmode 0xFFFFFFFF).wellFormed = true ∧
    (Instr.putbits 32 0).wellFormed = true ∧ (Instr.getbits 0).wellFormed = true ∧
    (Instr.p1pred 1 0).wellFormed = true ∧ (Instr.p1pred 4 0).wellFormed = true := ⟨rfl, rfl, rfl, rfl, rfl⟩

theorem witness_OnlyEncodingsDecode : decode ⟨0x42000004, 9, 9⟩ = .ok (.p1pred 4 9) ∧
    (Instr.p1pred 4 0).wellFormed = true ∧ (encode (.p1pred 4 0)).cmd = (⟨0x42000004, 9, 9⟩ : Words).cmd :=
  ⟨rfl, rfl, rfl⟩

theorem witness_StepRunsDecodedCommand : (issue ⟨0x10000000, 0, 0⟩ State.reset).pending =
    [.transact ⟨⟨0x10000000, 0, 0⟩, Env.standard⟩] ∧ decode ⟨0x10000000, 0, 0⟩ = .ok .openw := ⟨rfl, rfl⟩

theorem witness_OtherSteps :
    ((issue ⟨0xFFFFFFFF, 0, 0⟩ broken).pending = [.transact ⟨⟨0xFFFFFFFF, 0, 0⟩, Env.standard⟩] ∧
      decode ⟨0xFFFFFFFF, 0, 0⟩ = .error .reservedBits ∧ (issue ⟨0xFFFFFFFF, 0, 0⟩ broken).cause = some .ioError) ∧
    (issue ⟨0xFFFFFFFF, 0, 0⟩ writer).cause = none ∧ State.reset.pending = [] ∧
    { writer with pending := [.hardwareReset] }.pending = [.hardwareReset] := ⟨⟨rfl, rfl, rfl⟩, rfl, rfl, rfl⟩

theorem witness_ResetValues : exec .reset broken = .next (respond (.ok 0) (resetState broken)) ∧
    { writer with pending := [.hardwareReset] }.pending = .hardwareReset :: [] ∧
    step { writer with pending := [.hardwareReset] } = .next (hardReset [] { writer with pending := [.hardwareReset] }) :=
  ⟨rfl, rfl, rfl⟩

theorem witness_StepKeepsInvariant : Inv (issue ⟨0x10000000, 0, 0⟩ State.reset) ∧
    step (issue ⟨0x10000000, 0, 0⟩ State.reset) = .next (after .openw State.reset) :=
  ⟨(by apply ready_of <;> decide +kernel : Ready (issue ⟨0x10000000, 0, 0⟩ State.reset)).inv, rfl⟩

theorem witness_EveryTransactionIsAnswered : Inv (issue ⟨0xFFFFFFFF, 0, 0⟩ State.reset) ∧
    (issue ⟨0xFFFFFFFF, 0, 0⟩ State.reset).pending = .transact ⟨⟨0xFFFFFFFF, 0, 0⟩, Env.standard⟩ :: [] :=
  ⟨(by apply ready_of <;> decide +kernel : Ready (issue ⟨0xFFFFFFFF, 0, 0⟩ State.reset)).inv, rfl⟩

theorem witness_FaultEntry_sink_boundary : (∀ k, fullWriter.sinkCap = some k → ¬ fullWriter.out.length < k) ∧
    ∀ k, { fullWriter with sinkCap := some 1 }.sinkCap = some k → fullWriter.out.length < k :=
  ⟨fun k h => by cases h; decide, fun k h => by cases h; decide⟩

theorem witness_FaultedStateIsAbsorbing : Inv broken ∧ broken.cause = some .ioError ∧ Instr.nop ≠ .reset ∧
    Instr.nop ≠ .rdreg .status := ⟨inv_broken, rfl, by decide, by decide⟩

theorem witness_IllegalInModeOrPhase : State.reset.cause = none ∧ legalWhen .close State.reset = false ∧
    (mono .s1anl State.reset).cause = none ∧ legalWhen (.wrreg .nch 2) (mono .s1anl State.reset) = false :=
  ⟨rfl, rfl, rfl, rfl⟩

theorem witness_InvalidArguments : State.reset.cause = none ∧ (Instr.setm 0).wellFormed = true ∧
    legalWhen (.setm 0) State.reset = true ∧ operandsOk (.setm 0) State.reset = false ∧ writer.cause = none ∧
    legalWhen (.encu 0xFFFFFFFF) writer = true ∧ operandsOk (.encu 0xFFFFFFFF) writer = false :=
  ⟨rfl, rfl, rfl, rfl, rfl, rfl, rfl⟩

theorem witness_FaultsByCommand : (reader []).cause = none ∧
    exec .getbit (reader []) = .next (after .getbit (reader [])) ∧
    exec (.getbits 1) (reader []) = .next (after (.getbits 1) (reader [])) := ⟨rfl, rfl, rfl⟩

theorem witness_SinkFullRaisesIoError : Ready fullWriter ∧ fullWriter.mode = .write ∧
    (Instr.putbit 0).wellFormed = true ∧ legalWhen (.putbit 0) fullWriter = true ∧
    operandsOk (.putbit 0) fullWriter = true ∧
    sinkFits fullWriter (bitsWritten (.putbit 0) fullWriter).length = false :=
  ⟨by apply ready_of <;> decide +kernel, rfl, rfl, rfl, rfl, rfl⟩

theorem witness_StatusLayout : Inv broken ∧ broken.cause ≠ none := ⟨inv_broken, by decide⟩

theorem witness_NopAndReset : State.reset.cause = none := rfl

theorem witness_RdregReads : { State.reset with h1 := 0xFFFB }.cause = none := rfl

theorem witness_WrregWrites : State.reset.cause = none ∧ State.reset.phase = .idle ∧ Reg.flags.writable = true ∧
    (3 : Word).toNat < 2 ^ regWidth .flags ∧ 2 ^ regWidth .flags ≤ (4 : Word).toNat := by decide

theorem witness_OpenwOpensWriter : State.reset.cause = none ∧ State.reset.mode = .closed ∧
    State.reset.env.openOk = true ∧ { State.reset with env := ⟨false, none, []⟩ }.env.openOk = false := by decide

theorem witness_OpenrOpensReader : State.reset.cause = none ∧ State.reset.mode = .closed ∧
    State.reset.env.openOk = true ∧ { State.reset with env := ⟨false, none, []⟩ }.env.openOk = false := by decide

theorem witness_CloseFlushes : Ready (reader []) ∧ (reader []).mode = .read ∧ Ready writer ∧ writer.mode = .write ∧
    writer.nbits = 0 ∧ Ready { fullWriter with sinkCap := some 1 } ∧ sinkRoom { fullWriter with sinkCap := some 1 } = true ∧
    Ready fullWriter ∧ fullWriter.mode = .write ∧ fullWriter.nbits ≠ 0 ∧ sinkRoom fullWriter = false := by
  refine ⟨?_, rfl, ready_writer, rfl, rfl, ?_, rfl, ?_, rfl, by decide, rfl⟩ <;> apply ready_of <;> decide +kernel

theorem witness_PutbitsAppend : Ready writer ∧ writer.mode = .write ∧ sinkFits writer 1 = true ∧
    (32 : BitVec 8).toNat ≤ 32 ∧ sinkFits writer (32 : BitVec 8).toNat = true ∧
    Ready { fullWriter with sinkCap := some 1 } ∧ sinkFits { fullWriter with sinkCap := some 1 } 1 = true := by
  refine ⟨ready_writer, rfl, rfl, by decide, rfl, ?_, rfl⟩
  apply ready_of <;> decide +kernel

theorem ready_reader_80 : Ready (reader [0x80]) := by apply ready_of <;> decide +kernel

theorem ready_reader_empty : Ready (reader []) := by apply ready_of <;> decide +kernel

/-- A reader whose only byte has been pulled, with its last `n` bits unread. -/
def pulled (n : BitVec 4) : State := { reader [0x81] with acc := 0x81, nbits := n, rpos := 1 }

/-- A first byte to pull, a last bit left in `ACC`, and the end of the data, with a byte pulled and with none. -/
theorem witness_GetbitReads : (Ready (reader [0x80]) ∧ (reader [0x80]).mode = .read ∧ (reader [0x80]).nbits = 0 ∧
      unread (reader [0x80]) = true :: List.replicate 7 false) ∧
    (Ready (pulled 1) ∧ (pulled 1).mode = .read ∧ (pulled 1).nbits ≠ 0 ∧ unread (pulled 1) = true :: []) ∧
    (Ready (pulled 0) ∧ unread (pulled 0) = []) ∧ Ready (reader []) ∧ unread (reader []) = [] := by
  refine ⟨⟨ready_reader_80, rfl, rfl, rfl⟩, ⟨?_, rfl, by decide, rfl⟩, ⟨?_, rfl⟩, ready_reader_empty, rfl⟩ <;>
    apply ready_of <;> decide +kernel

/-- 32 bits of 4 bytes not yet pulled, the last bit of `ACC` alone, no bit at the end of the data, and too few bits. -/
theorem witness_GetbitsReads : (Ready (reader [1, 2, 3, 4]) ∧ (reader [1, 2, 3, 4]).mode = .read ∧
      (32 : BitVec 8).toNat ≤ 32 ∧ (bitsof 0x01020304 32).length = (32 : BitVec 8).toNat ∧
      unread (reader [1, 2, 3, 4]) = bitsof 0x01020304 32 ++ []) ∧
    (Ready (pulled 1) ∧ [true].length = (1 : BitVec 8).toNat ∧ unread (pulled 1) = [true] ++ []) ∧
    (Ready (pulled 0) ∧ unread (pulled 0) = [] ++ []) ∧
    Ready (reader [0x80]) ∧ (unread (reader [0x80])).length < (9 : BitVec 8).toNat := by
  refine ⟨⟨?_, rfl, by decide, rfl, by decide +kernel⟩, ⟨?_, rfl, rfl⟩, ⟨?_, rfl⟩, ready_reader_80, by decide +kernel⟩ <;>
    apply ready_of <;> decide +kernel

theorem witness_WriteThenRead : Ready State.reset ∧ State.reset.mode = .closed ∧ State.reset.env.openOk = true ∧
    (∀ f ∈ [((32 : BitVec 8), (7 : Word)), (1, 1)], f.1.toNat ≤ 32) ∧
    bitsof 7 32 ++ [true] = [((32 : BitVec 8), (7 : Word)), (1, 1)].flatMap (fun f => bitsof f.2.toNat f.1.toNat) ∧
    { State.reset with env := ⟨true, some 5, []⟩ }.env.cap = some 5 ∧ ((bitsof 7 32 ++ [true]).length + 7) / 8 ≤ 5 ∧
    Ready { State.reset with env := ⟨true, some 5, []⟩ } := by
  refine ⟨ready_reset, rfl, rfl, by simp, by decide +kernel, rfl, by decide +kernel, ?_⟩
  apply ready_of <;> decide +kernel

theorem witness_SetmSetsParameter : State.reset.cause = none ∧ 1 ≤ s32 1 ∧ s32 1 ≤ 65535 ∧ 1 ≤ s32 65535 ∧
    s32 65535 ≤ 65535 ∧ s32 0 ≤ 0 ∧ 65535 < s32 65536 := by decide

theorem witness_EncodersAppendCodeword : Ready (withM5 writer) ∧ (withM5 writer).mode = .write ∧ 0 ≤ s32 0 ∧
    sinkFits (withM5 writer) (cw (withM5 writer).m.toNat (s32 0).toNat).length = true ∧
    sinkFits (withM5 writer) (cwZigzag (withM5 writer).m.toNat (s32 0xFFFFFFFF)).length = true ∧
    sinkFits (withM5 writer) (cwSign (withM5 writer).m.toNat (s32 0xFFFFFFFF)).length = true := by
  refine ⟨?_, rfl, by decide, rfl, rfl, rfl⟩
  apply ready_of <;> decide +kernel

theorem witness_CodewordLength : (1 ≤ 65535 ∧ 65535 ≤ 65535) ∧ (∃ k, 32768 = 2 ^ k) ∧ ∀ k, (5 : Nat) ≠ 2 ^ k := by
  refine ⟨by decide, ⟨15, rfl⟩, fun k h => ?_⟩
  rcases Nat.lt_or_ge k 3 with hk | hk
  · interval_cases k <;> simp at h
  · have := Nat.pow_le_pow_right (show 0 < 2 by decide) hk
    omega

theorem witness_CodewordsUniquelyDecodable : 1 ≤ 5 ∧ 5 ≤ 65535 ∧ cw 5 7 ++ [true] = cw 5 7 ++ [true] :=
  ⟨by decide, by decide, rfl⟩

/-- The bits of a fresh reader are those of its data. -/
theorem unread_reader (data : List Byte) : unread (reader data) = streamBits data := rfl

theorem streamBits_nil : streamBits [] = [] := rfl

/-- Zero bytes are zero bits. -/
theorem streamBits_zeros (n : Nat) (l : List Byte) :
    streamBits (List.replicate n 0 ++ l) = List.replicate (8 * n) false ++ streamBits l := by
  induction n with
  | zero => rfl
  | succ n ih =>
    rw [List.replicate_succ, List.cons_append, show streamBits ((0 : Byte) :: (List.replicate n 0 ++ l)) =
      byteBits 0 ++ streamBits (List.replicate n 0 ++ l) from rfl, ih, Nat.mul_succ, Nat.add_comm, List.replicate_add,
      List.append_assoc]
    rfl

/-- A codeword with a long unary part. -/
theorem cw_zeros {m v k j : Nat} (h : v / m = k + j) :
    cw m v = List.replicate k false ++ (unary j ++ tb m (v % m)) := by
  simp only [cw, unary, h, List.replicate_add, List.append_assoc]

/-- The parameter `M = 65535`: `B = 16`, `CUTOFF = 1`. -/
def withMax (s : State) : State := { s with m := 65535, b := 16, cutoff := 1 }

/-- A reader of a long codeword: a first part, zero bytes, and an end. -/
def longReader (a : List Byte) (n : Nat) (l : List Byte) : State := withMax (reader (a ++ (List.replicate n 0 ++ l)))

theorem unread_longReader (a : List Byte) (n : Nat) (l : List Byte) :
    unread (longReader a n l) = streamBits a ++ (List.replicate (8 * n) false ++ streamBits l) := by
  rw [← streamBits_zeros]
  exact List.flatMap_append

theorem ready_longReader (a : List Byte) (n : Nat) (l : List Byte) : Ready (longReader a n l) := by
  have h : Ready (withMax (reader [])) := by apply ready_of <;> decide +kernel
  have hr := h.inv.running rfl
  exact ready_of ⟨rfl, rfl⟩ rfl ⟨hr.coder.1, hr.coder.2, hr.coder.3⟩ (fun h => nomatch h) (fun h => nomatch h)
    (fun _ => ⟨Nat.zero_le _, Nat.zero_le _, fun h => absurd rfl h, fun _ => ⟨rfl, rfl⟩⟩) ⟨hr.encoding, hr.decoding⟩
    ⟨hr.history.1, hr.history.2, hr.history.3⟩ hr.window ⟨hr.place1, hr.noPlace1⟩
    ⟨hr.place2, hr.noPlace2, hr.rowStart, hr.leftOf⟩

/-- A sign bit 0 is one more zero bit. -/
theorem zeros_first (n : Nat) (l : Bits) :
    false :: (List.replicate n false ++ l) = List.replicate (n + 1) false ++ l := rfl

/-- A sign bit 1 before zero bits and an end. -/
theorem zeros_after (a b : Nat) (l r : Bits) :
    true :: (List.replicate a false ++ (List.replicate b false ++ l)) ++ r =
      true :: (List.replicate a false ++ (List.replicate b false ++ (l ++ r))) := by
  simp only [List.cons_append, List.append_assoc]

/-- The greatest values that fit, and the least that do not, for each decoder. -/
theorem witness_DecodersReadCodeword :
    (∀ a n l, Ready (longReader a n l) ∧ (longReader a n l).mode = .read ∧ (longReader a n l).m.toNat = 65535) ∧
    unread (longReader [] 8192 [0x40, 0, 0]) = cw 65535 4294967295 ++ List.replicate 7 false ∧
    unread (longReader [] 8192 [0x40, 0, 0x80]) = cw 65535 4294967296 ++ List.replicate 6 false ∧
    unread (longReader [] 4096 [0x60, 0, 0]) = false :: cw 65535 2147483647 ++ List.replicate 6 false ∧
    unread (longReader [] 4096 [0x60, 0, 0x40]) = false :: cw 65535 2147483648 ++ List.replicate 6 false ∧
    unread (longReader [0x80] 4095 [0x60, 0, 0x40]) = true :: cw 65535 2147483648 ++ List.replicate 6 false ∧
    unread (longReader [0x80] 4095 [0x60, 0, 0x80]) = true :: cw 65535 2147483649 ++ List.replicate 6 false := by
  refine ⟨fun a n l => ⟨ready_longReader a n l, rfl, rfl⟩, ?_, ?_, ?_, ?_, ?_, ?_⟩ <;> rw [unread_longReader]
  · rw [streamBits_nil, List.nil_append, cw_zeros (k := 8 * 8192) (j := 1) (by decide), List.append_assoc]
    exact congrArg (List.replicate (8 * 8192) false ++ ·) (by decide +kernel)
  · rw [streamBits_nil, List.nil_append, cw_zeros (k := 8 * 8192) (j := 1) (by decide), List.append_assoc]
    exact congrArg (List.replicate (8 * 8192) false ++ ·) (by decide +kernel)
  · rw [streamBits_nil, List.nil_append, cw_zeros (k := 32767) (j := 1) (by decide), zeros_first, List.append_assoc,
      show 32767 + 1 = 8 * 4096 from rfl]
    exact congrArg (List.replicate (8 * 4096) false ++ ·) (by decide +kernel)
  · rw [streamBits_nil, List.nil_append, cw_zeros (k := 32767) (j := 1) (by decide), zeros_first, List.append_assoc,
      show 32767 + 1 = 8 * 4096 from rfl]
    exact congrArg (List.replicate (8 * 4096) false ++ ·) (by decide +kernel)
  · rw [show streamBits [0x80] = true :: List.replicate 7 false from rfl, List.cons_append,
      cw_zeros (k := 7 + 8 * 4095) (j := 1) (by decide), List.replicate_add, List.append_assoc, zeros_after]
    exact congrArg (fun l => true :: (List.replicate 7 false ++ (List.replicate (8 * 4095) false ++ l)))
      (by decide +kernel)
  · rw [show streamBits [0x80] = true :: List.replicate 7 false from rfl, List.cons_append,
      cw_zeros (k := 7 + 8 * 4095) (j := 1) (by decide), List.replicate_add, List.append_assoc, zeros_after]
    exact congrArg (fun l => true :: (List.replicate 7 false ++ (List.replicate (8 * 4095) false ++ l)))
      (by decide +kernel)

theorem witness_DecodersRefuseShortData :
    (Ready (reader []) ∧ (reader []).mode = .read ∧ legalWhen .decu (reader []) = true ∧
      operandsOk .decu (reader []) = true ∧ unread (reader []) = List.replicate 0 false) ∧
    (Ready (stereo .s1dec (reader [0])) ∧ legalWhen (.dec1 5) (stereo .s1dec (reader [0])) = true ∧
      operandsOk (.dec1 5) (stereo .s1dec (reader [0])) = true ∧
      unread (stereo .s1dec (reader [0])) = List.replicate 8 false) ∧
    (Ready (plane .s2dec (withM5 (reader [0x07]))) ∧ legalWhen .dec2 (plane .s2dec (withM5 (reader [0x07]))) = true ∧
      unread (plane .s2dec (withM5 (reader [0x07]))) = unary 5 ++ [true, true] ∧
      ∀ r < 5, ¬ tb 5 r <+: [true, true]) ∧
    (Ready (withM5 (reader [0x01])) ∧ unread (withM5 (reader [0x01])) = unary 7 ++ [] ∧ ∀ r < 5, ¬ tb 5 r <+: []) ∧
    unread (reader [0x80]) = true :: List.replicate 7 false ∧
    (Ready (withM5 (reader [0x83])) ∧ unread (withM5 (reader [0x83])) = true :: unary 5 ++ [true] ∧
      ∀ r < 5, ¬ tb 5 r <+: [true]) := by
  refine ⟨⟨ready_reader_empty, rfl, rfl, rfl, rfl⟩, ⟨?_, rfl, rfl, rfl⟩, ⟨?_, rfl, rfl, by decide +kernel⟩,
    ⟨?_, rfl, by decide +kernel⟩, rfl, ?_, rfl, by decide +kernel⟩ <;> apply ready_of <;> decide +kernel

theorem witness_GolombRoundTrips :
    Ready writer ∧ writer.mode = .write ∧
    (Ready (reader [0x80]) ∧ (reader [0x80]).mode = .read ∧ SameCoder writer (reader [0x80]) ∧
      exec (.encz 0) writer = .next (after (.encz 0) writer) ∧ (after (.encz 0) writer).cause = none ∧
      written (after (.encz 0) writer) = written writer ++ [true] ∧
      unread (reader [0x80]) = [true] ++ List.replicate 7 false) ∧
    (Ready (reader [0x40]) ∧ SameCoder writer (reader [0x40]) ∧
      exec (.encs 0) writer = .next (after (.encs 0) writer) ∧
      written (after (.encs 0) writer) = written writer ++ [false, true] ∧
      unread (reader [0x40]) = [false, true] ++ List.replicate 6 false) ∧
    exec (.encu 0) writer = .next (after (.encu 0) writer) ∧
    written (after (.encu 0) writer) = written writer ++ [true] := by
  refine ⟨ready_writer, rfl, ⟨ready_reader_80, rfl, ⟨rfl, rfl, rfl⟩, rfl, rfl, rfl, rfl⟩,
    ⟨?_, ⟨rfl, rfl, rfl⟩, rfl, rfl, rfl⟩, rfl, rfl⟩
  apply ready_of <;> decide +kernel

/-- A window about to be full, and a full one. -/
def nearlyFull : State := { State.reset with cnt := 4294967294 }

/-- A full window. -/
def full : State := { State.reset with cnt := 4294967295 }

theorem witness_EstimatorWindow : Ready nearlyFull ∧ nearlyFull.cnt.toNat ≠ 4294967295 ∧ Ready full ∧
    full.cnt.toNat = 4294967295 := by
  refine ⟨?_, by decide, ?_, by decide⟩ <;> apply ready_of <;> decide +kernel

theorem witness_Est1dLargestK : { State.reset with cnt := 1 }.cause = none ∧ { State.reset with cnt := 1 }.cnt ≠ 0 ∧
    { State.reset with cnt := 1 }.sum = 0 ∧ { State.reset with cnt := 1, sum := 1 }.sum ≠ 0 := by decide

theorem witness_Est1dRealFormula : State.reset.cause = none ∧ State.reset.cnt = 0 ∧
    { State.reset with cnt := 1 }.cnt ≠ 0 ∧ { State.reset with cnt := 1 }.sum = 0 ∧
    { State.reset with cnt := 1, sum := 1 }.sum ≠ 0 := by decide

theorem witness_Est2dRealFormula : State.reset.cause = none ∧ State.reset.cnt = 0 ∧
    { State.reset with cnt := 1 }.cnt ≠ 0 := by decide

theorem witness_HistoryCommands : State.reset.cause = none ∧ State.reset.phase = .idle ∧
    (-32768 ≤ s32 0xFFFF8000 ∧ s32 0xFFFF8000 ≤ 32767) ∧ (-32768 ≤ s32 0x7FFF ∧ s32 0x7FFF ≤ 32767) ∧
    s32 0xFFFF7FFF < -32768 ∧ 32767 < s32 0x8000 := by decide

theorem witness_P1predAnswers : State.reset.cause = none ∧ (-32768 ≤ s32 0xFFFF8000 ∧ s32 0xFFFF8000 ≤ 32767) ∧
    s32 0xFFFF7FFF < -32768 ∧ 32767 < s32 0x8000 := by decide

theorem witness_HistoryHoldsLastSamples : State.reset.cause = none ∧ State.reset.phase = .idle ∧
    ∀ x ∈ ([0x7FFF, 0xFFFF8000, 0, 1] : List Word), -32768 ≤ s32 x ∧ s32 x ≤ 32767 :=
  ⟨rfl, rfl, by simp [s32]⟩

theorem ready_inside (pm : BitVec 8) (h : pm.toNat ≤ 4) : Ready (inside pm State.reset) := by
  have hr : Ready (inside 4 State.reset) := by apply ready_of <;> decide +kernel
  have r := hr.inv.running rfl
  exact ready_of ⟨rfl, rfl⟩ rfl ⟨r.coder.1, r.coder.2, r.coder.3⟩ (fun _ => ⟨rfl, rfl⟩) (fun h => nomatch h)
    (fun h => nomatch h) ⟨r.encoding, r.decoding⟩ ⟨r.history.1, r.history.2, r.history.3⟩ r.window
    ⟨r.place1, r.noPlace1⟩
    ⟨fun _ => ⟨decide_eq_true (p := (2 : Nat) ≠ 0 ∧ (2 : Nat) ≠ 0 ∧ 2 ≤ 65536 ∧ pm.toNat ≤ 4)
      ⟨by decide, by decide, by decide, h⟩, (r.place2 rfl).2.1, (r.place2 rfl).2.2⟩, r.noPlace2, r.rowStart, r.leftOf⟩

theorem witness_P2predAnswers : (∀ pm : BitVec 8, pm.toNat ≤ 4 → Ready (inside pm State.reset)) ∧
    inPhase2 (inside 4 State.reset) = true ∧ (inside 4 State.reset).row ≠ 0 ∧ (inside 4 State.reset).col ≠ 0 ∧
    max (10 : Int) 20 ≤ 30 ∧ Ready (plane .s2anl State.reset) ∧ (plane .s2anl State.reset).row = 0 ∧
    (plane .s2anl State.reset).col = 0 ∧
    (Ready { inside 4 State.reset with row := 0 } ∧ { inside 4 State.reset with row := 0 }.col ≠ 0) ∧
    (Ready { inside 4 State.reset with col := 0, areg := 0, creg := 0 } ∧
      { inside 4 State.reset with col := 0, areg := 0, creg := 0 }.row ≠ 0) ∧
    (Ready { inside 4 State.reset with creg := 10 } ∧ (10 : Int) ≤ min 10 20) ∧
    Ready { inside 4 State.reset with creg := 15 } ∧ min (10 : Int) 20 < 15 ∧ (15 : Int) < max 10 20 := by
  refine ⟨ready_inside, rfl, by decide, by decide, by decide, ?_, rfl, rfl, ⟨?_, by decide⟩, ⟨?_, by decide⟩,
    ⟨?_, by decide⟩, ?_, by decide, by decide⟩ <;> apply ready_of <;> decide +kernel

theorem witness_PushTracksPlane : (plane .s2anl State.reset).line.wf = true ∧
    (plane .s2anl State.reset).cols.toNat ≤ (plane .s2anl State.reset).lineDepth ∧
    (plane .s2anl State.reset).col.toNat < (plane .s2anl State.reset).cols.toNat ∧
    (plane .s2anl State.reset).row.toNat < (plane .s2anl State.reset).rows.toNat ∧
    Tracks (fun _ _ => 7) (plane .s2anl State.reset) :=
  ⟨rfl, by decide, by decide, by decide, ⟨rfl, rfl, fun _ _ => rfl⟩⟩

/-- A plane as wide as the line buffer. -/
def widest (pm : BitVec 8) : State := { State.reset with rows := 1, cols := 65536, pmode := pm }

theorem witness_BeginPasses : State.reset.cause = none ∧ State.reset.phase = .idle ∧
    ({ State.reset with nch := 1 }.nch = 1 ∨ { State.reset with nch := 1 }.nch = 2) ∧
    ¬ ({ State.reset with nch := 3 }.nch = 1 ∨ { State.reset with nch := 3 }.nch = 2) ∧
    ((widest 4).rows ≠ 0 ∧ (widest 4).cols ≠ 0 ∧ (widest 4).cols.toNat ≤ (widest 4).lineDepth ∧
      (widest 4).pmode.toNat ≤ 4) ∧
    ¬ ((widest 5).rows ≠ 0 ∧ (widest 5).cols ≠ 0 ∧ (widest 5).cols.toNat ≤ (widest 5).lineDepth ∧
      (widest 5).pmode.toNat ≤ 4) := by decide

theorem witness_PredictorSelection : State.reset.ch = 0 ∧ { State.reset with ch := 1 }.ch = 1 ∧
    { State.reset with ch := 1 }.flags.getLsbD 1 = false ∧ (stereo .s1anl State.reset).ch = 1 ∧
    (stereo .s1anl State.reset).flags.getLsbD 1 = true := by decide

theorem witness_Rsd1Answers : Ready (stereo .s1anl nearlyFull) ∧ (stereo .s1anl nearlyFull).phase = .s1anl ∧
    isSample (s32 0x7FFF) = true ∧ needref (stereo .s1anl nearlyFull) = true ∧ isSample (s32 0xFFFF8000) = true ∧
    (stereo .s1anl nearlyFull).cnt.toNat ≠ 4294967295 ∧ Ready (stereo .s1anl full) ∧
    (stereo .s1anl full).cnt.toNat = 4294967295 := by
  refine ⟨?_, rfl, rfl, rfl, rfl, by decide, ?_, rfl⟩ <;> apply ready_of <;> decide +kernel

/-- A writer whose configuration is that of a stream with no samples. -/
def configured (nch : BitVec 16) : State := { writer with nch := nch }

theorem witness_Wrhdr1WritesHeader : Ready (configured 1) ∧ Ready (configured 2) ∧ (configured 2).mode = .write ∧
    (configured 2).phase = .idle ∧ ((configured 1).nch = 1 ∨ (configured 1).nch = 2) ∧
    ((configured 2).nch = 1 ∨ (configured 2).nch = 2) ∧
    sinkFits (configured 2) 114 = true := by
  refine ⟨?_, ?_, rfl, rfl, .inl rfl, .inr rfl, rfl⟩ <;> apply ready_of <;> decide +kernel

theorem witness_Enc1WritesResidual : Ready (stereo .s1enc writer) ∧ (stereo .s1enc writer).mode = .write ∧
    (stereo .s1enc writer).phase = .s1enc ∧ isSample (s32 3) = true ∧ needref (stereo .s1enc writer) = true ∧
    isSample (s32 2) = true ∧ s32 3 - p1sel (s32 2) (stereo .s1enc writer) = 2 ∧
    sinkFits (stereo .s1enc writer) (cwZigzag (stereo .s1enc writer).m.toNat 2).length = true := by
  refine ⟨?_, rfl, rfl, rfl, rfl, rfl, rfl, rfl⟩; apply ready_of <;> decide +kernel

/-- The bytes of a 1-D header: mono, `sampleCount` 3, the given channel count and parameter; the last byte begins with
`adaptiveFlag`. -/
def header1Bytes (nch m last : Byte) : List Byte := [0, 0, 0x1F, 0x40, 0, nch, 0, 0x10, 0, 0, 0, 3, 0, m, last]

theorem witness_Rdhdr1LoadsHeader :
    (Ready (reader (List.replicate 14 0)) ∧ (reader (List.replicate 14 0)).mode = .read ∧
      (reader (List.replicate 14 0)).phase = .idle ∧ (unread (reader (List.replicate 14 0))).length < 113) ∧
    (Ready (reader (header1Bytes 1 4 0)) ∧
      unread (reader (header1Bytes 1 4 0)) = header1 8000 1 16 3 4 false false ++ List.replicate 7 false) ∧
    (Ready (reader (header1Bytes 2 4 0xC0)) ∧
      unread (reader (header1Bytes 2 4 0xC0)) = header1 8000 2 16 3 4 true true ++ List.replicate 6 false) ∧
    (Ready (reader (header1Bytes 3 4 0)) ∧
      unread (reader (header1Bytes 3 4 0)) = header1 8000 3 16 3 4 false false ++ List.replicate 7 false ∧
      ¬ (3 = 1 ∨ 3 = 2)) ∧
    (Ready (reader (header1Bytes 1 0 0)) ∧
      unread (reader (header1Bytes 1 0 0)) = header1 8000 1 16 3 0 false false ++ List.replicate 7 false) := by
  refine ⟨⟨?_, rfl, rfl, by decide +kernel⟩, ⟨?_, by decide +kernel⟩, ⟨?_, by decide +kernel⟩,
    ⟨?_, by decide +kernel, by decide⟩, ⟨?_, by decide +kernel⟩⟩ <;> apply ready_of <;> decide +kernel

/-- A reader at the last bit of its first byte, followed by a stereo header without its last bit. -/
def stereoCut : State :=
  { reader [0, 0, 0, 0x3E, 0x80, 0, 4, 0, 0x20, 0, 0, 0, 6, 0, 8] with nbits := 1, rpos := 1 }

theorem witness_Rdhdr1LoadsHeader_cut : Ready stereoCut ∧ stereoCut.mode = .read ∧ stereoCut.phase = .idle ∧
    unread stereoCut ++ [true] = header1 8000 2 16 3 4 false true := by
  refine ⟨?_, rfl, rfl, by decide +kernel⟩
  apply ready_of <;> decide +kernel

/-- A decoder at the last mono sample with `M = 65535`. -/
def monoDecoder (data : List Byte) : State := mono .s1dec (withMax (reader data))

theorem witness_Dec1Reconstructs :
    (Ready (monoDecoder [0xFF, 0xFF, 0x80]) ∧ (monoDecoder [0xFF, 0xFF, 0x80]).mode = .read ∧
      (monoDecoder [0xFF, 0xFF, 0x80]).phase = .s1dec ∧ needref (monoDecoder [0xFF, 0xFF, 0x80]) = false ∧
      unread (monoDecoder [0xFF, 0xFF, 0x80]) = cw 65535 65534 ++ List.replicate 7 false ∧
      p1sel 0 (monoDecoder [0xFF, 0xFF, 0x80]) + unzz 65534 = 32767 ∧ isSample 32767 = true) ∧
    (Ready (monoDecoder [0x40, 0, 0]) ∧ unread (monoDecoder [0x40, 0, 0]) = cw 65535 65535 ++ List.replicate 7 false ∧
      p1sel 0 (monoDecoder [0x40, 0, 0]) + unzz 65535 = -32768 ∧ isSample (-32768) = true) ∧
    (Ready (monoDecoder [0x40, 0, 0x80]) ∧
      unread (monoDecoder [0x40, 0, 0x80]) = cw 65535 65536 ++ List.replicate 6 false ∧
      p1sel 0 (monoDecoder [0x40, 0, 0x80]) + unzz 65536 = 32768 ∧ isSample 32768 = false) ∧
    unread (mono .s1dec (longReader [] 8192 [0x40, 0, 0x80])) = cw 65535 4294967296 ++ List.replicate 6 false := by
  refine ⟨⟨?_, rfl, rfl, rfl, by decide +kernel, by decide, rfl⟩, ⟨?_, by decide +kernel, by decide, rfl⟩,
    ⟨?_, by decide +kernel, by decide, rfl⟩, witness_DecodersReadCodeword.2.2.1⟩ <;> apply ready_of <;> decide +kernel

/-- The right channel's and the left channel's last sample, and a sample before the last. -/
theorem witness_SampleAdvance :
    (Ready (stereo .s1anl State.reset) ∧ exec (.rsd1 5 4) (stereo .s1anl State.reset) =
        .next (after (.rsd1 5 4) (stereo .s1anl State.reset)) ∧
      (after (.rsd1 5 4) (stereo .s1anl State.reset)).cause = none ∧
      (stereo .s1anl State.reset).idx.toNat + 1 = (stereo .s1anl State.reset).nsamp.toNat ∧
      ¬ ((stereo .s1anl State.reset).ch = 0 ∧ (stereo .s1anl State.reset).nch = 2)) ∧
    (Ready { stereo .s1enc writer with ch := 0 } ∧ exec (.enc1 5 4) { stereo .s1enc writer with ch := 0 } =
        .next (after (.enc1 5 4) { stereo .s1enc writer with ch := 0 }) ∧
      (after (.enc1 5 4) { stereo .s1enc writer with ch := 0 }).cause = none) ∧
    (Ready { mono .s1dec (reader [0x80]) with nsamp := 2 } ∧
      exec (.dec1 0) { mono .s1dec (reader [0x80]) with nsamp := 2 } =
        .next (after (.dec1 0) { mono .s1dec (reader [0x80]) with nsamp := 2 }) ∧
      (after (.dec1 0) { mono .s1dec (reader [0x80]) with nsamp := 2 }).cause = none ∧
      (after (.dec1 0) { mono .s1dec (reader [0x80]) with nsamp := 2 }).resp = some (.ok 0)) := by
  refine ⟨⟨?_, rfl, rfl, rfl, by decide⟩, ⟨?_, rfl, rfl⟩, ⟨?_, rfl, rfl, rfl⟩⟩ <;> apply ready_of <;> decide +kernel

/-- The state a run of commands leaves. -/
def afterAll (is : List Instr) (s : State) : State := is.foldl (fun s i => after i s) s

/-- A closed core about to be given any data. -/
theorem ready_source (data : List Byte) : Ready { State.reset with env := ⟨true, none, data⟩ } := by
  have r := ready_reset.inv.running rfl
  exact ready_of ⟨rfl, rfl⟩ rfl ⟨r.coder.1, r.coder.2, r.coder.3⟩ (fun _ => ⟨rfl, rfl⟩) (fun h => nomatch h)
    (fun h => nomatch h) ⟨r.encoding, r.decoding⟩ ⟨r.history.1, r.history.2, r.history.3⟩ r.window
    ⟨r.place1, r.noPlace1⟩ ⟨r.place2, r.noPlace2, r.rowStart, r.leftOf⟩

/-- A 1-D encoder before OPENW: one stereo sample a channel with the inter-channel flag. -/
def encoder1 : State := { State.reset with nch := 2, nsamp := 1, flags := 2 }

theorem witness_Lossless1d : Ready encoder1 ∧ encoder1.mode = .closed ∧ [(5 : Word)].length = encoder1.nsamp.toNat ∧
    [(7 : Word)].length = (if encoder1.nch = 2 then [(5 : Word)].length else 0) ∧
    (runOk [.openw, .wrhdr1, .enc1 5 0, .enc1 7 5, .close] encoder1).isSome = true ∧
    ∀ data, Ready { State.reset with env := ⟨true, none, data⟩ } ∧
      { State.reset with env := ⟨true, none, data⟩ }.mode = .closed ∧
      { State.reset with env := ⟨true, none, data⟩ }.phase = .idle ∧
      { State.reset with env := ⟨true, none, data⟩ }.env.openOk = true ∧
      { State.reset with env := ⟨true, none, data⟩ }.env.data = data := by
  refine ⟨?_, rfl, rfl, rfl, by decide +kernel, fun data => ⟨ready_source data, rfl, rfl, rfl, rfl⟩⟩
  apply ready_of <;> decide +kernel

theorem witness_Rsd2Answers : Ready (plane .s2anl nearlyFull) ∧ (plane .s2anl nearlyFull).phase = .s2anl ∧
    (255 : Word).toNat ≤ 255 ∧ (plane .s2anl nearlyFull).cnt.toNat ≠ 4294967295 ∧ Ready (plane .s2anl full) ∧
    (plane .s2anl full).cnt.toNat = 4294967295 := by
  refine ⟨?_, rfl, by decide, by decide, ?_, rfl⟩ <;> apply ready_of <;> decide +kernel

theorem witness_Wrhdr2WritesHeader : Ready { widest 4 with mode := .write, sinkCap := some 11 } ∧
    { widest 4 with mode := .write, sinkCap := some 11 }.rows ≠ 0 ∧ (widest 4).cols ≠ 0 ∧
    (widest 4).cols.toNat ≤ (widest 4).lineDepth ∧ (widest 4).pmode.toNat ≤ 4 ∧
    sinkFits { widest 4 with mode := .write, sinkCap := some 11 } 88 = true := by
  refine ⟨?_, by decide, by decide, by decide, by decide, rfl⟩; apply ready_of <;> decide +kernel

theorem witness_Enc2WritesResidual : Ready (plane .s2enc writer) ∧ (plane .s2enc writer).mode = .write ∧
    (plane .s2enc writer).phase = .s2enc ∧ (255 : Word).toNat ≤ 255 ∧
    ((255 : Word).toNat : Int) - predicted2 (plane .s2enc writer) = 127 ∧
    sinkFits (plane .s2enc writer) (cwZigzag (plane .s2enc writer).m.toNat 127).length = true := by
  refine ⟨?_, rfl, rfl, by decide, rfl, rfl⟩; apply ready_of <;> decide +kernel

/-- The bytes of a 2-D header of 2 rows: the columns, the parameter and the mode. -/
def header2Bytes (cols : List Byte) (m pm : Byte) : List Byte := [0, 0, 0, 2] ++ cols ++ [0, m, pm]

theorem witness_Rdhdr2LoadsHeader :
    (Ready (reader (List.replicate 10 0)) ∧ (reader (List.replicate 10 0)).mode = .read ∧
      (reader (List.replicate 10 0)).phase = .idle ∧ (unread (reader (List.replicate 10 0))).length < 88) ∧
    (Ready (reader (header2Bytes [0, 1, 0, 0] 1 4)) ∧
      unread (reader (header2Bytes [0, 1, 0, 0] 1 4)) = header2 2 65536 1 4 ++ [] ∧
      65536 ≤ (reader (header2Bytes [0, 1, 0, 0] 1 4)).lineDepth) ∧
    (Ready (reader (header2Bytes [0, 1, 0, 1] 1 4)) ∧
      unread (reader (header2Bytes [0, 1, 0, 1] 1 4)) = header2 2 65537 1 4 ++ [] ∧
      (reader (header2Bytes [0, 1, 0, 1] 1 4)).lineDepth < 65537) ∧
    (Ready (reader (header2Bytes [0, 0, 0, 1] 1 5)) ∧
      unread (reader (header2Bytes [0, 0, 0, 1] 1 5)) = header2 2 1 1 5 ++ [] ∧ 4 < 5) := by
  refine ⟨⟨?_, rfl, rfl, by decide +kernel⟩, ⟨?_, by decide +kernel, by decide⟩, ⟨?_, by decide +kernel, by decide⟩,
    ⟨?_, by decide +kernel, by decide⟩⟩ <;> apply ready_of <;> decide +kernel

/-- A decoder at the last pixel, given a codeword of the greatest value or of the first beyond it. -/
theorem witness_Dec2Reconstructs : (∀ l, Ready (plane .s2dec (longReader [] 8192 l)) ∧
      (plane .s2dec (longReader [] 8192 l)).mode = .read ∧ (plane .s2dec (longReader [] 8192 l)).phase = .s2dec) ∧
    unread (plane .s2dec (longReader [] 8192 [0x40, 0, 0])) = cw 65535 4294967295 ++ List.replicate 7 false ∧
    unread (plane .s2dec (longReader [] 8192 [0x40, 0, 0x80])) = cw 65535 4294967296 ++ List.replicate 6 false := by
  refine ⟨fun l => ⟨?_, rfl, rfl⟩, witness_DecodersReadCodeword.2.1, witness_DecodersReadCodeword.2.2.1⟩
  have h : Ready (plane .s2dec (withMax (reader []))) := by apply ready_of <;> decide +kernel
  have r := h.inv.running rfl
  exact ready_of ⟨rfl, rfl⟩ rfl ⟨r.coder.1, r.coder.2, r.coder.3⟩ (fun h => nomatch h) (fun h => nomatch h)
    (fun _ => ⟨Nat.zero_le _, Nat.zero_le _, fun h => absurd rfl h, fun _ => ⟨rfl, rfl⟩⟩) ⟨r.encoding, r.decoding⟩
    ⟨r.history.1, r.history.2, r.history.3⟩ r.window ⟨r.place1, r.noPlace1⟩
    ⟨r.place2, r.noPlace2, r.rowStart, r.leftOf⟩

/-- The last pixel, the last of a row, and a pixel before the last of its row. -/
theorem witness_PixelAdvance :
    (Ready (plane .s2anl State.reset) ∧ exec (.rsd2 9) (plane .s2anl State.reset) =
        .next (after (.rsd2 9) (plane .s2anl State.reset)) ∧
      (after (.rsd2 9) (plane .s2anl State.reset)).cause = none ∧
      (plane .s2anl State.reset).col.toNat + 1 = (plane .s2anl State.reset).cols.toNat ∧
      (plane .s2anl State.reset).row.toNat + 1 = (plane .s2anl State.reset).rows.toNat) ∧
    (Ready { plane .s2enc writer with rows := 2 } ∧ exec (.enc2 128) { plane .s2enc writer with rows := 2 } =
        .next (after (.enc2 128) { plane .s2enc writer with rows := 2 }) ∧
      (after (.enc2 128) { plane .s2enc writer with rows := 2 }).cause = none) ∧
    (Ready { plane .s2dec (reader [0x80]) with cols := 2 } ∧
      exec .dec2 { plane .s2dec (reader [0x80]) with cols := 2 } =
        .next (after .dec2 { plane .s2dec (reader [0x80]) with cols := 2 }) ∧
      (after .dec2 { plane .s2dec (reader [0x80]) with cols := 2 }).cause = none ∧
      (after .dec2 { plane .s2dec (reader [0x80]) with cols := 2 }).resp = some (.ok 128)) := by
  refine ⟨⟨?_, rfl, rfl, rfl, rfl⟩, ⟨?_, rfl, rfl⟩, ⟨?_, rfl, rfl, rfl⟩⟩ <;> apply ready_of <;> decide +kernel

/-- A 2-D encoder before OPENW: a plane of one row and two columns. -/
def encoder2 : State := { State.reset with rows := 1, cols := 2, pmode := 4 }

theorem witness_Lossless2d : Ready encoder2 ∧ encoder2.mode = .closed ∧ encoder2.cols.toNat ≤ State.reset.lineDepth ∧
    [(128 : Word), 130].length = encoder2.rows.toNat * encoder2.cols.toNat ∧
    (runOk [.openw, .wrhdr2, .enc2 128, .enc2 130, .close] encoder2).isSome = true ∧
    ∀ data, Ready { State.reset with env := ⟨true, none, data⟩ } ∧
      { State.reset with env := ⟨true, none, data⟩ }.mode = .closed ∧
      { State.reset with env := ⟨true, none, data⟩ }.phase = .idle ∧
      { State.reset with env := ⟨true, none, data⟩ }.env.openOk = true ∧
      { State.reset with env := ⟨true, none, data⟩ }.env.data = data := by
  refine ⟨?_, rfl, by decide, rfl, by decide +kernel, fun data => ⟨ready_source data, rfl, rfl, rfl, rfl⟩⟩
  apply ready_of <;> decide +kernel

/-- Into a phase, out of it by CLOSE, at the last sample and at the last pixel, and from channel 0 to channel 1. -/
theorem witness_PhaseTransitions :
    (Inv { State.reset with nch := 1, nsamp := 1 } ∧ exec .begin1a { State.reset with nch := 1, nsamp := 1 } =
        .next (after .begin1a { State.reset with nch := 1, nsamp := 1 }) ∧
      (after .begin1a { State.reset with nch := 1, nsamp := 1 }).phase ≠ State.reset.phase) ∧
    (Inv (stereo .s1enc writer) ∧ exec .close (stereo .s1enc writer) = .next (after .close (stereo .s1enc writer)) ∧
      (after .close (stereo .s1enc writer)).phase ≠ (stereo .s1enc writer).phase) ∧
    (Inv (stereo .s1anl State.reset) ∧ exec (.rsd1 5 4) (stereo .s1anl State.reset) =
        .next (after (.rsd1 5 4) (stereo .s1anl State.reset)) ∧
      (after (.rsd1 5 4) (stereo .s1anl State.reset)).phase ≠ (stereo .s1anl State.reset).phase) ∧
    (Inv (plane .s2anl State.reset) ∧ exec (.rsd2 9) (plane .s2anl State.reset) =
        .next (after (.rsd2 9) (plane .s2anl State.reset)) ∧
      (after (.rsd2 9) (plane .s2anl State.reset)).phase ≠ (plane .s2anl State.reset).phase) ∧
    (Inv { stereo .s1enc writer with ch := 0 } ∧ exec (.enc1 5 4) { stereo .s1enc writer with ch := 0 } =
        .next (after (.enc1 5 4) { stereo .s1enc writer with ch := 0 }) ∧
      (after (.enc1 5 4) { stereo .s1enc writer with ch := 0 }).cause = none ∧
      (after (.enc1 5 4) { stereo .s1enc writer with ch := 0 }).ch = 1) := by
  refine ⟨⟨Ready.inv ?_, rfl, by decide⟩, ⟨Ready.inv ?_, rfl, by decide⟩,
    ⟨witness_SampleAdvance.1.1.inv, rfl, by decide +kernel⟩, ⟨witness_PixelAdvance.1.1.inv, rfl, by decide +kernel⟩,
    witness_SampleAdvance.2.1.1.inv, rfl, rfl, by decide +kernel⟩ <;> apply ready_of <;> decide +kernel

theorem witness_RegisterWriters : exec .close (reader [0x80]) = .next (after .close (reader [0x80])) ∧
    (after .close (reader [0x80])).cause = none ∧ Instr.close ≠ .reset ∧ (reader [0x80]).mode ≠ .write ∧
    Instr.close ≠ .openw ∧ Instr.close ≠ .openr ∧ Instr.close ≠ .estclr := by
  refine ⟨rfl, rfl, ?_, ?_, ?_, ?_, ?_⟩ <;> decide

end Sys2Proof.Tests
end

section
/-! SUPPORT. What keeps the invariant, operation by operation. A core that meets `Inv` and is not faulted is `Ready`;
each lemma names one operation of Machine/Ops.lean or of the codecs and says that it leaves the core `Ready`. -/

namespace Sys2Proof.Machine

theorem Ready.running {s : State} (h : Ready s) : Running s := h.inv.running h.healthy

/-- A running core over a canonical line buffer is ready. -/
theorem Ready.of_running {s : State} (hc : s.cause = none) (hl : s.line.wf = true)
    (hb : ∀ c ∈ s.line, c.1 < s.lineDepth) (hr : Running s) : Ready s :=
  ⟨⟨hl, hb, fun h => absurd hc h, fun _ => hr⟩, hc⟩

/-- After an operation that leaves `CAUSE` and `LINE` alone, only the running core's conditions are to be shown. -/
theorem Ready.of_same_line {s t : State} (h : Ready s) (hc : t.cause = s.cause) (hl : t.line = s.line)
    (hd : t.lineDepth = s.lineDepth) (hr : Running t) : Ready t :=
  .of_running (hc.trans h.healthy) (hl ▸ h.inv.canonical) (by rw [hl, hd]; exact h.inv.bounded) hr

theorem HistoryOk.of_eq {s t : State} (h : HistoryOk s) (h1 : t.h1 = s.h1) (h2 : t.h2 = s.h2) (h3 : t.h3 = s.h3)
    (hn : t.hcnt = s.hcnt) : HistoryOk t :=
  ⟨h1 ▸ hn ▸ h.first, h2 ▸ hn ▸ h.second, h3 ▸ hn ▸ h.third⟩

theorem WriterOk.of_eq {s t : State} (h : WriterOk s) (ha : t.acc = s.acc) (hn : t.nbits = s.nbits)
    (ho : t.out = s.out) (hc : t.sinkCap = s.sinkCap) : WriterOk t := by
  refine ⟨hn ▸ h.pending, by rw [ha, hn]; exact h.padded, ?_⟩
  rw [sinkFits, hc, ho, hn]
  exact h.fits

theorem ReaderOk.of_eq {s t : State} (h : ReaderOk s) (ha : t.acc = s.acc) (hn : t.nbits = s.nbits)
    (hi : t.inp = s.inp) (hp : t.rpos = s.rpos) : ReaderOk t :=
  ⟨hn ▸ h.loaded, hi ▸ hp ▸ h.inside, by rw [hp, hi, ha]; exact h.current, by rw [hp, ha, hn]; exact h.fresh⟩

/-- The sequencer's conditions of `Running`: phases fit the mode, and the place lies within the stream. -/
structure SequencerOk (s : State) : Prop where
  encoding : s.phase = .s1enc ∨ s.phase = .s2enc → s.mode = .write
  decoding : s.phase = .s1dec ∨ s.phase = .s2dec → s.mode = .read
  place1 : inPhase1 s = true → channelsOk s.nch.toNat = true ∧ s.idx.toNat < s.nsamp.toNat ∧ (s.ch = 1 → s.nch = 2)
  noPlace1 : inPhase1 s = false → s.ch = 0 ∧ s.idx = 0
  place2 : inPhase2 s = true → geometryOk s = true ∧ s.row.toNat < s.rows.toNat ∧ s.col.toNat < s.cols.toNat
  noPlace2 : inPhase2 s = false → s.row = 0 ∧ s.col = 0
  rowStart : inPhase2 s = true → s.col = 0 → s.areg = 0 ∧ s.creg = 0
  leftOf : inPhase2 s = true → s.col ≠ 0 → s.areg = s.line.read (s.col.toNat - 1)

/-- The bit channel's conditions of `Running`. -/
structure ChannelOk (s : State) : Prop where
  closed : s.mode = .closed → s.acc = 0 ∧ s.nbits = 0
  writer : s.mode = .write → WriterOk s
  reader : s.mode = .read → ReaderOk s

theorem ChannelOk.of_eq {s t : State} (h : ChannelOk s) (hm : t.mode = s.mode) (ha : t.acc = s.acc)
    (hn : t.nbits = s.nbits) (ho : t.out = s.out) (hc : t.sinkCap = s.sinkCap) (hi : t.inp = s.inp)
    (hp : t.rpos = s.rpos) : ChannelOk t where
  closed := by rw [hm, ha, hn]; exact h.closed
  writer := fun hw => (h.writer (hm ▸ hw)).of_eq ha hn ho hc
  reader := fun hr => (h.reader (hm ▸ hr)).of_eq ha hn hi hp

theorem Running.channel {s : State} (h : Running s) : ChannelOk s := ⟨h.closed, h.writer, h.reader⟩

theorem Running.sequencer {s : State} (h : Running s) : SequencerOk s :=
  ⟨h.encoding, h.decoding, h.place1, h.noPlace1, h.place2, h.noPlace2, h.rowStart, h.leftOf⟩

/-- `Running` put together from the five parts of the machine. -/
theorem Running.of_parts {s : State} (hk : CoderOk s) (hc : ChannelOk s) (hh : HistoryOk s)
    (hw : s.sum.toNat ≤ s.cnt.toNat * 2147483648) (hs : SequencerOk s) : Running s :=
  ⟨hk, hc.closed, hc.writer, hc.reader, hs.encoding, hs.decoding, hh, hw, hs.place1, hs.noPlace1, hs.place2,
    hs.noPlace2, hs.rowStart, hs.leftOf⟩

/-- Where the coder, the channel and the window stay, only the history and the sequencer are to be looked at. -/
theorem Running.of_move {s t : State} (h : Running s)
    (ht : t = { t with
      m := s.m, b := s.b, cutoff := s.cutoff, mode := s.mode, acc := s.acc, nbits := s.nbits, out := s.out,
      sinkCap := s.sinkCap, inp := s.inp, rpos := s.rpos, sum := s.sum, cnt := s.cnt })
    (hh : HistoryOk t) (hs : SequencerOk t) : Running t := by
  refine .of_parts ?_ ?_ hh ?_ hs <;> rw [ht]
  · exact h.coder.of_eq rfl rfl rfl
  · exact h.channel.of_eq rfl rfl rfl rfl rfl rfl rfl
  · exact h.window

/-- Where the coder, the history, the window and the line buffer stay, only the channel and the sequencer are to be
looked at. -/
theorem Ready.of_channel {s t : State} (h : Ready s)
    (ht : t = { s with
      mode := t.mode, acc := t.acc, nbits := t.nbits, out := t.out, sinkCap := t.sinkCap, inp := t.inp, rpos := t.rpos,
      phase := t.phase, ch := t.ch, idx := t.idx, row := t.row, col := t.col })
    (hc : ChannelOk t) (hs : SequencerOk t) : Ready t := by
  have hr := h.running
  refine h.of_same_line ?_ ?_ ?_ (.of_parts ?_ hc ?_ ?_ hs) <;> rw [ht]
  · exact hr.coder.of_eq rfl rfl rfl
  · exact hr.history.of_eq rfl rfl rfl rfl
  · exact hr.window

theorem inPhase1_eq_false {s : State} (h : s.phase = .idle) : inPhase1 s = false := by simp [inPhase1, h]

theorem inPhase2_eq_false {s : State} (h : s.phase = .idle) : inPhase2 s = false := by simp [inPhase2, h]

/-- An idle sequencer at its resting place meets its conditions, whatever the rest of the state. -/
theorem SequencerOk.of_idle {s : State} (hp : s.phase = .idle) (h1 : s.ch = 0 ∧ s.idx = 0)
    (h2 : s.row = 0 ∧ s.col = 0) : SequencerOk s where
  encoding := by simp [hp]
  decoding := by simp [hp]
  place1 := by simp [inPhase1_eq_false hp]
  noPlace1 := fun _ => h1
  place2 := by simp [inPhase2_eq_false hp]
  noPlace2 := fun _ => h2
  rowStart := by simp [inPhase2_eq_false hp]
  leftOf := by simp [inPhase2_eq_false hp]

/-- A 1-D phase that fits the mode. -/
def Phase1Fits (s : State) : Prop :=
  s.phase = .s1anl ∨ (s.phase = .s1enc ∧ s.mode = .write) ∨ (s.phase = .s1dec ∧ s.mode = .read)

/-- A 2-D phase that fits the mode. -/
def Phase2Fits (s : State) : Prop :=
  s.phase = .s2anl ∨ (s.phase = .s2enc ∧ s.mode = .write) ∨ (s.phase = .s2dec ∧ s.mode = .read)

theorem Phase1Fits.inPhase {s : State} (h : Phase1Fits s) : inPhase1 s = true ∧ inPhase2 s = false := by
  obtain h | h | h := h <;> simp [inPhase1, inPhase2, h]

theorem Phase2Fits.inPhase {s : State} (h : Phase2Fits s) : inPhase1 s = false ∧ inPhase2 s = true := by
  obtain h | h | h := h <;> simp [inPhase1, inPhase2, h]

theorem Phase1Fits.of_eq {s t : State} (h : Phase1Fits s) (hp : t.phase = s.phase) (hm : t.mode = s.mode) :
    Phase1Fits t := by rw [Phase1Fits, hp, hm]; exact h

theorem Phase2Fits.of_eq {s t : State} (h : Phase2Fits s) (hp : t.phase = s.phase) (hm : t.mode = s.mode) :
    Phase2Fits t := by rw [Phase2Fits, hp, hm]; exact h

/-- A sequencer at a place within a 1-D stream. -/
theorem SequencerOk.of_phase1 {s : State} (hp : Phase1Fits s) (hn : channelsOk s.nch.toNat = true)
    (hi : s.idx.toNat < s.nsamp.toNat) (hc : s.ch = 1 → s.nch = 2) (h2 : s.row = 0 ∧ s.col = 0) : SequencerOk s where
  encoding := by obtain h | h | h := hp <;> simp [h]
  decoding := by obtain h | h | h := hp <;> simp [h]
  place1 := fun _ => ⟨hn, hi, hc⟩
  noPlace1 := by simp [hp.inPhase.1]
  place2 := by simp [hp.inPhase.2]
  noPlace2 := fun _ => h2
  rowStart := by simp [hp.inPhase.2]
  leftOf := by simp [hp.inPhase.2]

/-- A sequencer at a place within a plane. -/
theorem SequencerOk.of_phase2 {s : State} (hp : Phase2Fits s) (h1 : s.ch = 0 ∧ s.idx = 0) (hg : geometryOk s = true)
    (hr : s.row.toNat < s.rows.toNat) (hc : s.col.toNat < s.cols.toNat) (hs : s.col = 0 → s.areg = 0 ∧ s.creg = 0)
    (hl : s.col ≠ 0 → s.areg = s.line.read (s.col.toNat - 1)) : SequencerOk s where
  encoding := by obtain h | h | h := hp <;> simp [h]
  decoding := by obtain h | h | h := hp <;> simp [h]
  place1 := by simp [hp.inPhase.1]
  noPlace1 := fun _ => h1
  place2 := fun _ => ⟨hg, hr, hc⟩
  noPlace2 := by simp [hp.inPhase.2]
  rowStart := fun _ => hs
  leftOf := fun _ => hl

/-- The registers the sequencer's conditions do not speak of may differ. -/
theorem SequencerOk.of_frame {s t : State} (h : SequencerOk s)
    (ht : t = { s with
      m := t.m, b := t.b, cutoff := t.cutoff, acc := t.acc, nbits := t.nbits, out := t.out, sinkCap := t.sinkCap,
      inp := t.inp, rpos := t.rpos, sum := t.sum, cnt := t.cnt, h1 := t.h1, h2 := t.h2, h3 := t.h3, hcnt := t.hcnt,
      pending := t.pending, env := t.env, resp := t.resp }) : SequencerOk t := by
  rw [ht]
  exact ⟨h.encoding, h.decoding, h.place1, h.noPlace1, h.place2, h.noPlace2, h.rowStart, h.leftOf⟩

/-! ### The model's own fields, reset -/

/-- The queue of events, the environment inputs and the response are no part of the invariant. -/
theorem Inv.of_host {s : State} (h : Inv s) (p : List HostEvent) (e : Env) (r : Option Response) :
    Inv { s with pending := p, env := e, resp := r } :=
  ⟨h.canonical, h.bounded, h.faulted, fun hc =>
    have hr := h.running hc
    hr.of_move rfl (hr.history.of_eq rfl rfl rfl rfl) (hr.sequencer.of_frame rfl)⟩

theorem Inv.after_respond {s : State} (h : Inv s) (r : Response) : Inv (respond r s) :=
  h.of_host s.pending s.env (some r)

theorem Inv.after_accept {s : State} (h : Inv s) (t : Txn) (rest : List HostEvent) : Inv (accept t rest s) :=
  h.of_host rest t.env s.resp

theorem Ready.after_resetState (s : State) : Ready (resetState s) :=
  .of_running rfl rfl (fun _ h => nomatch h) (resetState_running s)

/-! ### The coder, the configuration and the window -/

/-- Every rule that writes `M` makes `M`, `B` and `CUTOFF` agree (10_state.md R28, R29). -/
theorem setParameter_coder {m : Nat} (s : State) (h1 : 1 ≤ m) (h2 : m ≤ 65535) : CoderOk (setParameter m s) := by
  have hclog : clog2 m ≤ 16 := clog2_le (by omega) (by omega)
  have hcut : cutoffOf m ≤ 65535 := by
    have hadd := add_cutoffOf (show m ≤ 2 ^ 32 by omega)
    have : 2 ^ clog2 m ≤ 2 ^ 16 := Nat.pow_le_pow_right (by omega) hclog
    omega
  have hm : (BitVec.ofNat 16 m).toNat = m := by rw [BitVec.toNat_ofNat]; omega
  refine ⟨by rw [setParameter_m, hm]; exact h1, ?_, ?_⟩
  · rw [setParameter_b, setParameter_m, hm, BitVec.toNat_ofNat]; omega
  · rw [setParameter_cutoff, setParameter_m, hm, BitVec.toNat_ofNat]
    exact Nat.mod_eq_of_lt (show cutoffOf m < 2 ^ 16 by omega)

theorem Ready.after_setParameter {s : State} {m : Nat} (h : Ready s) (h1 : 1 ≤ m) (h2 : m ≤ 65535) :
    Ready (setParameter m s) :=
  have hr := h.running
  h.of_same_line rfl rfl rfl (.of_parts (setParameter_coder s h1 h2) (hr.channel.of_eq rfl rfl rfl rfl rfl rfl rfl)
    (hr.history.of_eq rfl rfl rfl rfl) hr.window (hr.sequencer.of_frame rfl))

/-- While the sequencer is idle the configuration registers are free. -/
theorem Ready.configure {s : State} (h : Ready s) (hp : s.phase = .idle) (sr : BitVec 32) (nc bp : BitVec 16)
    (ns : BitVec 32) (fl : BitVec 2) (rw cl : BitVec 32) (pm : BitVec 8) :
    Ready { s with srate := sr, nch := nc, bps := bp, nsamp := ns, flags := fl, rows := rw, cols := cl, pmode := pm } :=
  have hr := h.running
  h.of_same_line rfl rfl rfl (hr.of_move rfl (hr.history.of_eq rfl rfl rfl rfl)
    (.of_idle hp (hr.noPlace1 (inPhase1_eq_false hp)) (hr.noPlace2 (inPhase2_eq_false hp))))

theorem Ready.after_writeReg {s : State} (h : Ready s) (hp : s.phase = .idle) (r : Reg) (v : Word) :
    Ready (writeReg r v s) := by
  have key := h.configure hp
  cases r with
  | srate => exact key v s.nch s.bps s.nsamp s.flags s.rows s.cols s.pmode
  | nch => exact key s.srate (v.setWidth 16) s.bps s.nsamp s.flags s.rows s.cols s.pmode
  | bps => exact key s.srate s.nch (v.setWidth 16) s.nsamp s.flags s.rows s.cols s.pmode
  | nsamp => exact key s.srate s.nch s.bps v s.flags s.rows s.cols s.pmode
  | flags => exact key s.srate s.nch s.bps s.nsamp (v.setWidth 2) s.rows s.cols s.pmode
  | rows => exact key s.srate s.nch s.bps s.nsamp s.flags v s.cols s.pmode
  | cols => exact key s.srate s.nch s.bps s.nsamp s.flags s.rows v s.pmode
  | pmode => exact key s.srate s.nch s.bps s.nsamp s.flags s.rows s.cols (v.setWidth 8)
  | _ => exact h

theorem Ready.after_loadHeader1 {s : State} {hd : Header1} (h : Ready s) (hp : s.phase = .idle) (h1 : hd.m ≠ 0)
    (h2 : hd.m < 2 ^ 16) : Ready (loadHeader1 hd s) :=
  (h.configure hp _ _ _ _ _ s.rows s.cols s.pmode).after_setParameter (by omega) (by omega)

theorem Ready.after_loadHeader2 {s : State} {hd : Header2} (h : Ready s) (hp : s.phase = .idle) (h1 : hd.m ≠ 0)
    (h2 : hd.m < 2 ^ 16) : Ready (loadHeader2 hd s) :=
  (h.configure hp s.srate s.nch s.bps s.nsamp s.flags _ _ _).after_setParameter (by omega) (by omega)

/-- A window within its bound may take the place of the present one (10_state.md R38). -/
theorem Ready.of_window {s : State} (h : Ready s) (x : BitVec 64) (n : BitVec 32)
    (hw : x.toNat ≤ n.toNat * 2147483648) : Ready { s with sum := x, cnt := n } :=
  have hr := h.running
  h.of_same_line rfl rfl rfl (.of_parts (hr.coder.of_eq rfl rfl rfl) (hr.channel.of_eq rfl rfl rfl rfl rfl rfl rfl)
    (hr.history.of_eq rfl rfl rfl rfl) hw (hr.sequencer.of_frame rfl))

/-! ### The bit channel -/

theorem Ready.wrote {s t : State} {w : Bits} (h : Ready s) (hm : s.mode = .write) (hw : Wrote w s t) : Ready t := by
  have hr := h.running
  have hok := hw.ok
  rw [hw.frame] at hok ⊢
  exact h.of_channel rfl ⟨by simp [hm], fun _ => hok, by simp [hm]⟩ (hr.sequencer.of_frame rfl)

theorem Ready.took {s t : State} {w : Bits} (h : Ready s) (hm : s.mode = .read) (hw : Took w s t) : Ready t := by
  have hr := h.running
  have hok := hw.ok
  rw [hw.frame] at hok ⊢
  exact h.of_channel rfl ⟨by simp [hm], by simp [hm], fun _ => hok⟩ (hr.sequencer.of_frame rfl)

/-- While the channel is closed no phase of an encoder or a decoder is active. -/
theorem Running.closed_phase {s : State} (h : Running s) (hm : s.mode = .closed) :
    ¬ (s.phase = .s1enc ∨ s.phase = .s2enc) ∧ ¬ (s.phase = .s1dec ∨ s.phase = .s2dec) :=
  ⟨fun he => by simpa [hm] using h.encoding he, fun hd => by simpa [hm] using h.decoding hd⟩

theorem openWriter_writer (s : State) : WriterOk (openWriter s) where
  pending := by simp
  padded := by simp; decide
  fits := (sinkFits_iff _ 0).2 fun c _ => by simp

theorem openReader_reader (s : State) : ReaderOk (openReader s) where
  loaded := by simp
  inside := Nat.zero_le _
  current := fun h => absurd rfl h
  fresh := fun _ => ⟨rfl, rfl⟩

theorem Ready.after_openWriter {s : State} (h : Ready s) (hm : s.mode = .closed) : Ready (openWriter s) := by
  have hr := h.running
  obtain ⟨_, hdec⟩ := hr.closed_phase hm
  exact h.of_channel rfl ⟨by simp, fun _ => openWriter_writer s, by simp⟩
    ⟨fun _ => rfl, fun hd => absurd hd hdec, hr.place1, hr.noPlace1, hr.place2, hr.noPlace2, hr.rowStart, hr.leftOf⟩

theorem Ready.after_openReader {s : State} (h : Ready s) (hm : s.mode = .closed) : Ready (openReader s) := by
  have hr := h.running
  obtain ⟨henc, _⟩ := hr.closed_phase hm
  exact h.of_channel rfl ⟨by simp, by simp, fun _ => openReader_reader s⟩
    ⟨fun he => absurd he henc, fun _ => rfl, hr.place1, hr.noPlace1, hr.place2, hr.noPlace2, hr.rowStart, hr.leftOf⟩

/-- CLOSE leaves the core ready whatever bytes it flushed before. -/
theorem Ready.after_closeChannel {s t : State} (h : Ready s) (ht : t = { s with out := t.out }) :
    Ready (closeChannel t) := by
  have hr := h.running
  rw [ht]
  exact h.of_channel rfl ⟨fun _ => ⟨rfl, rfl⟩, by simp, by simp⟩ (.of_idle rfl ⟨rfl, rfl⟩ ⟨rfl, rfl⟩)

/-! ### The history and the sequencers -/

theorem hreset_history (s : State) : HistoryOk (hreset s) := ⟨fun _ => rfl, fun _ => rfl, fun _ => rfl⟩

/-- A push shifts the valid entries, so the invalid ones stay 0 (10_state.md R40, 44_predictors.md R221). -/
theorem hpush_history {s : State} (h : HistoryOk s) (x : Int) : HistoryOk (hpush x s) := by
  have hn : (hpush x s).hcnt.toNat = min 3 (s.hcnt.toNat + 1) := by
    rw [hpush_hcnt, BitVec.toNat_ofNat]; omega
  refine ⟨fun h1 => ?_, fun h2 => h.first ?_, fun h3 => h.second ?_⟩ <;> omega

/-- Another history in which the invalid entries are 0 may take the place of the present one. -/
theorem Ready.of_history {s : State} (h : Ready s) (x1 x2 x3 : BitVec 16) (n : BitVec 2)
    (hh : HistoryOk { s with h1 := x1, h2 := x2, h3 := x3, hcnt := n }) :
    Ready { s with h1 := x1, h2 := x2, h3 := x3, hcnt := n } :=
  have hr := h.running
  h.of_same_line rfl rfl rfl (hr.of_move rfl hh (hr.sequencer.of_frame rfl))

theorem Ready.after_hreset {s : State} (h : Ready s) : Ready (hreset s) := h.of_history _ _ _ _ (hreset_history s)

theorem Ready.after_hpush {s : State} (h : Ready s) (x : Int) : Ready (hpush x s) :=
  h.of_history _ _ _ _ (hpush_history h.running.history x)

/-- A 1-D phase starts at channel 0 and index 0; with no samples the sequencer stays idle (45_codec1d.md R251). -/
theorem Ready.after_startPhase1 {s : State} {p : Phase} (h : Ready s) (hp : s.phase = .idle)
    (hn : channelsOk s.nch.toNat = true) (hfit : Phase1Fits { s with phase := p }) : Ready (startPhase1 p s) := by
  have hr := h.running
  have h2 := hr.noPlace2 (inPhase2_eq_false hp)
  refine h.of_same_line rfl rfl rfl (hr.of_move rfl ⟨fun _ => rfl, fun _ => rfl, fun _ => rfl⟩ ?_)
  by_cases h0 : s.nsamp = 0
  · exact .of_idle (by rw [startPhase1_phase, if_pos h0]) ⟨rfl, rfl⟩ h2
  · have hpos : 0 < s.nsamp.toNat := Nat.pos_of_ne_zero fun hz => h0 (BitVec.toNat_inj.1 hz)
    have hfit' : Phase1Fits (startPhase1 p s) := by
      rwa [Phase1Fits, startPhase1_phase, if_neg h0]
    exact .of_phase1 hfit' hn hpos (by simp) h2

theorem geometryOk_iff (s : State) : geometryOk s = true ↔
    s.rows.toNat ≠ 0 ∧ s.cols.toNat ≠ 0 ∧ s.cols.toNat ≤ s.lineDepth ∧ s.pmode.toNat ≤ 4 := geomOk_iff _ _ _ _

/-- A 2-D phase starts at the first pixel of an empty line buffer (46_codec2d.md R281). -/
theorem Ready.after_startPhase2 {s : State} {p : Phase} (h : Ready s) (hp : s.phase = .idle) (hg : geometryOk s = true)
    (hfit : Phase2Fits { s with phase := p }) : Ready (startPhase2 p s) := by
  have hr := h.running
  obtain ⟨hrows, hcols, _⟩ := (geometryOk_iff s).1 hg
  exact .of_running h.healthy rfl (fun _ hc => nomatch hc)
    (hr.of_move rfl (hr.history.of_eq rfl rfl rfl rfl)
      (.of_phase2 hfit (hr.noPlace1 (inPhase1_eq_false hp)) hg (Nat.pos_of_ne_zero hrows) (Nat.pos_of_ne_zero hcols)
        (fun _ => ⟨rfl, rfl⟩) (fun hc => absurd rfl hc)))

/-- A 1-D sample moves the place on within the stream, to channel 1, or out of the phase (45_codec1d.md R256). -/
theorem Ready.after_s1advance {s : State} (h : Ready s) (hfit : Phase1Fits s) (x : Int) : Ready (s1advance x s) := by
  have hr := h.running
  obtain ⟨hp1, hp2⟩ := hfit.inPhase
  obtain ⟨hn, hi, hc⟩ := hr.place1 hp1
  have h2 := hr.noPlace2 hp2
  by_cases hlast : s.idx + 1 = s.nsamp
  · by_cases hleft : s.ch = 0 ∧ s.nch = 2
    · rw [s1advance_channel x hlast hleft.1 hleft.2]
      exact h.of_same_line rfl rfl rfl (hr.of_move rfl (hreset_history _)
        (.of_phase1 hfit hn (Nat.zero_lt_of_lt hi) (fun _ => hleft.2) h2))
    · rw [s1advance_end x hlast hleft]
      exact h.of_same_line rfl rfl rfl (hr.of_move rfl ((hpush_history hr.history x).of_eq rfl rfl rfl rfl)
        (.of_idle rfl ⟨rfl, rfl⟩ h2))
  · have hi' : (s.idx + 1).toNat < s.nsamp.toNat := by
      rw [succ_eq_iff hi] at hlast
      rw [toNat_succ_of_lt hi]
      omega
    rw [s1advance_within x hlast]
    exact h.of_same_line rfl rfl rfl (hr.of_move rfl ((hpush_history hr.history x).of_eq rfl rfl rfl rfl)
      (.of_phase1 hfit hn hi' hc h2))

/-- The column of a 2-D phase lies within the line buffer (46_codec2d.md R280). -/
theorem Running.col_lt_lineDepth {s : State} (h : Running s) (hp : inPhase2 s = true) : s.col.toNat < s.lineDepth := by
  obtain ⟨hg, _, hc⟩ := h.place2 hp
  obtain ⟨_, _, hd, _⟩ := (geometryOk_iff s).1 hg
  omega

/-- A pixel moves the place on within its row, to the next row, or out of the phase (46_codec2d.md R283). -/
theorem Ready.after_s2advance {s : State} (h : Ready s) (hfit : Phase2Fits s) (x : Byte) :
    ∃ t, s2advance x s = .ok () t ∧ Ready t := by
  have hr := h.running
  obtain ⟨hp1, hp2⟩ := hfit.inPhase
  obtain ⟨hg, hrow, hcol⟩ := hr.place2 hp2
  have h1 := hr.noPlace1 hp1
  have hd := hr.col_lt_lineDepth hp2
  have hwf : (s.line.write s.col.toNat x).wf = true := Memory.write_wf _ _ h.inv.canonical
  have hbound : ∀ c ∈ s.line.write s.col.toNat x, c.1 < s.lineDepth := fun c hc => by
    rcases Memory.mem_write hc with hc | hc
    · omega
    · exact h.inv.bounded c hc
  by_cases hend : s.col + 1 = s.cols
  · by_cases hlast : s.row + 1 = s.rows
    · refine ⟨_, s2advance_end x hd hend hlast, .of_running h.healthy hwf hbound ?_⟩
      exact hr.of_move rfl (hr.history.of_eq rfl rfl rfl rfl) (.of_idle rfl h1 ⟨rfl, rfl⟩)
    · have hrow' : (s.row + 1).toNat < s.rows.toNat := by
        rw [succ_eq_iff hrow] at hlast
        rw [toNat_succ_of_lt hrow]
        omega
      refine ⟨_, s2advance_row x hd hend hlast, .of_running h.healthy hwf hbound ?_⟩
      exact hr.of_move rfl (hr.history.of_eq rfl rfl rfl rfl)
        (.of_phase2 hfit h1 hg hrow' (Nat.zero_lt_of_lt hcol) (fun _ => ⟨rfl, rfl⟩) (fun hc => absurd rfl hc))
  · have hcol1 := toNat_succ_of_lt hcol
    have hcol' : (s.col + 1).toNat < s.cols.toNat := by
      rw [succ_eq_iff hcol] at hend
      omega
    have hrow' : s.row ≠ s.rows := fun he => by rw [he] at hrow; exact Nat.lt_irrefl _ hrow
    refine ⟨_, s2advance_within x hd hend hrow', .of_running h.healthy hwf hbound ?_⟩
    refine hr.of_move rfl (hr.history.of_eq rfl rfl rfl rfl)
      (.of_phase2 hfit h1 hg hrow hcol' (fun hz => ?_) (fun _ => ?_))
    · rw [show s.col + 1 = 0 from hz] at hcol1
      exact absurd hcol1 (by simp)
    · show x = (s.line.write s.col.toNat x).read ((s.col + 1).toNat - 1)
      rw [hcol1, Nat.add_sub_cancel, Memory.read_write _ _ _ h.inv.canonical, if_pos rfl]

end Sys2Proof.Machine
end

section
/-! SUPPORT. Every command keeps the invariant and answers a next state: a triple for the parts of a command's
pseudocode, one lemma per command, and from them the step. -/

namespace Sys2Proof.Machine

variable {α β : Type}

/-- A part of a command's pseudocode goes on in `P`, or raises a cause; it does not stop the machine. -/
def Res.Leads (P : α → State → Prop) : Res α → Prop
  | .ok a t => P a t
  | .raise _ _ => True
  | .stop _ => False

theorem Res.Leads.bind {P : α → State → Prop} {Q : β → State → Prop} {r : Res α} {k : α → State → Res β}
    (h : r.Leads P) (hk : ∀ a t, P a t → (k a t).Leads Q) : (r.bind k).Leads Q := by
  cases r with
  | ok a t => exact hk a t h
  | raise c t => trivial
  | stop f => exact h

theorem Res.Leads.ite {P : α → State → Prop} {c : Prop} [Decidable c] {r q : Res α} (hr : c → r.Leads P)
    (hq : ¬ c → q.Leads P) : (if c then r else q).Leads P := by
  split
  · exact hr ‹_›
  · exact hq ‹_›

/-- The outcome is a next state that meets the invariant. -/
def Safe (o : Out) : Prop := ∃ t, o = .next t ∧ Inv t

/-- A command is safe if its pseudocode, where it is legal, leads from ready states to ready states: the faulted state
is kept, and fault entry meets the invariant. -/
theorem execute_safe {legal : Bool} {body : State → Res Response} {s : State} (h : Inv s)
    (hb : Ready s → legal = true → (body s).Leads fun _ t => Ready t) : Safe (execute legal body s) := by
  cases hc : s.cause with
  | some c => exact ⟨_, execute_faulted hc _ _, h.after_respond _⟩
  | none =>
    cases legal with
    | false => exact ⟨_, execute_illegal hc _, takeFault_inv _ _⟩
    | true =>
      rw [execute_legal hc rfl]
      have hl := hb ⟨h, hc⟩ rfl
      cases hbody : body s with
      | ok r t =>
        rw [hbody] at hl
        exact ⟨_, rfl, hl.inv.after_respond r⟩
      | raise c t => exact ⟨_, rfl, takeFault_inv c t⟩
      | stop f =>
        rw [hbody] at hl
        exact hl.elim

theorem isWriter_iff (s : State) : isWriter s = true ↔ s.mode = .write := by simp [isWriter]

theorem isReader_iff (s : State) : isReader s = true ↔ s.mode = .read := by simp [isReader]

/-- What the legality test of a write command inside a phase says. -/
theorem writerIn_iff {s : State} {p : Phase} :
    (isWriter s && decide (s.phase = p)) = true ↔ s.mode = .write ∧ s.phase = p := by simp [isWriter]

/-- What the legality test of a read command inside a phase says. -/
theorem readerIn_iff {s : State} {p : Phase} :
    (isReader s && decide (s.phase = p)) = true ↔ s.mode = .read ∧ s.phase = p := by simp [isReader]

/-! ### The micro-operations -/

theorem putAll_leads {s : State} (h : Ready s) (hm : s.mode = .write) (w : Bits) :
    (putAll w s).Leads fun _ t => Ready t ∧ WriteFrame s t := by
  have hw := h.running.writer hm
  cases hf : sinkFits s w.length with
  | true =>
    obtain ⟨t, ht, hwrote⟩ := putAll_ok hw hf
    rw [ht]
    exact ⟨h.wrote hm hwrote, hwrote.frame⟩
  | false =>
    obtain ⟨t, ht, _⟩ := putAll_full hw hf
    rw [ht]
    trivial

theorem putbit_leads {s : State} (h : Ready s) (hm : s.mode = .write) (x : Bool) :
    (putbit x s).Leads fun _ t => Ready t ∧ WriteFrame s t := by
  rw [← putAll_singleton]
  exact putAll_leads h hm _

theorem encu_leads {s : State} (h : Ready s) (hm : s.mode = .write) (v : Nat) :
    (encu v s).Leads fun _ t => Ready t ∧ WriteFrame s t := by
  rw [encu_eq_putAll h.running.coder]
  exact putAll_leads h hm _

/-- A bit that `getbit` gives is the next unread one, so the reader is left in order. -/
theorem getbit_ready {s t : State} {x : Bool} (h : Ready s) (hm : s.mode = .read) (hg : getbit s = some (x, t)) :
    Ready t ∧ ReadFrame s t := by
  have hr := h.running.reader hm
  cases hu : unread s with
  | nil => rw [getbit_none hr hu] at hg; cases hg
  | cons y rest =>
    obtain ⟨u, hgu, htook, _⟩ := getbit_some hr hu
    rw [hgu] at hg
    cases hg
    exact ⟨h.took hm htook, htook.frame⟩

theorem getbits_leads {s : State} (h : Ready s) (hm : s.mode = .read) (n : Nat) :
    (getbits n s).Leads fun _ t => Ready t ∧ ReadFrame s t := by
  rcases getbits_cases n (h.running.reader hm) with ⟨_, he⟩ | ⟨w, t, _, he, htook⟩
  · rw [he]; trivial
  · rw [he]; exact ⟨h.took hm htook, htook.frame⟩

theorem decu_leads {s : State} (h : Ready s) (hm : s.mode = .read) :
    (decu s).Leads fun _ t => Ready t ∧ ReadFrame s t := by
  rcases decu_cases h.running.coder (h.running.reader hm) with
    ⟨v, t, _, he, htook⟩ | ⟨v, t, _, he, _⟩ | ⟨k, t, _, he, _⟩ | ⟨q, rest, t, _, _, he, _⟩
  · rw [he]; exact ⟨h.took hm htook, htook.frame⟩
  all_goals rw [he]; trivial

/-- `estacc` of a residual of 32 bits keeps the window's bound. -/
theorem estacc_leads {s : State} {e : Int} (h : Ready s) (he : e.natAbs ≤ 2147483648) :
    (estacc e s).Leads fun _ t => Ready t ∧ t = { s with sum := t.sum, cnt := t.cnt } := by
  by_cases hf : s.cnt.toNat = Config.cntMax
  · rw [estacc_full e hf]; trivial
  · rw [estacc_ok e hf]
    obtain ⟨hsum, hbound⟩ := sum_add h.running.window he hf
    exact ⟨h.of_window _ _ (by rw [hsum]; exact hbound), rfl⟩

theorem s2advance_leads {s : State} (h : Ready s) (hfit : Phase2Fits s) (x : Byte) :
    (s2advance x s).Leads fun _ t => Ready t := by
  obtain ⟨t, ht, hr⟩ := h.after_s2advance hfit x
  rw [ht]
  exact hr

theorem natAbs_s32_le (w : Word) : (s32 w).natAbs ≤ 2147483648 := by
  have h1 := w.toInt_lt
  have h2 := w.le_toInt
  unfold s32
  norm_num at h1 h2
  omega

/-- A 1-D residual that passes its operand checks fits 32 bits (45_codec1d.md R253). -/
theorem residual1_leads (opa opb : Word) (s : State) :
    (residual1 opa opb s).Leads fun e t => t = s ∧ e.natAbs ≤ 2147483648 := by
  by_cases ha : isSample (s32 opa) = true
  · by_cases hb : needref s = true → isSample (s32 opb) = true
    · rw [residual1_ok ha hb]
      have h1 := (isSample_iff _).1 ha
      have h2 := p1sel_range s hb
      exact ⟨rfl, by omega⟩
    · rw [residual1, if_neg (by simp [ha]), if_pos (by simpa using hb)]
      trivial
  · rw [residual1, if_pos ha]
    trivial

/-- A 2-D residual that passes its pixel check fits 32 bits (44_predictors.md R227). -/
theorem residual2_leads {s : State} (opa : Word) (hd : s.col.toNat < s.lineDepth) :
    (residual2 opa s).Leads fun e t => t = s ∧ e.natAbs ≤ 2147483648 := by
  by_cases ha : isPixel opa = true
  · rw [residual2_ok ha hd]
    have h1 := (isPixel_iff _).1 ha
    have h2 := spatial_range s.pmode.toNat s.row.toNat s.col.toNat s.areg (s.line.read s.col.toNat) s.creg
    exact ⟨rfl, by omega⟩
  · rw [residual2, if_neg ha]
    trivial

/-- What a 1-D header that RDHDR1 accepts holds (45_codec1d.md R260). -/
theorem getHeader1_leads {s : State} (h : Ready s) (hm : s.mode = .read) :
    (getHeader1 s).Leads fun hd t => Ready t ∧ ReadFrame s t ∧ (hd.nch = 1 ∨ hd.nch = 2) ∧ hd.m ≠ 0 ∧
      hd.m < 2 ^ 16 := by
  rcases getHeader1_cases (h.running.reader hm) with
    ⟨t, _, he | he⟩ | ⟨sr, nc, bp, ns, m, ad, ic, t, _, hnc, _, _, hlt, hne, he, htook⟩
  · rw [he]; trivial
  · rw [he]; trivial
  · rw [he]; exact ⟨h.took hm htook, htook.frame, hnc, hne, hlt⟩

/-- What a 2-D header that RDHDR2 accepts holds (46_codec2d.md R290). -/
theorem getHeader2_leads {s : State} (h : Ready s) (hm : s.mode = .read) :
    (getHeader2 s).Leads fun hd t => Ready t ∧ ReadFrame s t ∧ hd.m ≠ 0 ∧ hd.m < 2 ^ 16 ∧
      geometryOk (loadHeader2 hd t) = true := by
  rcases getHeader2_cases (h.running.reader hm) with
    ⟨t, _, he | he⟩ | ⟨rw', cl, m, pm, t, hrw, hcl, hlt, hpm, hne, hg, he, htook⟩
  · rw [he]; trivial
  · rw [he]; trivial
  · rw [he]
    refine ⟨h.took hm htook, htook.frame, hne, hlt, ?_⟩
    have hd : t.lineDepth = s.lineDepth := by rw [htook.frame]
    simpa only [geometryOk, loadHeader2_rows, loadHeader2_cols, loadHeader2_pmode, loadHeader2_lineDepth,
      BitVec.toNat_ofNat, Nat.mod_eq_of_lt hrw, Nat.mod_eq_of_lt hcl, Nat.mod_eq_of_lt hpm, hd] using hg

/-! ### System commands -/

theorem execNop_safe {s : State} (h : Inv s) : Safe (execNop s) := execute_safe h fun hr _ => hr

theorem execReset_safe (s : State) : Safe (execReset s) := ⟨_, rfl, (Ready.after_resetState s).inv.after_respond _⟩

theorem execRdreg_safe {s : State} (h : Inv s) (r : Reg) : Safe (execRdreg r s) := by
  unfold execRdreg
  split
  · exact ⟨_, rfl, h.after_respond _⟩
  · exact execute_safe h fun hr _ => hr

theorem execWrreg_safe {s : State} (h : Inv s) (r : Reg) (opa : Word) : Safe (execWrreg r opa s) :=
  execute_safe h fun hr hl => by
    rw [Bool.and_eq_true, decide_eq_true_eq] at hl
    split
    · trivial
    · exact hr.after_writeReg hl.2 r opa

/-! ### The bit channel -/

theorem execOpenw_safe {s : State} (h : Inv s) : Safe (execOpenw s) :=
  execute_safe h fun hr hl =>
    .ite (fun _ => hr.after_openWriter (of_decide_eq_true hl)) fun _ => trivial

theorem execOpenr_safe {s : State} (h : Inv s) : Safe (execOpenr s) :=
  execute_safe h fun hr hl =>
    .ite (fun _ => hr.after_openReader (of_decide_eq_true hl)) fun _ => trivial

theorem flushPartial_leads (s : State) : (flushPartial s).Leads fun _ t => t = { s with out := t.out } := by
  unfold flushPartial sinkPush
  split
  · split
    · rfl
    · trivial
  · rfl

theorem execClose_safe {s : State} (h : Inv s) : Safe (execClose s) :=
  execute_safe h fun hr _ => (flushPartial_leads s).bind fun _ _ ht => hr.after_closeChannel ht

theorem execPutbit_safe {s : State} (h : Inv s) (opa : Word) : Safe (execPutbit opa s) :=
  execute_safe h fun hr hl => (putbit_leads hr ((isWriter_iff s).1 hl) _).bind fun _ _ ht => ht.1

theorem execPutbits_safe {s : State} (h : Inv s) (n : BitVec 8) (opa : Word) : Safe (execPutbits n opa s) :=
  execute_safe h fun hr hl => by
    rw [Bool.and_eq_true, isWriter_iff] at hl
    rw [putbits_eq_putAll]
    exact (putAll_leads hr hl.2 _).bind fun _ _ ht => ht.1

theorem execGetbit_safe {s : State} (h : Inv s) : Safe (execGetbit s) :=
  execute_safe h fun hr hl => by
    cases hg : getbit s with
    | none => exact hr
    | some p => exact (getbit_ready hr ((isReader_iff s).1 hl) hg).1

theorem execGetbits_safe {s : State} (h : Inv s) (n : BitVec 8) : Safe (execGetbits n s) :=
  execute_safe h fun hr hl => by
    rw [Bool.and_eq_true, isReader_iff] at hl
    exact (getbits_leads hr hl.2 _).bind fun _ _ ht => ht.1

/-! ### The coder -/

theorem execSetm_safe {s : State} (h : Inv s) (opa : Word) : Safe (execSetm opa s) :=
  execute_safe h fun hr _ => by
    split
    · trivial
    · split
      · trivial
      · unfold Config.mMax at *
        exact hr.after_setParameter (by omega) (by omega)

theorem execEncu_safe {s : State} (h : Inv s) (opa : Word) : Safe (execEncu opa s) :=
  execute_safe h fun hr hl =>
    .ite (fun _ => trivial) fun _ => (encu_leads hr ((isWriter_iff s).1 hl) _).bind fun _ _ ht => ht.1

theorem execDecu_safe {s : State} (h : Inv s) : Safe (execDecu s) :=
  execute_safe h fun hr hl => (decu_leads hr ((isReader_iff s).1 hl)).bind fun _ _ ht => ht.1

theorem execEncz_safe {s : State} (h : Inv s) (opa : Word) : Safe (execEncz opa s) :=
  execute_safe h fun hr hl => (encu_leads hr ((isWriter_iff s).1 hl) _).bind fun _ _ ht => ht.1

theorem execDecz_safe {s : State} (h : Inv s) : Safe (execDecz s) :=
  execute_safe h fun hr hl => (decu_leads hr ((isReader_iff s).1 hl)).bind fun _ _ ht => ht.1

theorem execEncs_safe {s : State} (h : Inv s) (opa : Word) : Safe (execEncs opa s) :=
  execute_safe h fun hr hl =>
    have hm := (isWriter_iff s).1 hl
    (putbit_leads hr hm _).bind fun _ t ht =>
      have hmt : t.mode = .write := by rw [ht.2]; exact hm
      (encu_leads ht.1 hmt _).bind fun _ _ hu => hu.1

theorem getSign_leads {s : State} (h : Ready s) (hm : s.mode = .read) :
    (getSign s).Leads fun _ t => Ready t ∧ ReadFrame s t := by
  unfold getSign
  cases hg : getbit s with
  | none => trivial
  | some p => exact getbit_ready h hm hg

theorem execDecs_safe {s : State} (h : Inv s) : Safe (execDecs s) :=
  execute_safe h fun hr hl =>
    have hm := (isReader_iff s).1 hl
    (getSign_leads hr hm).bind fun neg t ht =>
      have hmt : t.mode = .read := by rw [ht.2]; exact hm
      (decu_leads ht.1 hmt).bind fun v u hu => .ite (fun _ => trivial) (fun _ => hu.1)

/-! ### The estimator and the predictors -/

theorem execEstclr_safe {s : State} (h : Inv s) : Safe (execEstclr s) :=
  execute_safe h fun hr _ => hr.of_window 0 0 (Nat.zero_le _)

theorem execEstacc_safe {s : State} (h : Inv s) (opa : Word) : Safe (execEstacc opa s) :=
  execute_safe h fun hr _ => (estacc_leads hr (natAbs_s32_le opa)).bind fun _ _ ht => ht.1

theorem execEst1d_safe {s : State} (h : Inv s) : Safe (execEst1d s) :=
  execute_safe h fun hr _ =>
    .ite (fun _ => trivial) fun _ => hr

theorem execEst2d_safe {s : State} (h : Inv s) : Safe (execEst2d s) :=
  execute_safe h fun hr _ =>
    .ite (fun _ => trivial) fun _ => hr

theorem execP1rst_safe {s : State} (h : Inv s) : Safe (execP1rst s) := execute_safe h fun hr _ => hr.after_hreset

theorem execP1push_safe {s : State} (h : Inv s) (opa : Word) : Safe (execP1push opa s) :=
  execute_safe h fun hr _ =>
    .ite (fun _ => hr.after_hpush _) fun _ => trivial

theorem execP1pred_safe {s : State} (h : Inv s) (k : BitVec 8) (opa : Word) : Safe (execP1pred k opa s) :=
  execute_safe h fun hr _ => by
    split
    · exact hr
    · split
      · exact hr
      · trivial

theorem execP2pred_safe {s : State} (h : Inv s) : Safe (execP2pred s) :=
  execute_safe h fun hr hl => by
    rw [ps_eq (hr.running.col_lt_lineDepth hl)]
    exact hr

/-! ### The 1-D codec -/

theorem execBegin1a_safe {s : State} (h : Inv s) : Safe (execBegin1a s) :=
  execute_safe h fun hr hl =>
    .ite (fun hn => hr.after_startPhase1 (of_decide_eq_true hl) hn (.inl rfl)) fun _ => trivial

theorem execRsd1_safe {s : State} (h : Inv s) (opa opb : Word) : Safe (execRsd1 opa opb s) :=
  execute_safe h fun hr hl => (residual1_leads opa opb s).bind fun e t ⟨ht, he⟩ => by
    subst ht
    refine (estacc_leads hr he).bind fun _ u ⟨hu, hf⟩ => ?_
    exact hu.after_s1advance (.inl (by rw [hf]; exact of_decide_eq_true hl)) _

theorem execWrhdr1_safe {s : State} (h : Inv s) : Safe (execWrhdr1 s) :=
  execute_safe h fun hr hl => by
    obtain ⟨hm, hp⟩ := writerIn_iff.1 hl
    split
    · rename_i hn
      rw [putHeader1_eq]
      refine (putAll_leads hr hm _).bind fun _ t ⟨ht, hf⟩ => ?_
      exact ht.after_startPhase1 (by rw [hf]; exact hp) (by rw [hf]; exact hn) (.inr (.inl ⟨rfl, by rw [hf]; exact hm⟩))
    · trivial

theorem execEnc1_safe {s : State} (h : Inv s) (opa opb : Word) : Safe (execEnc1 opa opb s) :=
  execute_safe h fun hr hl => (residual1_leads opa opb s).bind fun e t ⟨ht, _⟩ => by
    subst ht
    obtain ⟨hm, hp⟩ := writerIn_iff.1 hl
    refine (encu_leads hr hm _).bind fun _ u ⟨hu, hf⟩ => ?_
    have hfit : Phase1Fits u := Phase1Fits.of_eq (.inr (.inl ⟨hp, hm⟩)) (by rw [hf]) (by rw [hf])
    exact hu.after_s1advance hfit _

theorem execRdhdr1_safe {s : State} (h : Inv s) : Safe (execRdhdr1 s) :=
  execute_safe h fun hr hl => by
    obtain ⟨hm, hp⟩ := readerIn_iff.1 hl
    refine (getHeader1_leads hr hm).bind fun hd t ⟨ht, hf, hnc, hne, hlt⟩ => ?_
    have hpt : t.phase = .idle := by rw [hf]; exact hp
    have hn : channelsOk (loadHeader1 hd t).nch.toNat = true := by
      rw [channelsOk_iff, loadHeader1_nch, BitVec.toNat_ofNat]
      omega
    exact (ht.after_loadHeader1 hpt hne hlt).after_startPhase1 hpt hn (.inr (.inr ⟨rfl, by rw [hf]; exact hm⟩))

theorem execDec1_safe {s : State} (h : Inv s) (opa : Word) : Safe (execDec1 opa s) :=
  execute_safe h fun hr hl => by
    obtain ⟨hm, hp⟩ := readerIn_iff.1 hl
    split
    · trivial
    · refine (decu_leads hr hm).bind fun v t ⟨ht, hf⟩ => ?_
      have hfit : Phase1Fits t := Phase1Fits.of_eq (.inr (.inr ⟨hp, hm⟩)) (by rw [hf]) (by rw [hf])
      split
      · exact ht.after_s1advance hfit _
      · trivial

/-! ### The 2-D codec -/

theorem execBegin2a_safe {s : State} (h : Inv s) : Safe (execBegin2a s) :=
  execute_safe h fun hr hl =>
    .ite (fun hg => hr.after_startPhase2 (of_decide_eq_true hl) hg (.inl rfl)) fun _ => trivial

theorem execRsd2_safe {s : State} (h : Inv s) (opa : Word) : Safe (execRsd2 opa s) :=
  execute_safe h fun hr hl => by
    have hfit : Phase2Fits s := .inl (of_decide_eq_true hl)
    refine (residual2_leads opa (hr.running.col_lt_lineDepth hfit.inPhase.2)).bind fun e t ⟨ht, he⟩ => ?_
    subst ht
    refine (estacc_leads hr he).bind fun _ u ⟨hu, hf⟩ => ?_
    exact (s2advance_leads hu (hfit.of_eq (by rw [hf]) (by rw [hf])) _).bind fun _ _ hv => hv

theorem execWrhdr2_safe {s : State} (h : Inv s) : Safe (execWrhdr2 s) :=
  execute_safe h fun hr hl => by
    obtain ⟨hm, hp⟩ := writerIn_iff.1 hl
    split
    · rename_i hg
      rw [putHeader2_eq]
      refine (putAll_leads hr hm _).bind fun _ t ⟨ht, hf⟩ => ?_
      exact ht.after_startPhase2 (by rw [hf]; exact hp) (by rw [hf]; exact hg) (.inr (.inl ⟨rfl, by rw [hf]; exact hm⟩))
    · trivial

theorem execEnc2_safe {s : State} (h : Inv s) (opa : Word) : Safe (execEnc2 opa s) :=
  execute_safe h fun hr hl => by
    obtain ⟨hm, hp⟩ := writerIn_iff.1 hl
    have hfit : Phase2Fits s := .inr (.inl ⟨hp, hm⟩)
    refine (residual2_leads opa (hr.running.col_lt_lineDepth hfit.inPhase.2)).bind fun e t ⟨ht, _⟩ => ?_
    subst ht
    refine (encu_leads hr hm _).bind fun _ u ⟨hu, hf⟩ => ?_
    exact (s2advance_leads hu (hfit.of_eq (by rw [hf]) (by rw [hf])) _).bind fun _ _ hv => hv

theorem execRdhdr2_safe {s : State} (h : Inv s) : Safe (execRdhdr2 s) :=
  execute_safe h fun hr hl => by
    obtain ⟨hm, hp⟩ := readerIn_iff.1 hl
    refine (getHeader2_leads hr hm).bind fun hd t ⟨ht, hf, hne, hlt, hg⟩ => ?_
    have hpt : t.phase = .idle := by rw [hf]; exact hp
    exact (ht.after_loadHeader2 hpt hne hlt).after_startPhase2 hpt hg (.inr (.inr ⟨rfl, by rw [hf]; exact hm⟩))

theorem execDec2_safe {s : State} (h : Inv s) : Safe (execDec2 s) :=
  execute_safe h fun hr hl => by
    obtain ⟨hm, hp⟩ := readerIn_iff.1 hl
    have hfit : Phase2Fits s := .inr (.inr ⟨hp, hm⟩)
    rw [ps_eq (hr.running.col_lt_lineDepth hfit.inPhase.2), Res.bind_ok]
    refine (decu_leads hr hm).bind fun v t ⟨ht, hf⟩ => ?_
    exact (s2advance_leads ht (hfit.of_eq (by rw [hf]) (by rw [hf])) _).bind fun _ _ hu => hu

/-! ### Every command, every step -/

/-- From a state that meets the invariant every command answers a next state that meets it. -/
theorem exec_safe {s : State} (h : Inv s) (i : Instr) : Safe (exec i s) := by
  cases i with
  | nop => exact execNop_safe h
  | reset => exact execReset_safe s
  | rdreg r => exact execRdreg_safe h r
  | wrreg r opa => exact execWrreg_safe h r opa
  | openw => exact execOpenw_safe h
  | openr => exact execOpenr_safe h
  | close => exact execClose_safe h
  | putbit opa => exact execPutbit_safe h opa
  | putbits n opa => exact execPutbits_safe h n opa
  | getbit => exact execGetbit_safe h
  | getbits n => exact execGetbits_safe h n
  | setm opa => exact execSetm_safe h opa
  | encu opa => exact execEncu_safe h opa
  | decu => exact execDecu_safe h
  | encz opa => exact execEncz_safe h opa
  | decz => exact execDecz_safe h
  | encs opa => exact execEncs_safe h opa
  | decs => exact execDecs_safe h
  | estclr => exact execEstclr_safe h
  | estacc opa => exact execEstacc_safe h opa
  | est1d => exact execEst1d_safe h
  | est2d => exact execEst2d_safe h
  | p1rst => exact execP1rst_safe h
  | p1push opa => exact execP1push_safe h opa
  | p1pred k opa => exact execP1pred_safe h k opa
  | p2pred => exact execP2pred_safe h
  | begin1a => exact execBegin1a_safe h
  | rsd1 opa opb => exact execRsd1_safe h opa opb
  | wrhdr1 => exact execWrhdr1_safe h
  | enc1 opa opb => exact execEnc1_safe h opa opb
  | rdhdr1 => exact execRdhdr1_safe h
  | dec1 opa => exact execDec1_safe h opa
  | begin2a => exact execBegin2a_safe h
  | rsd2 opa => exact execRsd2_safe h opa
  | wrhdr2 => exact execWrhdr2_safe h
  | enc2 opa => exact execEnc2_safe h opa
  | rdhdr2 => exact execRdhdr2_safe h
  | dec2 => exact execDec2_safe h

theorem execIllegal_safe {s : State} (h : Inv s) : Safe (execIllegal s) :=
  execute_safe h fun _ hl => absurd hl Bool.false_ne_true

theorem hardReset_inv (rest : List HostEvent) (s : State) : Inv (hardReset rest s) :=
  (Ready.after_resetState s).inv.of_host rest s.env none

/-- What a step is at each kind of next event. -/
theorem step_idle {s : State} (h : s.pending = []) : step s = .next s := by simp [step, fetch, h]

theorem step_hardwareReset {s : State} {rest : List HostEvent} (h : s.pending = .hardwareReset :: rest) :
    step s = .next (hardReset rest s) := by simp [step, fetch, h]

theorem step_command {s : State} {t : Txn} {rest : List HostEvent} {i : Instr} (h : s.pending = .transact t :: rest)
    (hd : decode t.words = .ok i) : step s = exec i (accept t rest s) := by simp [step, fetch, h, hd]

theorem step_illegal {s : State} {t : Txn} {rest : List HostEvent} {e : Reject} (h : s.pending = .transact t :: rest)
    (hd : decode t.words = .error e) : step s = execIllegal (accept t rest s) := by simp [step, fetch, h, hd]

/-- From a state that meets the invariant every step answers a next state that meets it. -/
theorem step_safe {s : State} (h : Inv s) : Safe (step s) := by
  cases hp : s.pending with
  | nil => exact step_idle hp ▸ ⟨s, rfl, h⟩
  | cons ev rest =>
    cases ev with
    | hardwareReset => exact step_hardwareReset hp ▸ ⟨_, rfl, hardReset_inv rest s⟩
    | transact t =>
      cases hd : decode t.words with
      | ok i => exact step_command hp hd ▸ exec_safe (h.after_accept t rest) i
      | error e => exact step_illegal hp hd ▸ execIllegal_safe (h.after_accept t rest)

/-- Settles O8: a step answers only the next state `step_safe` gives, and that one meets the invariant. -/
theorem stepKeepsInvariant : Obligations.StepKeepsInvariant := by
  unfold Obligations.StepKeepsInvariant
  intro s t h hstep
  obtain ⟨u, hu, hinv⟩ := step_safe h
  rw [hstep] at hu
  cases hu
  exact hinv

/-- Settles O4: the state the command runs in is the one `accept` leaves. -/
theorem stepRunsDecodedCommand : Obligations.StepRunsDecodedCommand := by
  unfold Obligations.StepRunsDecodedCommand
  intro s t rest i hp hd
  exact step_command hp hd

/-- Settles O7: the machine right after reset is the reset of itself. -/
theorem resetMeetsInvariant : Obligations.ResetMeetsInvariant := by
  unfold Obligations.ResetMeetsInvariant
  exact (Ready.after_resetState State.reset).inv

end Sys2Proof.Machine
end

section
/-! SUPPORT. What every command leaves unchanged, from any state: the parts of the state that the rules of 10_state.md
give to a few commands each, the micro-operations that keep them, and one lemma per command. -/

namespace Sys2Proof.Machine

variable {α β : Type}

/-- The parts of the state whose writers the spec names, and the fields that no command writes. -/
inductive Part where
  /-- `M`, `B`, `CUTOFF` (10_state.md R28, R29) -/
  | coder
  /-- `SUM`, `CNT` (R38) -/
  | window
  /-- the bytes of `OUT` (R33) -/
  | bytes
  /-- `OUT` as a sink that only grows, with its capacity (R33) -/
  | sink
  /-- `IN` (R34) -/
  | source
  /-- `LINE` (20_memory.md R70) -/
  | line
  /-- `LINE_DEPTH`, the events that wait, the environment inputs -/
  | host

/-- From `s` to `t` a part of the state is kept. -/
def Kept : Part → State → State → Prop
  | .coder, s, t => t.m = s.m ∧ t.b = s.b ∧ t.cutoff = s.cutoff
  | .window, s, t => t.sum = s.sum ∧ t.cnt = s.cnt
  | .bytes, s, t => t.out = s.out
  | .sink, s, t => s.out <+: t.out ∧ t.sinkCap = s.sinkCap
  | .source, s, t => t.inp = s.inp
  | .line, s, t => t.line = s.line
  | .host, s, t => t.lineDepth = s.lineDepth ∧ t.pending = s.pending ∧ t.env = s.env

/-- Where none of the fields that the parts speak of changes, every part is kept. -/
theorem Kept.of_frame {s t : State} (p : Part)
    (ht : t = { t with
      m := s.m, b := s.b, cutoff := s.cutoff, sum := s.sum, cnt := s.cnt, out := s.out, sinkCap := s.sinkCap,
      inp := s.inp, line := s.line, lineDepth := s.lineDepth, pending := s.pending, env := s.env }) : Kept p s t := by
  rw [ht]
  cases p <;> simp [Kept]

theorem Kept.refl (p : Part) (s : State) : Kept p s s := .of_frame p rfl

theorem Kept.trans {p : Part} {s t u : State} (h : Kept p s t) (g : Kept p t u) : Kept p s u := by
  cases p with
  | sink => exact ⟨h.1.trans g.1, g.2.trans h.2⟩
  | _ => simp_all [Kept]

/-- A part of a command's pseudocode keeps a part of the state, also where it raises a cause. -/
def Res.Keeps (p : Part) (s : State) : Res α → Prop
  | .ok _ t => Kept p s t
  | .raise _ t => Kept p s t
  | .stop _ => True

theorem Res.Keeps.trans {p : Part} {s t : State} {r : Res α} (h : Kept p s t) (hr : r.Keeps p t) : r.Keeps p s := by
  cases r with
  | ok a u => exact h.trans hr
  | raise c u => exact h.trans hr
  | stop f => trivial

theorem Res.Keeps.bind {p : Part} {s : State} {r : Res α} {k : α → State → Res β} (h : r.Keeps p s)
    (hk : ∀ a t, (k a t).Keeps p t) : (r.bind k).Keeps p s := by
  cases r with
  | ok a t => exact .trans h (hk a t)
  | raise c t => exact h
  | stop f => trivial

theorem Res.Keeps.ite {p : Part} {s : State} {c : Prop} [Decidable c] {r q : Res α} (hr : r.Keeps p s)
    (hq : q.Keeps p s) : (if c then r else q).Keeps p s := by
  split
  · exact hr
  · exact hq

/-- How a command ends: a response, or fault entry, in a state that keeps a part of `s`. -/
def Finishes (p : Part) (s : State) (o : Out) : Prop :=
  ∀ t, o = .next t → ∃ u, Kept p s u ∧ ((∃ r, t = respond r u) ∨ ∃ c, t = takeFault c u)

theorem Finishes.of_respond {p : Part} {s u : State} (r : Response) (h : Kept p s u) :
    Finishes p s (.next (respond r u)) := fun t ht => by
  cases ht
  exact ⟨u, h, .inl ⟨r, rfl⟩⟩

/-- A command under the common prologue keeps what its pseudocode keeps where it is legal. -/
theorem execute_finishes {p : Part} {legal : Bool} {body : State → Res Response} {s : State}
    (hb : legal = true → (body s).Keeps p s) : Finishes p s (execute legal body s) := by
  intro t ht
  rcases execute_cases ht with ⟨c, _, rfl⟩ | ⟨_, _, rfl⟩ | ⟨_, hl, r, u, he, rfl⟩ | ⟨_, hl, c, u, he, rfl⟩
  · exact ⟨s, .refl p s, .inl ⟨_, rfl⟩⟩
  · exact ⟨s, .refl p s, .inr ⟨_, rfl⟩⟩
  · have hk := hb hl
    rw [he] at hk
    exact ⟨u, hk, .inl ⟨r, rfl⟩⟩
  · have hk := hb hl
    rw [he] at hk
    exact ⟨u, hk, .inr ⟨c, rfl⟩⟩

/-- A command that ends unfaulted keeps the part in the state it leaves. -/
theorem Finishes.kept {p : Part} {s t : State} {o : Out} (h : Finishes p s o) (ho : o = .next t) (hc : t.cause = none) :
    Kept p s t := by
  obtain ⟨u, hu, ⟨r, rfl⟩ | ⟨c, rfl⟩⟩ := h t ho
  · exact hu.trans (.of_frame p rfl)
  · cases hc

/-- A command leaves a response and the host's fields, fault entry included. -/
theorem Finishes.host {s t : State} {o : Out} (h : Finishes .host s o) (ho : o = .next t) :
    t.resp ≠ none ∧ Kept .host s t := by
  obtain ⟨u, hu, ⟨r, rfl⟩ | ⟨c, rfl⟩⟩ := h t ho
  · exact ⟨by simp, hu⟩
  · exact ⟨by simp [takeFault], hu⟩

/-! ### The micro-operations -/

/-- Of the parts only the window holds `SUM` and `CNT`. -/
theorem window_kept {p : Part} (hp : p ≠ .window) (x : BitVec 64) (n : BitVec 32) (s : State) :
    Kept p s { s with sum := x, cnt := n } := by
  cases p with
  | window => exact absurd rfl hp
  | _ => simp [Kept]

theorem setParameter_kept {p : Part} (hp : p ≠ .coder) (m : Nat) (s : State) : Kept p s (setParameter m s) := by
  cases p with
  | coder => exact absurd rfl hp
  | _ => simp [Kept]

theorem startPhase2_kept {p : Part} (hp : p ≠ .line) (ph : Phase) (s : State) : Kept p s (startPhase2 ph s) := by
  cases p with
  | line => exact absurd rfl hp
  | _ => simp [Kept]

theorem openReader_kept {p : Part} (hp : p ≠ .source) (s : State) : Kept p s (openReader s) := by
  cases p with
  | source => exact absurd rfl hp
  | _ => simp [Kept]

theorem openWriter_kept {p : Part} (h1 : p ≠ .bytes) (h2 : p ≠ .sink) (s : State) : Kept p s (openWriter s) := by
  cases p with
  | bytes => exact absurd rfl h1
  | sink => exact absurd rfl h2
  | _ => simp [Kept]

theorem lineWrite_kept {p : Part} (hp : p ≠ .line) (i : Nat) (y : Byte) (s : State) : Kept p s (lineWrite i y s) := by
  unfold lineWrite
  split
  · cases p with
    | line => exact absurd rfl hp
    | _ => simp [Kept]
  · exact .refl p s

/-- A byte more in `OUT` is growth of the sink, and concerns no other part. -/
theorem push_kept {p : Part} (hp : p ≠ .bytes) (y : Byte) (s : State) : Kept p s { s with out := s.out ++ [y] } := by
  cases p with
  | bytes => exact absurd rfl hp
  | _ => simp [Kept]

theorem sinkPush_keeps {p : Part} (hp : p ≠ .bytes) (y : Byte) (s : State) : (sinkPush y s).Keeps p s := by
  unfold sinkPush
  exact .ite (push_kept hp y s) (.refl p s)

theorem putbit_keeps {p : Part} (hp : p ≠ .bytes) (x : Bool) (s : State) : (putbit x s).Keeps p s := by
  refine .ite (.bind (.trans (.of_frame p rfl) (sinkPush_keeps hp _ _)) fun _ t => ?_) ?_
  · exact .of_frame p rfl
  · exact .of_frame p rfl

theorem putbits_keeps {p : Part} (hp : p ≠ .bytes) (n v : Nat) : ∀ s, (putbits n v s).Keeps p s := by
  induction n with
  | zero => exact fun s => .refl p s
  | succ n ih => exact fun s => (putbit_keeps hp _ s).bind fun _ t => ih t

theorem putZeros_keeps {p : Part} (hp : p ≠ .bytes) (q : Nat) : ∀ s, (putZeros q s).Keeps p s := by
  induction q with
  | zero => exact fun s => .refl p s
  | succ q ih => exact fun s => (putbit_keeps hp _ s).bind fun _ t => ih t

theorem encu_keeps {p : Part} (hp : p ≠ .bytes) (v : Nat) (s : State) : (encu v s).Keeps p s :=
  (putZeros_keeps hp _ s).bind fun _ t => (putbit_keeps hp _ t).bind fun _ u =>
    .ite (putbits_keeps hp _ _ u) (putbits_keeps hp _ _ u)

/-- A bit that is read changes the reader's accumulator and position only. -/
theorem getbit_frame {s t : State} {x : Bool} (h : getbit s = some (x, t)) : ReadFrame s t := by
  unfold getbit at h
  split at h
  · split at h <;> cases h; rfl
  · cases h; rfl

theorem ReadFrame.kept {s t : State} (p : Part) (h : ReadFrame s t) : Kept p s t := by
  rw [h]
  exact .of_frame p rfl

theorem getbitsLoop_keeps (p : Part) (n : Nat) : ∀ v s, (getbitsLoop n v s).Keeps p s := by
  induction n with
  | zero => exact fun v s => .refl p s
  | succ n ih =>
    intro v s
    unfold getbitsLoop
    cases hg : getbit s with
    | none => exact .refl p s
    | some b => exact .trans ((getbit_frame hg).kept p) (ih _ _)

theorem getbits_keeps (p : Part) (n : Nat) (s : State) : (getbits n s).Keeps p s :=
  .ite (.refl p s) (getbitsLoop_keeps p n 0 s)

theorem countZeros_keeps (p : Part) (fuel : Nat) : ∀ q s, (countZeros fuel q s).Keeps p s := by
  induction fuel with
  | zero => exact fun q s => .refl p s
  | succ fuel ih =>
    intro q s
    unfold countZeros
    cases hg : getbit s with
    | none => exact .refl p s
    | some b =>
      obtain ⟨x, t⟩ := b
      have hf := (getbit_frame hg).kept p
      cases x with
      | true => exact hf
      | false => exact .trans hf (ih _ t)

theorem getRemainder_keeps (p : Part) (s : State) : (getRemainder s).Keeps p s := by
  refine .ite (.refl p s) ((getbits_keeps p _ s).bind fun r t => .ite (.refl p t) ?_)
  cases hg : getbit t with
  | none => exact .refl p t
  | some b => exact (getbit_frame hg).kept p

theorem decu_keeps (p : Part) (s : State) : (decu s).Keeps p s :=
  (countZeros_keeps p _ 0 s).bind fun _ t => (getRemainder_keeps p t).bind fun _ u => .ite (.refl p u) (.refl p u)

theorem getSign_keeps (p : Part) (s : State) : (getSign s).Keeps p s := by
  unfold getSign
  cases hg : getbit s with
  | none => exact .refl p s
  | some b => exact (getbit_frame hg).kept p

theorem estacc_keeps {p : Part} (hp : p ≠ .window) (e : Int) (s : State) : (estacc e s).Keeps p s :=
  .ite (.refl p s) (window_kept hp _ _ s)

theorem ps_keeps (p : Part) (s : State) : (ps s).Keeps p s := by
  unfold ps
  split
  · trivial
  · exact .refl p s

theorem s1advance_kept (p : Part) (x : Int) (s : State) : Kept p s (s1advance x s) := by
  by_cases hlast : s.idx + 1 = s.nsamp
  · by_cases hleft : s.ch = 0 ∧ s.nch = 2
    · rw [s1advance_channel x hlast hleft.1 hleft.2]; exact .of_frame p rfl
    · rw [s1advance_end x hlast hleft]; exact .of_frame p rfl
  · rw [s1advance_within x hlast]; exact .of_frame p rfl

theorem nextPosition_kept (p : Part) (s : State) : Kept p s (nextPosition s) := by
  unfold nextPosition
  split <;> exact .of_frame p rfl

theorem p2push_keeps {p : Part} (hp : p ≠ .line) (x : Byte) (s : State) : (p2push x s).Keeps p s := by
  unfold p2push
  cases lineRead s s.col.toNat with
  | none => trivial
  | some top =>
    have hw : Kept p s { lineWrite s.col.toNat x s with creg := top, areg := x } :=
      (lineWrite_kept hp s.col.toNat x s).trans (.of_frame p rfl)
    exact hw.trans (nextPosition_kept p _)

theorem s2advance_keeps {p : Part} (hp : p ≠ .line) (x : Byte) (s : State) : (s2advance x s).Keeps p s :=
  (p2push_keeps hp x s).bind fun last t => by
    cases last <;> exact .of_frame p rfl

theorem residual1_keeps (p : Part) (opa opb : Word) (s : State) : (residual1 opa opb s).Keeps p s :=
  .ite (.refl p s) (.ite (.refl p s) (.refl p s))

theorem residual2_keeps (p : Part) (opa : Word) (s : State) : (residual2 opa s).Keeps p s :=
  .ite ((ps_keeps p s).bind fun _ t => .refl p t) (.refl p s)

theorem putHeader1_keeps {p : Part} (hp : p ≠ .bytes) (s : State) : (putHeader1 s).Keeps p s :=
  (putbits_keeps hp _ _ s).bind fun _ s1 => (putbits_keeps hp _ _ s1).bind fun _ s2 =>
  (putbits_keeps hp _ _ s2).bind fun _ s3 => (putbits_keeps hp _ _ s3).bind fun _ s4 =>
  (putbits_keeps hp _ _ s4).bind fun _ s5 => (putbits_keeps hp _ _ s5).bind fun _ s6 =>
  .ite (putbits_keeps hp _ _ s6) (.refl p s6)

theorem putHeader2_keeps {p : Part} (hp : p ≠ .bytes) (s : State) : (putHeader2 s).Keeps p s :=
  (putbits_keeps hp _ _ s).bind fun _ s1 => (putbits_keeps hp _ _ s1).bind fun _ s2 =>
  (putbits_keeps hp _ _ s2).bind fun _ s3 => putbits_keeps hp _ _ s3

theorem getHeader1_keeps (p : Part) (s : State) : (getHeader1 s).Keeps p s :=
  (getbits_keeps p _ s).bind fun _ s1 => (getbits_keeps p _ s1).bind fun _ s2 =>
  (getbits_keeps p _ s2).bind fun _ s3 => (getbits_keeps p _ s3).bind fun _ s4 =>
  (getbits_keeps p _ s4).bind fun _ s5 => (getbits_keeps p _ s5).bind fun _ s6 =>
  .ite (.bind (.ite (getbits_keeps p _ s6) (.refl p s6)) fun _ s7 => .ite (.refl p s7) (.refl p s7)) (.refl p s6)

theorem getHeader2_keeps (p : Part) (s : State) : (getHeader2 s).Keeps p s :=
  (getbits_keeps p _ s).bind fun _ s1 => (getbits_keeps p _ s1).bind fun _ s2 =>
  (getbits_keeps p _ s2).bind fun _ s3 => (getbits_keeps p _ s3).bind fun _ s4 => .ite (.refl p s4) (.refl p s4)

theorem loadHeader1_kept {p : Part} (hp : p ≠ .coder) (hd : Header1) (s : State) : Kept p s (loadHeader1 hd s) :=
  .trans (.of_frame p rfl) (setParameter_kept hp hd.m _)

theorem loadHeader2_kept {p : Part} (hp : p ≠ .coder) (hd : Header2) (s : State) : Kept p s (loadHeader2 hd s) :=
  .trans (.of_frame p rfl) (setParameter_kept hp hd.m _)

theorem flushPartial_keeps {p : Part} {s : State} (hb : s.mode = .write → p ≠ .bytes) : (flushPartial s).Keeps p s := by
  unfold flushPartial
  split
  · rename_i h
    exact sinkPush_keeps (hb h.1) _ s
  · exact .refl p s

/-! ### The commands -/

section
variable {p : Part} {s : State}

theorem execRdreg_finishes (r : Reg) : Finishes p s (execRdreg r s) := by
  unfold execRdreg
  split
  · exact .of_respond _ (.refl p s)
  · exact execute_finishes fun _ => .refl p s

theorem execWrreg_finishes (r : Reg) (opa : Word) : Finishes p s (execWrreg r opa s) :=
  execute_finishes fun _ => .ite (.refl p s) (by cases r <;> exact .of_frame p rfl)

theorem execOpenw_finishes (h1 : p ≠ .bytes) (h2 : p ≠ .sink) : Finishes p s (execOpenw s) :=
  execute_finishes fun _ => .ite (openWriter_kept h1 h2 s) (.refl p s)

theorem execOpenr_finishes (h : p ≠ .source) : Finishes p s (execOpenr s) :=
  execute_finishes fun _ => .ite (openReader_kept h s) (.refl p s)

theorem execClose_finishes (hb : s.mode = .write → p ≠ .bytes) : Finishes p s (execClose s) :=
  execute_finishes fun _ => (flushPartial_keeps hb).bind fun _ _ => .of_frame p rfl

theorem execPutbit_finishes (hb : s.mode = .write → p ≠ .bytes) (opa : Word) : Finishes p s (execPutbit opa s) :=
  execute_finishes fun hl => (putbit_keeps (hb ((isWriter_iff s).1 hl)) _ s).bind fun _ t => .refl p t

theorem execPutbits_finishes (hb : s.mode = .write → p ≠ .bytes) (n : BitVec 8) (opa : Word) :
    Finishes p s (execPutbits n opa s) :=
  execute_finishes fun hl =>
    have hm := (isWriter_iff s).1 ((Bool.and_eq_true _ _).mp hl).2
    (putbits_keeps (hb hm) _ _ s).bind fun _ t => .refl p t

theorem execGetbit_finishes : Finishes p s (execGetbit s) :=
  execute_finishes fun _ => by
    cases hg : getbit s with
    | none => exact .refl p s
    | some b => exact (getbit_frame hg).kept p

theorem execGetbits_finishes (n : BitVec 8) : Finishes p s (execGetbits n s) :=
  execute_finishes fun _ => (getbits_keeps p _ s).bind fun _ t => .refl p t

theorem execSetm_finishes (h : p ≠ .coder) (opa : Word) : Finishes p s (execSetm opa s) :=
  execute_finishes fun _ => .ite (.refl p s) (.ite (.refl p s) (setParameter_kept h _ s))

theorem execEncu_finishes (hb : s.mode = .write → p ≠ .bytes) (opa : Word) : Finishes p s (execEncu opa s) :=
  execute_finishes fun hl => .ite (.refl p s) ((encu_keeps (hb ((isWriter_iff s).1 hl)) _ s).bind fun _ t => .refl p t)

theorem execDecu_finishes : Finishes p s (execDecu s) :=
  execute_finishes fun _ => (decu_keeps p s).bind fun _ t => .refl p t

theorem execEncz_finishes (hb : s.mode = .write → p ≠ .bytes) (opa : Word) : Finishes p s (execEncz opa s) :=
  execute_finishes fun hl => (encu_keeps (hb ((isWriter_iff s).1 hl)) _ s).bind fun _ t => .refl p t

theorem execDecz_finishes : Finishes p s (execDecz s) :=
  execute_finishes fun _ => (decu_keeps p s).bind fun _ t => .refl p t

theorem execEncs_finishes (hb : s.mode = .write → p ≠ .bytes) (opa : Word) : Finishes p s (execEncs opa s) :=
  execute_finishes fun hl =>
    have hp := hb ((isWriter_iff s).1 hl)
    (putbit_keeps hp _ s).bind fun _ t => (encu_keeps hp _ t).bind fun _ u => .refl p u

theorem execDecs_finishes : Finishes p s (execDecs s) :=
  execute_finishes fun _ => (getSign_keeps p s).bind fun _ t => (decu_keeps p t).bind fun _ u =>
    .ite (.refl p u) (.refl p u)

theorem execEstclr_finishes (h : p ≠ .window) : Finishes p s (execEstclr s) :=
  execute_finishes fun _ => window_kept h 0 0 s

theorem execEstacc_finishes (h : p ≠ .window) (opa : Word) : Finishes p s (execEstacc opa s) :=
  execute_finishes fun _ => (estacc_keeps h _ s).bind fun _ t => .refl p t

theorem execEst1d_finishes : Finishes p s (execEst1d s) := execute_finishes fun _ => .ite (.refl p s) (.refl p s)

theorem execEst2d_finishes : Finishes p s (execEst2d s) := execute_finishes fun _ => .ite (.refl p s) (.refl p s)

theorem execP1rst_finishes : Finishes p s (execP1rst s) := execute_finishes fun _ => .of_frame p rfl

theorem execP1push_finishes (opa : Word) : Finishes p s (execP1push opa s) :=
  execute_finishes fun _ => .ite (.of_frame p rfl) (.refl p s)

theorem execP1pred_finishes (k : BitVec 8) (opa : Word) : Finishes p s (execP1pred k opa s) :=
  execute_finishes fun _ => .ite (.refl p s) (.ite (.refl p s) (.refl p s))

theorem execP2pred_finishes : Finishes p s (execP2pred s) :=
  execute_finishes fun _ => (ps_keeps p s).bind fun _ t => .refl p t

theorem execBegin1a_finishes : Finishes p s (execBegin1a s) :=
  execute_finishes fun _ => .ite (.of_frame p rfl) (.refl p s)

theorem execRsd1_finishes (h : p ≠ .window) (opa opb : Word) : Finishes p s (execRsd1 opa opb s) :=
  execute_finishes fun _ => (residual1_keeps p opa opb s).bind fun _ t => (estacc_keeps h _ t).bind fun _ u =>
    s1advance_kept p _ u

theorem execWrhdr1_finishes (hb : s.mode = .write → p ≠ .bytes) : Finishes p s (execWrhdr1 s) :=
  execute_finishes fun hl =>
    have hm := (writerIn_iff.1 hl).1
    .ite ((putHeader1_keeps (hb hm) s).bind fun _ _ => .of_frame p rfl) (.refl p s)

theorem execEnc1_finishes (hb : s.mode = .write → p ≠ .bytes) (opa opb : Word) : Finishes p s (execEnc1 opa opb s) :=
  execute_finishes fun hl =>
    have hm := (writerIn_iff.1 hl).1
    (residual1_keeps p opa opb s).bind fun _ t => (encu_keeps (hb hm) _ t).bind fun _ u => s1advance_kept p _ u

theorem execRdhdr1_finishes (h : p ≠ .coder) : Finishes p s (execRdhdr1 s) :=
  execute_finishes fun _ => (getHeader1_keeps p s).bind fun hd t => (loadHeader1_kept h hd t).trans (.of_frame p rfl)

theorem execDec1_finishes (opa : Word) : Finishes p s (execDec1 opa s) :=
  execute_finishes fun _ => .ite (.refl p s) ((decu_keeps p s).bind fun _ t => .ite (s1advance_kept p _ t) (.refl p t))

theorem execBegin2a_finishes (h : p ≠ .line) : Finishes p s (execBegin2a s) :=
  execute_finishes fun _ => .ite (startPhase2_kept h _ s) (.refl p s)

theorem execRsd2_finishes (h1 : p ≠ .window) (h2 : p ≠ .line) (opa : Word) : Finishes p s (execRsd2 opa s) :=
  execute_finishes fun _ => (residual2_keeps p opa s).bind fun _ t => (estacc_keeps h1 _ t).bind fun _ u =>
    (s2advance_keeps h2 _ u).bind fun _ v => .refl p v

theorem execWrhdr2_finishes (hb : s.mode = .write → p ≠ .bytes) (h : p ≠ .line) : Finishes p s (execWrhdr2 s) :=
  execute_finishes fun hl =>
    have hm := (writerIn_iff.1 hl).1
    .ite ((putHeader2_keeps (hb hm) s).bind fun _ t => startPhase2_kept h _ t) (.refl p s)

theorem execEnc2_finishes (hb : s.mode = .write → p ≠ .bytes) (h : p ≠ .line) (opa : Word) :
    Finishes p s (execEnc2 opa s) :=
  execute_finishes fun hl =>
    have hm := (writerIn_iff.1 hl).1
    (residual2_keeps p opa s).bind fun _ t => (encu_keeps (hb hm) _ t).bind fun _ u =>
      (s2advance_keeps h _ u).bind fun _ v => .refl p v

theorem execRdhdr2_finishes (h1 : p ≠ .coder) (h2 : p ≠ .line) : Finishes p s (execRdhdr2 s) :=
  execute_finishes fun _ => (getHeader2_keeps p s).bind fun hd t =>
    (loadHeader2_kept h1 hd t).trans (startPhase2_kept h2 _ _)

theorem execDec2_finishes (h : p ≠ .line) : Finishes p s (execDec2 s) :=
  execute_finishes fun _ => (ps_keeps p s).bind fun _ t => (decu_keeps p t).bind fun _ u =>
    (s2advance_keeps h _ u).bind fun _ v => .refl p v

theorem execReset_finishes (h : p = .host) : Finishes p s (execReset s) :=
  h ▸ .of_respond (.ok 0) (⟨rfl, rfl, rfl⟩ : Kept .host s (resetState s))

theorem execIllegal_finishes : Finishes p s (execIllegal s) := execute_finishes fun _ => .refl p s

end

/-- The parts that a command may write in a state: the writers the spec names. -/
def MayWrite (i : Instr) (s : State) : Part → Prop
  | .coder => (∃ a, i = .setm a) ∨ i = .rdhdr1 ∨ i = .rdhdr2
  | .window => i = .estclr ∨ (∃ a, i = .estacc a) ∨ (∃ a b, i = .rsd1 a b) ∨ ∃ a, i = .rsd2 a
  | .bytes => s.mode = .write ∨ i = .openw
  | .sink => i = .openw
  | .source => i = .openr
  | .line => i = .begin2a ∨ i = .wrhdr2 ∨ i = .rdhdr2 ∨ (∃ a, i = .rsd2 a) ∨ (∃ a, i = .enc2 a) ∨ i = .dec2
  | .host => False

/-- Every command but RESET keeps the parts it may not write; RESET keeps the host's. -/
theorem exec_finishes {i : Instr} {s : State} {p : Part} (h : ¬ MayWrite i s p) (hi : i = .reset → p = .host) :
    Finishes p s (exec i s) := by
  have hne : ∀ q, MayWrite i s q → p ≠ q := fun q hq he => h (he ▸ hq)
  have hb : s.mode = .write → p ≠ .bytes := fun hm => hne _ (.inl hm)
  cases i with
  | nop => exact execute_finishes fun _ => .refl p s
  | reset => exact execReset_finishes (hi rfl)
  | rdreg r => exact execRdreg_finishes r
  | wrreg r opa => exact execWrreg_finishes r opa
  | openw => exact execOpenw_finishes (hne _ (.inr rfl)) (hne .sink rfl)
  | openr => exact execOpenr_finishes (hne .source rfl)
  | close => exact execClose_finishes hb
  | putbit opa => exact execPutbit_finishes hb opa
  | putbits n opa => exact execPutbits_finishes hb n opa
  | getbit => exact execGetbit_finishes
  | getbits n => exact execGetbits_finishes n
  | setm opa => exact execSetm_finishes (hne .coder (by simp [MayWrite])) opa
  | encu opa => exact execEncu_finishes hb opa
  | decu => exact execDecu_finishes
  | encz opa => exact execEncz_finishes hb opa
  | decz => exact execDecz_finishes
  | encs opa => exact execEncs_finishes hb opa
  | decs => exact execDecs_finishes
  | estclr => exact execEstclr_finishes (hne .window (by simp [MayWrite]))
  | estacc opa => exact execEstacc_finishes (hne .window (by simp [MayWrite])) opa
  | est1d => exact execEst1d_finishes
  | est2d => exact execEst2d_finishes
  | p1rst => exact execP1rst_finishes
  | p1push opa => exact execP1push_finishes opa
  | p1pred k opa => exact execP1pred_finishes k opa
  | p2pred => exact execP2pred_finishes
  | begin1a => exact execBegin1a_finishes
  | rsd1 opa opb => exact execRsd1_finishes (hne .window (by simp [MayWrite])) opa opb
  | wrhdr1 => exact execWrhdr1_finishes hb
  | enc1 opa opb => exact execEnc1_finishes hb opa opb
  | rdhdr1 => exact execRdhdr1_finishes (hne .coder (by simp [MayWrite]))
  | dec1 opa => exact execDec1_finishes opa
  | begin2a => exact execBegin2a_finishes (hne .line (by simp [MayWrite]))
  | rsd2 opa => exact execRsd2_finishes (hne .window (by simp [MayWrite])) (hne .line (by simp [MayWrite])) opa
  | wrhdr2 => exact execWrhdr2_finishes hb (hne .line (by simp [MayWrite]))
  | enc2 opa => exact execEnc2_finishes hb (hne .line (by simp [MayWrite])) opa
  | rdhdr2 => exact execRdhdr2_finishes (hne .coder (by simp [MayWrite])) (hne .line (by simp [MayWrite]))
  | dec2 => exact execDec2_finishes (hne .line (by simp [MayWrite]))

/-- Settles O60: each clause is the part that the command may not write. -/
theorem registerWriters : Obligations.RegisterWriters := by
  unfold Obligations.RegisterWriters
  intro i s t hexec hc hi
  have key : ∀ p, ¬ MayWrite i s p → Kept p s t := fun p hp =>
    (exec_finishes hp fun hr => absurd hr hi).kept hexec hc
  refine ⟨key .coder, key .window, fun hm ho => key .bytes ?_, key .sink, key .source, key .line⟩
  rintro (hw | hw)
  · exact hm hw
  · exact ho hw

/-- A command, or a word that is none, answers and leaves the host's fields as they are. -/
theorem step_transact_host {s t : State} {x : Txn} {rest : List HostEvent} (hp : s.pending = .transact x :: rest)
    (hs : step s = .next t) : t.resp ≠ none ∧ Kept .host (accept x rest s) t := by
  cases hd : decode x.words with
  | ok i =>
    rw [step_command hp hd] at hs
    exact (exec_finishes (p := .host) not_false fun _ => rfl).host hs
  | error e =>
    rw [step_illegal hp hd] at hs
    exact (execIllegal_finishes (p := .host)).host hs

/-- Settles O9: `step_safe` gives the next state, and each kind of event says what it leaves of the host's fields. -/
theorem everyTransactionIsAnswered : Obligations.EveryTransactionIsAnswered := by
  unfold Obligations.EveryTransactionIsAnswered
  intro s h
  obtain ⟨t, ht, _⟩ := step_safe h
  refine ⟨t, ht, ?_⟩
  cases hp : s.pending with
  | nil =>
    rw [step_idle hp] at ht
    cases ht
    exact ⟨hp, rfl, fun _ _ he => nomatch he⟩
  | cons ev rest =>
    cases ev with
    | hardwareReset =>
      rw [step_hardwareReset hp] at ht
      cases ht
      exact ⟨rfl, rfl, fun _ _ he => nomatch he⟩
    | transact x =>
      obtain ⟨hresp, hdepth, hpend, henv⟩ := step_transact_host hp ht
      refine ⟨hpend, hdepth, fun y rest' he => ?_⟩
      cases he
      exact ⟨hresp, henv⟩

end Sys2Proof.Machine
end

section
/-! SUPPORT. The fields of `STATUS` (10_state.md R25). -/

namespace Sys2Proof.Machine

/-- The fields of a word put together as `STATUS` is. -/
theorem statusFields (c : BitVec 4) (m : BitVec 2) (p : BitVec 3) (w : Word)
    (hw : w = (0 : BitVec 21) ++ (p ++ ((0 : BitVec 2) ++ (m ++ c)))) :
    w.extractLsb' 0 4 = c ∧ w.extractLsb' 4 2 = m ∧ w.extractLsb' 6 2 = 0 ∧ w.extractLsb' 8 3 = p ∧
      w.extractLsb' 11 21 = 0 := by
  subst hw
  refine ⟨?_, ?_, ?_, ?_, ?_⟩ <;> (apply BitVec.eq_of_getLsbD_eq; intro i hi)
  · simp only [BitVec.getLsbD_extractLsb', BitVec.getLsbD_append]
    simp [hi, show i < 6 by omega, show i < 8 by omega, show i < 11 by omega]
  · simp only [BitVec.getLsbD_extractLsb', BitVec.getLsbD_append]
    simp [hi, show 4 + i < 6 by omega, show 4 + i < 8 by omega, show 4 + i < 11 by omega]
  · simp only [BitVec.getLsbD_extractLsb', BitVec.getLsbD_append]
    simp [show ¬ 6 + i < 6 by omega, show 6 + i < 8 by omega, show 6 + i < 11 by omega]
  · simp only [BitVec.getLsbD_extractLsb', BitVec.getLsbD_append]
    simp [hi, show ¬ 8 + i < 8 by omega, show 8 + i < 11 by omega]
  · simp only [BitVec.getLsbD_extractLsb', BitVec.getLsbD_append]
    simp [show ¬ 11 + i < 11 by omega]

theorem statusWord_cause (s : State) : (statusWord s).extractLsb' 0 4 = causeField s.cause :=
  have ⟨h, _⟩ := statusFields _ _ _ _ (rfl : statusWord s = _)
  h

theorem statusWord_mode (s : State) : (statusWord s).extractLsb' 4 2 = modeCode s.mode :=
  have ⟨_, h, _⟩ := statusFields _ _ _ _ (rfl : statusWord s = _)
  h

theorem statusWord_phase (s : State) : (statusWord s).extractLsb' 8 3 = phaseCode s.phase :=
  have ⟨_, _, _, h, _⟩ := statusFields _ _ _ _ (rfl : statusWord s = _)
  h

/-- The bits of `STATUS` that belong to no field are 0. -/
theorem statusWord_zeros (s : State) :
    (statusWord s).extractLsb' 6 2 = 0 ∧ (statusWord s).extractLsb' 11 21 = 0 :=
  have ⟨_, _, h, _, h'⟩ := statusFields _ _ _ _ (rfl : statusWord s = _)
  ⟨h, h'⟩

theorem causeCode_ne_zero (c : Cause) : causeCode c ≠ 0 := by cases c <;> decide

theorem modeCode_ne_three (m : Mode) : modeCode m ≠ 3 := by cases m <;> decide

theorem phaseCode_ne_seven (p : Phase) : phaseCode p ≠ 7 := by cases p <;> decide

/-- `STATUS` of a closed, idle core is `CAUSE` alone. -/
theorem statusWord_closed_idle {s : State} (hm : s.mode = .closed) (hp : s.phase = .idle) :
    statusWord s = (causeField s.cause).setWidth 32 := by
  rw [statusWord, hm, hp]
  generalize causeField s.cause = c
  revert c
  decide

theorem causeField_ne_zero_iff (o : Option Cause) : causeField o ≠ 0 ↔ o.isSome = true := by
  cases o with
  | none => simp [causeField]
  | some c => simpa [causeField] using causeCode_ne_zero c

/-- Settles O16: the fields are the codes of `CAUSE`, `MODE` and `PHASE`, and the invariant makes a faulted core closed
and idle. -/
theorem statusLayout : Obligations.StatusLayout := by
  unfold Obligations.StatusLayout
  refine ⟨rfl, rfl, fun s => ?_, fun s h hc => ?_, fun s => ?_⟩
  · obtain ⟨hz, hz'⟩ := statusWord_zeros s
    rw [statusWord_cause, statusWord_mode, statusWord_phase]
    refine ⟨rfl, ?_, ?_, hz, ?_, hz', modeCode_ne_three _, phaseCode_ne_seven _⟩
    · rcases s.cause with _ | c
      · rfl
      · cases c <;> rfl
    · cases s.mode <;> rfl
    · cases s.phase <;> rfl
  · obtain ⟨hm, hp⟩ := h.faulted hc
    rw [statusWord_cause]
    exact statusWord_closed_idle hm hp
  · rw [statusWord_cause]
    exact (causeField_ne_zero_iff s.cause).symm

end Sys2Proof.Machine
end

section
/-! SUPPORT. The write commands in terms of bit strings: each writes its bits with `putAll` and then responds, so what the
sink does to a bit string decides how the command ends (20_memory.md R72, 60_exceptions.md R320). -/

namespace Sys2Proof.Machine

/-! ### Each write command writes its bits first -/

variable {s : State}

theorem exec_putbit_eq (hc : s.cause = none) (opa : Word) (hl : legalWhen (.putbit opa) s = true) :
    exec (.putbit opa) s = finish ((putAll (bitsWritten (.putbit opa) s) s).bind fun _ t => answer 0 t) := by
  have hw : isWriter s = true := hl
  show execPutbit opa s = finish ((putAll [opa.getLsbD 0] s).bind fun _ t => answer 0 t)
  rw [execPutbit, execute_legal hc hw, putAll_singleton]

/-- A well-formed count passes the prologue's test of the immediate (60_exceptions.md R318 step 2). -/
theorem exec_putbits_eq (hc : s.cause = none) (n : BitVec 8) (opa : Word) (hwf : (Instr.putbits n opa).wellFormed = true)
    (hl : legalWhen (.putbits n opa) s = true) :
    exec (.putbits n opa) s = finish ((putAll (bitsWritten (.putbits n opa) s) s).bind fun _ t => answer 0 t) := by
  have hw : (bitCountOk n && isWriter s) = true := Bool.and_eq_true_iff.2 ⟨hwf, hl⟩
  show execPutbits n opa s = finish ((putAll (bitsof opa.toNat n.toNat) s).bind fun _ t => answer 0 t)
  rw [execPutbits, execute_legal hc hw, putbits_eq_putAll]

theorem exec_encu_eq (h : Ready s) (opa : Word) (hl : legalWhen (.encu opa) s = true)
    (ho : operandsOk (.encu opa) s = true) :
    exec (.encu opa) s = finish ((putAll (bitsWritten (.encu opa) s) s).bind fun _ t => answer 0 t) := by
  have hw : isWriter s = true := hl
  have hpos : ¬ s32 opa < 0 := Int.not_lt.2 (of_decide_eq_true ho)
  show execEncu opa s = finish ((putAll (cw s.m.toNat (s32 opa).toNat) s).bind fun _ t => answer 0 t)
  rw [execEncu, execute_legal h.healthy hw, if_neg hpos, encu_eq_putAll h.running.coder]

theorem exec_encz_eq (h : Ready s) (opa : Word) (hl : legalWhen (.encz opa) s = true) :
    exec (.encz opa) s = finish ((putAll (bitsWritten (.encz opa) s) s).bind fun _ t => answer 0 t) := by
  have hw : isWriter s = true := hl
  show execEncz opa s = finish ((putAll (cw s.m.toNat (zz (s32 opa))) s).bind fun _ t => answer 0 t)
  rw [execEncz, execute_legal h.healthy hw, encu_eq_putAll h.running.coder]

/-- The sign bit leaves the coder's registers as they are, so the magnitude is written under the same parameter. -/
theorem putbit_encu_eq_putAll (hk : CoderOk s) (x : Bool) (v : Nat) :
    ((putbit x s).bind fun _ t => encu v t) = putAll (x :: cw s.m.toNat v) s := by
  rw [putAll]
  refine Res.bind_congr fun _ t ht => ?_
  have hf : WriteFrame s t := putAll_frame (w := [x]) (by rw [putAll_singleton]; exact ht)
  have hm : t.m = s.m := by rw [hf]
  rw [encu_eq_putAll (hk.of_eq hm (by rw [hf]) (by rw [hf])), hm]

theorem exec_encs_eq (h : Ready s) (opa : Word) (hl : legalWhen (.encs opa) s = true) :
    exec (.encs opa) s = finish ((putAll (bitsWritten (.encs opa) s) s).bind fun _ t => answer 0 t) := by
  have hw : isWriter s = true := hl
  show execEncs opa s = finish ((putAll (decide (s32 opa < 0) :: cw s.m.toNat (s32 opa).natAbs) s).bind fun _ t =>
    answer 0 t)
  rw [execEncs, execute_legal h.healthy hw, ← Res.bind_assoc, putbit_encu_eq_putAll h.running.coder]

theorem exec_wrhdr1_eq (hc : s.cause = none) (hl : legalWhen .wrhdr1 s = true) (ho : operandsOk .wrhdr1 s = true) :
    exec .wrhdr1 s = finish ((putAll (bitsWritten .wrhdr1 s) s).bind fun _ t => answer 0 (startPhase1 .s1enc t)) := by
  have hgood : channelsOk s.nch.toNat = true := ho
  show execWrhdr1 s = _
  rw [execWrhdr1, execute_legal hc (writerIn_iff.2 (of_decide_eq_true hl)), if_pos hgood, putHeader1_eq]
  rfl

theorem exec_enc1_eq (h : Ready s) (opa opb : Word) (hl : legalWhen (.enc1 opa opb) s = true)
    (ho : operandsOk (.enc1 opa opb) s = true) :
    exec (.enc1 opa opb) s = finish ((putAll (bitsWritten (.enc1 opa opb) s) s).bind fun _ t =>
      answer (u32 (s32 opa - p1sel (s32 opb) s)) (s1advance (s32 opa) t)) := by
  obtain ⟨ha, hb⟩ := Bool.and_eq_true_iff.1 ho
  have hr : residual1 opa opb s = .ok (s32 opa - p1sel (s32 opb) s) s :=
    residual1_ok ha fun hn => by rwa [hn, Bool.not_true, Bool.false_or] at hb
  show execEnc1 opa opb s = _
  rw [execEnc1, execute_legal h.healthy (writerIn_iff.2 (of_decide_eq_true hl)), hr, Res.bind_ok,
    encu_eq_putAll h.running.coder]
  rfl

theorem exec_wrhdr2_eq (hc : s.cause = none) (hl : legalWhen .wrhdr2 s = true) (ho : operandsOk .wrhdr2 s = true) :
    exec .wrhdr2 s = finish ((putAll (bitsWritten .wrhdr2 s) s).bind fun _ t => answer 0 (startPhase2 .s2enc t)) := by
  have hgood : geometryOk s = true := ho
  show execWrhdr2 s = _
  rw [execWrhdr2, execute_legal hc (writerIn_iff.2 (of_decide_eq_true hl)), if_pos hgood, putHeader2_eq]
  rfl

theorem exec_enc2_eq (h : Ready s) (opa : Word) (hl : legalWhen (.enc2 opa) s = true)
    (ho : operandsOk (.enc2 opa) s = true) :
    exec (.enc2 opa) s = finish ((putAll (bitsWritten (.enc2 opa) s) s).bind fun _ t =>
      (s2advance (opa.setWidth 8) t).bind fun _ u => answer (u32 (opa.toNat - predicted2 s)) u) := by
  obtain ⟨hm, hp⟩ : s.mode = .write ∧ s.phase = .s2enc := of_decide_eq_true hl
  have hfit : Phase2Fits s := .inr (.inl ⟨hp, hm⟩)
  have hr : residual2 opa s = .ok (opa.toNat - predicted2 s) s :=
    residual2_ok ho (h.running.col_lt_lineDepth hfit.inPhase.2)
  show execEnc2 opa s = _
  rw [execEnc2, execute_legal h.healthy (writerIn_iff.2 ⟨hm, hp⟩), hr, Res.bind_ok,
    encu_eq_putAll h.running.coder]
  rfl

/-- A legal command with good operands that has bits to write writes them before anything else. -/
theorem exec_writes_first {i : Instr} (h : Ready s) (hwf : i.wellFormed = true) (hl : legalWhen i s = true)
    (ho : operandsOk i s = true) (hb : bitsWritten i s ≠ []) :
    ∃ k, exec i s = finish ((putAll (bitsWritten i s) s).bind k) := by
  cases i with
  | putbit opa => exact ⟨_, exec_putbit_eq h.healthy opa hl⟩
  | putbits n opa => exact ⟨_, exec_putbits_eq h.healthy n opa hwf hl⟩
  | encu opa => exact ⟨_, exec_encu_eq h opa hl ho⟩
  | encz opa => exact ⟨_, exec_encz_eq h opa hl⟩
  | encs opa => exact ⟨_, exec_encs_eq h opa hl⟩
  | wrhdr1 => exact ⟨_, exec_wrhdr1_eq h.healthy hl ho⟩
  | enc1 opa opb => exact ⟨_, exec_enc1_eq h opa opb hl ho⟩
  | wrhdr2 => exact ⟨_, exec_wrhdr2_eq h.healthy hl ho⟩
  | enc2 opa => exact ⟨_, exec_enc2_eq h opa hl ho⟩
  | _ => exact absurd rfl hb

/-! ### A full sink -/

/-- Between commands the empty string always fits (20_memory.md R72). -/
theorem ne_nil_of_sinkFits_false {w : Bits} (hw : WriterOk s) (hf : sinkFits s w.length = false) : w ≠ [] := by
  rintro rfl
  exact Bool.false_ne_true (hf.symm.trans hw.fits)

/-- A command that begins with bits the sink has no room for raises `IoError` where the sink is full. -/
theorem raises_ioError_of_putAll {i : Instr} {w : Bits} {k : Unit → State → Res Response} (hw : WriterOk s)
    (hf : sinkFits s w.length = false) (he : exec i s = finish ((putAll w s).bind k)) :
    ∃ out, Raises i s .ioError out ∧ s.sinkCap = some out.length ∧ streamBits out <+: written s ++ w := by
  obtain ⟨t, ht, hcap, hpre, hdepth, hpend, henv⟩ := putAll_full hw hf
  have htf := takeFault_faultedFrom .ioError t
  rw [flushed_ioError] at htf
  refine ⟨t.out, ⟨takeFault .ioError t, by rw [he, ht, Res.bind_raise, finish_raise], ?_⟩, hcap, hpre⟩
  exact { htf with
    lineDepth := htf.lineDepth.trans hdepth
    pending := htf.pending.trans hpend
    env := htf.env.trans henv }

/-- Settles O15: the command has bits to write and writes them first, and the sink refuses a byte among them. -/
theorem sinkFullRaisesIoError : Obligations.SinkFullRaisesIoError := by
  unfold Obligations.SinkFullRaisesIoError
  intro i s h hm hwf hl ho hf
  have hw : WriterOk s := h.running.writer hm
  obtain ⟨k, hk⟩ := exec_writes_first h hwf hl ho (ne_nil_of_sinkFits_false hw hf)
  exact raises_ioError_of_putAll hw hf hk

end Sys2Proof.Machine
end

section
/-! SUPPORT. The decoder and the encoder (30_encoding.md R100 to R105): the encoder's command word taken apart into its
fields and put together from them, what each format accepts, and the instruction a legal command word decodes to, which
is the word's own with the operands of the transaction in it. -/

namespace Sys2Proof

/-! ### The fields of a command word -/

theorem opcOf_encode (i : Instr) : opcOf (encode i).cmd = opcode i :=
  have ⟨h, _⟩ := Laws.fields_of_word (opcode i) (imm8 i)
  h

theorem rsvdOf_encode (i : Instr) : rsvdOf (encode i).cmd = 0 :=
  have ⟨_, h, _⟩ := Laws.fields_of_word (opcode i) (imm8 i)
  h

theorem immOf_encode (i : Instr) : immOf (encode i).cmd = imm8 i :=
  have ⟨_, _, h⟩ := Laws.fields_of_word (opcode i) (imm8 i)
  h

/-- A command word is its three fields side by side (R100). -/
theorem cmd_eq_append_fields (cmd : Word) : opcOf cmd ++ (rsvdOf cmd ++ immOf cmd) = cmd := by
  apply BitVec.eq_of_getLsbD_eq
  intro j hj
  simp only [BitVec.getLsbD_append, opcOf, rsvdOf, immOf, BitVec.getLsbD_extractLsb']
  by_cases h24 : j < 24
  · by_cases h8 : j < 8
    · simp [h24, h8]
    · simp [h24, h8, show j - 8 < 16 by omega, show 8 + (j - 8) = j by omega]
  · simp [h24, show j - 24 < 8 by omega, show 24 + (j - 24) = j by omega]

/-- The encoder's word is the only one with its three fields. -/
theorem encode_cmd_of_fields {i : Instr} {cmd : Word} (ho : opcode i = opcOf cmd) (hr : rsvdOf cmd = 0)
    (hk : imm8 i = immOf cmd) : (encode i).cmd = cmd := by
  calc (encode i).cmd = opcode i ++ ((0 : BitVec 16) ++ imm8 i) := rfl
    _ = opcOf cmd ++ (rsvdOf cmd ++ immOf cmd) := by rw [ho, hr, hk]
    _ = cmd := cmd_eq_append_fields cmd

/-! ### The numbers of the registers -/

@[simp] theorem Reg.ofCode_code (r : Reg) : Reg.ofCode r.code = some r := by cases r <;> rfl

theorem Reg.code_of_ofCode {c : BitVec 8} {r : Reg} (h : Reg.ofCode c = some r) : r.code = c := by
  unfold Reg.ofCode at h
  split at h <;> cases h
  all_goals next hc => exact BitVec.eq_of_toNat_eq hc.symm

/-! ### What each format accepts -/

@[simp] theorem formatF0_zero (i : Instr) : formatF0 0 i = .ok i := rfl

@[simp] theorem formatFI_true (i : Instr) : formatFI true i = .ok i := rfl

@[simp] theorem formatReg_code (r : Reg) (f : Reg → Instr) :
    formatReg r.code f = formatFI (f r).wellFormed (f r) := by simp [formatReg]

theorem formatF0_eq_ok {k : BitVec 8} {i j : Instr} (h : formatF0 k j = .ok i) : k = 0 ∧ j = i := by
  unfold formatF0 at h
  split at h <;> cases h
  exact ⟨‹_›, rfl⟩

theorem formatFI_eq_ok {legal : Bool} {i j : Instr} (h : formatFI legal j = .ok i) : legal = true ∧ j = i := by
  unfold formatFI at h
  split at h <;> cases h
  exact ⟨‹_›, rfl⟩

theorem formatReg_eq_ok {k : BitVec 8} {f : Reg → Instr} {i : Instr} (h : formatReg k f = .ok i) :
    ∃ r : Reg, r.code = k ∧ (f r).wellFormed = true ∧ f r = i := by
  unfold formatReg at h
  split at h
  next r hr =>
    obtain ⟨hwf, hi⟩ := formatFI_eq_ok h
    exact ⟨r, Reg.code_of_ofCode hr, hwf, hi⟩
  next => cases h

/-! ### The operands of an instruction -/

/-- The instruction with the operands it uses taken from `a` and `b`; an operand it ignores has no place in it (R101). -/
def Instr.withOperands (i : Instr) (a b : Word) : Instr :=
  match i with
  | .wrreg r _ => .wrreg r a
  | .putbit _ => .putbit a
  | .putbits n _ => .putbits n a
  | .setm _ => .setm a
  | .encu _ => .encu a
  | .encz _ => .encz a
  | .encs _ => .encs a
  | .estacc _ => .estacc a
  | .p1push _ => .p1push a
  | .p1pred k _ => .p1pred k a
  | .rsd1 _ _ => .rsd1 a b
  | .enc1 _ _ => .enc1 a b
  | .dec1 _ => .dec1 a
  | .rsd2 _ => .rsd2 a
  | .enc2 _ => .enc2 a
  | i => i

/-- The encoder writes the instruction's own operands. -/
@[simp] theorem Instr.withOperands_self (i : Instr) : i.withOperands (operandA i) (operandB i) = i := by cases i <;> rfl

/-- `OPA` is either used as it stands or makes no difference. -/
theorem Instr.opa_used_or_ignored (i : Instr) :
    (∀ a b, operandA (i.withOperands a b) = a) ∨ ∀ a a' b, i.withOperands a b = i.withOperands a' b := by
  cases i
  case wrreg | putbit | putbits | setm | encu | encz | encs | estacc | p1push | p1pred | rsd1 | enc1 | dec1 | rsd2 |
      enc2 =>
    exact .inl fun _ _ => rfl
  all_goals exact .inr fun _ _ _ => rfl

/-- `OPB` is either used as it stands or makes no difference. -/
theorem Instr.opb_used_or_ignored (i : Instr) :
    (∀ a b, operandB (i.withOperands a b) = b) ∨ ∀ a b b', i.withOperands a b = i.withOperands a b' := by
  cases i
  case rsd1 | enc1 => exact .inl fun _ _ => rfl
  all_goals exact .inr fun _ _ _ => rfl

/-! ### The opcode map -/

/-- The opcode and the immediate of a well-formed instruction decode to it, with the operands given. -/
theorem decodeOpcode_opcode {i : Instr} (h : i.wellFormed = true) (a b : Word) :
    decodeOpcode (opcode i) (imm8 i) a b = .ok (i.withOperands a b) := by
  cases i with
  | rdreg r => exact formatReg_code r .rdreg
  | wrreg r _ =>
    have hw : (Instr.wrreg r a).wellFormed = true := h
    calc formatReg r.code (.wrreg · a) = formatFI (Instr.wrreg r a).wellFormed (.wrreg r a) := formatReg_code r _
      _ = .ok (.wrreg r a) := by rw [hw, formatFI_true]
  | putbits n _ =>
    have hn : bitCountOk n = true := h
    show formatFI (bitCountOk n) (.putbits n a) = _
    rw [hn, formatFI_true]; rfl
  | getbits n =>
    have hn : bitCountOk n = true := h
    show formatFI (bitCountOk n) (.getbits n) = _
    rw [hn, formatFI_true]; rfl
  | p1pred k _ =>
    have hk : predictorOk k = true := h
    show formatFI (predictorOk k) (.p1pred k a) = _
    rw [hk, formatFI_true]; rfl
  | _ => exact formatF0_zero _

/-- `i` is the well-formed instruction of an opcode and an immediate, with the operands given. -/
structure InstrOf (opc imm : BitVec 8) (a b : Word) (i : Instr) : Prop where
  opc : opcode i = opc
  imm : imm8 i = imm
  wellFormed : i.wellFormed = true
  operands : i.withOperands a b = i

/-- An arm of format F0 answers an instruction whose immediate is zero. -/
theorem InstrOf.of_formatF0 {opc imm : BitVec 8} {a b : Word} {i j : Instr} (h : formatF0 imm j = .ok i)
    (hj : InstrOf opc 0 a b j) : InstrOf opc imm a b i := by
  obtain ⟨rfl, rfl⟩ := formatF0_eq_ok h
  exact hj

/-- An arm of format FI answers its instruction where the immediate is legal. -/
theorem InstrOf.of_formatFI {opc imm : BitVec 8} {a b : Word} {legal : Bool} {i j : Instr} (h : formatFI legal j = .ok i)
    (hj : legal = true → InstrOf opc imm a b j) : InstrOf opc imm a b i := by
  obtain ⟨hl, rfl⟩ := formatFI_eq_ok h
  exact hj hl

/-- An arm whose immediate names a register answers the instruction of that register. -/
theorem InstrOf.of_formatReg {opc imm : BitVec 8} {a b : Word} {f : Reg → Instr} {i : Instr} (h : formatReg imm f = .ok i)
    (hf : ∀ r : Reg, (f r).wellFormed = true → InstrOf opc r.code a b (f r)) : InstrOf opc imm a b i := by
  obtain ⟨r, rfl, hwf, rfl⟩ := formatReg_eq_ok h
  exact hf r hwf

/-- What the opcode map answers is well-formed and has the opcode, the immediate and the operands it was given. -/
theorem instrOf_of_decodeOpcode {opc imm : BitVec 8} {a b : Word} {i : Instr}
    (h : decodeOpcode opc imm a b = .ok i) : InstrOf opc imm a b i := by
  unfold decodeOpcode at h
  split at h
  case h_3 hopc | h_4 hopc =>
    exact .of_formatReg h fun r hwf => ⟨BitVec.eq_of_toNat_eq hopc.symm, rfl, hwf, rfl⟩
  case h_9 hopc | h_11 hopc | h_25 hopc =>
    exact .of_formatFI h fun hl => ⟨BitVec.eq_of_toNat_eq hopc.symm, rfl, hl, rfl⟩
  case h_39 => cases h
  all_goals next hopc => exact .of_formatF0 h ⟨BitVec.eq_of_toNat_eq hopc.symm, rfl, rfl, rfl⟩

/-! ### The decoder -/

/-- A triple with the command word of a well-formed instruction decodes to it, with the triple's operands (R101). -/
theorem decode_of_cmd {i : Instr} {w : Words} (h : i.wellFormed = true) (hw : (encode i).cmd = w.cmd) :
    decode w = .ok (i.withOperands w.opa w.opb) := by
  rw [decode, ← hw, rsvdOf_encode, if_pos rfl, opcOf_encode, immOf_encode, decodeOpcode_opcode h]

/-- A triple that decodes has the command word of the instruction, which is well-formed and has the triple's operands
(R105). -/
theorem decode_eq_ok {w : Words} {i : Instr} (h : decode w = .ok i) :
    i.wellFormed = true ∧ (encode i).cmd = w.cmd ∧ i.withOperands w.opa w.opb = i := by
  unfold decode at h
  split at h
  next hr =>
    have hi := instrOf_of_decodeOpcode h
    exact ⟨hi.wellFormed, encode_cmd_of_fields hi.opc hr hi.imm, hi.operands⟩
  next => cases h

theorem decode_encode {i : Instr} (h : i.wellFormed = true) : decode (encode i) = .ok i :=
  calc decode (encode i) = .ok (i.withOperands (operandA i) (operandB i)) := decode_of_cmd h rfl
    _ = .ok i := by rw [i.withOperands_self]

/-- Settles O1: the encoder's fields are read back, and its operands are the instruction's own. -/
theorem decodeEncodeAgree : Obligations.DecodeEncodeAgree := fun _ h => decode_encode h

/-- Settles O2: `decode_eq_ok` is one direction and `decode_of_cmd` the other; an operand with no place in the
instruction makes no difference to what the command word decodes to. -/
theorem onlyEncodingsDecode : Obligations.OnlyEncodingsDecode := by
  unfold Obligations.OnlyEncodingsDecode
  refine ⟨fun w i hd => ?_, fun w ⟨i, hwf, hcmd⟩ => ⟨_, decode_of_cmd hwf hcmd⟩⟩
  obtain ⟨hwf, hcmd, hops⟩ := decode_eq_ok hd
  refine ⟨hwf, hcmd, i.opa_used_or_ignored.imp (fun hused => ?_) fun hign x => ?_,
    i.opb_used_or_ignored.imp (fun hused => ?_) fun hign x => ?_⟩
  · rw [← hused w.opa w.opb, hops]
  · rw [decode_of_cmd hwf (w := { w with opa := x }) hcmd, hign x w.opa w.opb, hops]
  · rw [← hused w.opa w.opb, hops]
  · rw [decode_of_cmd hwf (w := { w with opb := x }) hcmd, hign w.opa x w.opb, hops]

/-- Settles O3: the eight triples are the encoder's, and the reserved bits of `0xFFFFFFFF` are not zero. -/
theorem specWordsDecode : Obligations.SpecWordsDecode := by
  unfold Obligations.SpecWordsDecode
  refine ⟨decode_encode (i := .nop) rfl, decode_encode (i := .wrreg .nch 2) rfl,
    decode_encode (i := .putbits 12 0xABC) rfl, decode_encode (i := .encz 0xFFFFFFFD) rfl,
    decode_encode (i := .est2d) rfl, decode_encode (i := .p1pred 4 0xFFFFFF8D) rfl,
    decode_encode (i := .enc1 5 0) rfl, decode_encode (i := .enc2 0x64) rfl, fun ⟨i, h⟩ => ?_⟩
  have hrej : decode ⟨0xFFFFFFFF, 0, 0⟩ = .error .reservedBits := rfl
  exact nomatch hrej.symm.trans h

end Sys2Proof
end

section
/-! SUPPORT. Codewords as bit strings (30_encoding.md R111 to R113; 42_golomb.md R173, R179): their lengths, and that a
bit string begins with at most one of them. -/

namespace Sys2Proof.Machine

/-! ### The length of a codeword -/

theorem clog2_two_pow {k : Nat} (hk : 2 ^ k ≤ 2 ^ 32) : clog2 (2 ^ k) = k := by
  obtain ⟨hge, _⟩ := clog2_spec hk
  exact Nat.le_antisymm (clog2_le hk le_rfl) ((Nat.pow_le_pow_iff_right (by decide)).1 hge)

/-- The cutoff is 0 exactly for the powers of two. -/
theorem cutoffOf_eq_zero_iff {m : Nat} (hm : m ≤ 2 ^ 32) : cutoffOf m = 0 ↔ ∃ k, m = 2 ^ k := by
  have hadd := add_cutoffOf hm
  constructor
  · intro h0
    exact ⟨clog2 m, by omega⟩
  · rintro ⟨k, rfl⟩
    rw [clog2_two_pow hm] at hadd
    omega

/-- One more multiple of the parameter is one more zero of the unary part. -/
theorem cw_length_add {m : Nat} (h1 : 1 ≤ m) (v : Nat) : (cw m (v + m)).length = (cw m v).length + 1 := by
  rw [cw_length, cw_length, Nat.add_mod_right, Nat.add_div_right v h1]
  omega

/-- The codeword of 0 has no zeros of the unary part, and a short remainder where there are any. -/
theorem cw_zero_length (m : Nat) : (cw m 0).length = 1 + if 0 < cutoffOf m then clog2 m - 1 else clog2 m := by
  rw [cw_length, Nat.zero_div, Nat.zero_mod, Nat.zero_add]

theorem cw_zero_length_le (m v : Nat) : (cw m 0).length ≤ (cw m v).length := by
  rw [cw_zero_length, cw_length]
  generalize v / m = q, v % m = r
  split <;> split <;> omega

theorem cw_zero_length_two_pow {m : Nat} (hm : m ≤ 2 ^ 32) (h : ∃ k, m = 2 ^ k) : (cw m 0).length = clog2 m + 1 := by
  have h0 := (cutoffOf_eq_zero_iff hm).2 h
  rw [cw_zero_length, if_neg (by omega)]
  omega

theorem cw_zero_length_other {m : Nat} (h1 : 1 ≤ m) (hm : m ≤ 2 ^ 32) (h : ∀ k, m ≠ 2 ^ k) :
    (cw m 0).length = clog2 m := by
  have hcut : cutoffOf m ≠ 0 := fun h0 => have ⟨k, hk⟩ := (cutoffOf_eq_zero_iff hm).1 h0; h k hk
  have hone : m ≠ 2 ^ 0 := h 0
  have hpos := clog2_pos (show 2 ≤ m by omega) hm
  rw [cw_zero_length, if_pos (by omega)]
  omega

/-- Settles O29: the length is that of the two parts, and a power of two is a parameter whose cutoff is 0. -/
theorem codewordLength : Obligations.CodewordLength := by
  unfold Obligations.CodewordLength
  intro m h1 h16
  have hm : m ≤ 2 ^ 32 := by omega
  refine ⟨cw_length m, cw_length_add h1, cw_zero_length_le m, ?_, cw_zero_length_two_pow hm, cw_zero_length_other h1 hm⟩
  rintro rfl
  rw [cw_zero_length_two_pow hm ⟨0, rfl⟩, clog2_one]

/-! ### No codeword is the start of another -/

theorem unary_append_inj {q q' : Nat} {a b : Bits} (h : unary q ++ a = unary q' ++ b) : q = q' ∧ a = b := by
  induction q generalizing q' with
  | zero =>
    cases q' with
    | zero => exact ⟨rfl, List.append_cancel_left h⟩
    | succ q' => simp [unary, List.replicate_succ] at h
  | succ q ih =>
    cases q' with
    | zero => simp [unary, List.replicate_succ] at h
    | succ q' =>
      have htail : unary q ++ a = unary q' ++ b := by
        simpa [unary, List.replicate_succ] using h
      obtain ⟨rfl, rfl⟩ := ih htail
      exact ⟨rfl, rfl⟩

/-- Fields of one width are told apart by the values they hold. -/
theorem bitsof_append_inj {n v v' : Nat} {a b : Bits} (hv : v < 2 ^ n) (hv' : v' < 2 ^ n)
    (h : bitsof v n ++ a = bitsof v' n ++ b) : v = v' ∧ a = b := by
  obtain ⟨hfield, hrest⟩ := List.append_inj h (by simp)
  have hval := congrArg valof hfield
  rw [valof_bitsof, valof_bitsof, Nat.mod_eq_of_lt hv, Nat.mod_eq_of_lt hv'] at hval
  exact ⟨hval, hrest⟩

/-- For every parameter the values below the cutoff fit the short width. -/
theorem cutoffOf_le {m : Nat} (h1 : 1 ≤ m) (hm : m ≤ 2 ^ 32) : cutoffOf m ≤ 2 ^ (clog2 m - 1) := by
  rcases h1.eq_or_lt with rfl | h2
  · decide
  · exact (cutoffOf_lt h2 hm).le

/-- The first bits of a long remainder spell at least the cutoff, so none begins as a short one (42_golomb.md R179). -/
theorem tb_short_ne_long {m r r' : Nat} {a b : Bits} (hm : m ≤ 2 ^ 32) (hr : r < cutoffOf m)
    (hlo : cutoffOf m ≤ r') (hr' : r' < m) : tb m r ++ a ≠ tb m r' ++ b := by
  intro h
  have hadd := add_cutoffOf hm
  have h2 : 2 ≤ m := by omega
  have hcut := cutoffOf_lt h2 hm
  have hB : clog2 m = clog2 m - 1 + 1 := by have := clog2_pos h2 hm; omega
  have hpow : 2 ^ clog2 m = 2 * 2 ^ (clog2 m - 1) := by conv_lhs => rw [hB, pow_succ, Nat.mul_comm]
  have hlong : tb m r' = bitsof ((r' + cutoffOf m) / 2) (clog2 m - 1) ++ bitsof (r' + cutoffOf m) 1 := by
    rw [tb, if_neg (by omega), hB, bitsof_split]
    rfl
  rw [hlong, tb, if_pos hr, List.append_assoc] at h
  have ⟨hval, _⟩ := bitsof_append_inj (by omega) (by omega) h
  omega

theorem tb_append_inj {m r r' : Nat} {a b : Bits} (hm : m ≤ 2 ^ 32) (hr : r < m) (hr' : r' < m)
    (h : tb m r ++ a = tb m r' ++ b) : r = r' ∧ a = b := by
  have hadd := add_cutoffOf hm
  rcases Nat.lt_or_ge r (cutoffOf m) with hs | hl <;> rcases Nat.lt_or_ge r' (cutoffOf m) with hs' | hl'
  · have hcut := cutoffOf_le (show 1 ≤ m by omega) hm
    rw [tb, tb, if_pos hs, if_pos hs'] at h
    exact bitsof_append_inj (by omega) (by omega) h
  · exact absurd h (tb_short_ne_long hm hs hl' hr')
  · exact absurd h.symm (tb_short_ne_long hm hs' hl hr)
  · rw [tb, tb, if_neg (by omega), if_neg (by omega)] at h
    obtain ⟨hval, hrest⟩ := bitsof_append_inj (by omega) (by omega) h
    exact ⟨by omega, hrest⟩

/-- Settles O30: the unary part gives the quotient, and what follows it the remainder. -/
theorem codewordsUniquelyDecodable : Obligations.CodewordsUniquelyDecodable := by
  unfold Obligations.CodewordsUniquelyDecodable
  intro m v v' a b h1 h16 h
  rw [cw, cw, List.append_assoc, List.append_assoc] at h
  obtain ⟨hq, h⟩ := unary_append_inj h
  obtain ⟨hr, hrest⟩ := tb_append_inj (by omega) (Nat.mod_lt v h1) (Nat.mod_lt v' h1) h
  refine ⟨?_, hrest⟩
  rw [← Nat.div_add_mod v m, hq, hr, Nat.div_add_mod]

end Sys2Proof.Machine
end

section
/-! SUPPORT. The system commands (40_system.md R140 to R143) and the numbered registers (10_state.md R27): what reading
a register gives, what writing one changes, and how NOP, RESET, RDREG and WRREG end in a healthy core. -/

namespace Sys2Proof.Machine

/-! ### Reading a register -/

/-- `SUMHI` and `SUMLO` are the two halves of `SUM` (10_state.md R27). -/
theorem readReg_sumhi_sumlo (s : State) :
    (readReg .sumhi s).toNat * 2 ^ 32 + (readReg .sumlo s).toNat = s.sum.toNat := by
  have hhi : (readReg .sumhi s).toNat = s.sum.toNat / 2 ^ 32 := by
    have hsum := s.sum.isLt
    rw [readReg, BitVec.extractLsb'_toNat, Nat.shiftRight_eq_div_pow, Nat.mod_eq_of_lt (by omega)]
  have hlo : (readReg .sumlo s).toNat = s.sum.toNat % 2 ^ 32 := by
    rw [readReg, BitVec.extractLsb'_toNat, Nat.shiftRight_zero]
  rw [hhi, hlo, Nat.div_add_mod']

/-! ### Writing a register -/

/-- A value that fits `n` bits survives being stored in `n` bits and read zero-extended. -/
theorem setWidth_setWidth_of_fits {n : Nat} {v : Word} (hv : v.toNat < 2 ^ n) : (v.setWidth n).setWidth 32 = v := by
  apply BitVec.eq_of_toNat_eq
  rw [BitVec.toNat_setWidth, BitVec.toNat_setWidth, Nat.mod_eq_of_lt hv, Nat.mod_eq_of_lt v.isLt]

section
variable (r : Reg) (v : Word) (s : State)

@[simp] theorem writeReg_srate : (writeReg r v s).srate = if r = .srate then v else s.srate := by cases r <;> rfl
@[simp] theorem writeReg_nch : (writeReg r v s).nch = if r = .nch then v.setWidth 16 else s.nch := by cases r <;> rfl
@[simp] theorem writeReg_bps : (writeReg r v s).bps = if r = .bps then v.setWidth 16 else s.bps := by cases r <;> rfl
@[simp] theorem writeReg_nsamp : (writeReg r v s).nsamp = if r = .nsamp then v else s.nsamp := by cases r <;> rfl
@[simp] theorem writeReg_flags : (writeReg r v s).flags = if r = .flags then v.setWidth 2 else s.flags := by
  cases r <;> rfl
@[simp] theorem writeReg_rows : (writeReg r v s).rows = if r = .rows then v else s.rows := by cases r <;> rfl
@[simp] theorem writeReg_cols : (writeReg r v s).cols = if r = .cols then v else s.cols := by cases r <;> rfl
@[simp] theorem writeReg_pmode : (writeReg r v s).pmode = if r = .pmode then v.setWidth 8 else s.pmode := by
  cases r <;> rfl

/-- Nothing but the eight configuration registers is written (10_state.md R36, R37). -/
theorem writeReg_frame : writeReg r v s =
    { s with
      srate := (writeReg r v s).srate, nch := (writeReg r v s).nch, bps := (writeReg r v s).bps
      nsamp := (writeReg r v s).nsamp, flags := (writeReg r v s).flags, rows := (writeReg r v s).rows
      cols := (writeReg r v s).cols, pmode := (writeReg r v s).pmode } := by
  cases r <;> rfl

end

theorem readReg_writeReg_same {r : Reg} {v : Word} (hr : r.writable = true) (hv : v.toNat < 2 ^ regWidth r)
    (s : State) : readReg r (writeReg r v s) = v := by
  cases r with
  | srate | nsamp | rows | cols => rfl
  | nch | bps | flags | pmode => exact setWidth_setWidth_of_fits hv
  | _ => cases hr

/-- A read-only register reads fields that `writeReg_frame` keeps; a configuration register reads its own. -/
theorem readReg_writeReg_of_ne {q r : Reg} (h : q ≠ r) (v : Word) (s : State) :
    readReg q (writeReg r v s) = readReg q s := by
  cases q with
  | srate | nch | bps | nsamp | flags | rows | cols | pmode => simp [readReg, h.symm]
  | _ => rw [writeReg_frame]; rfl

/-! ### How the commands end -/

/-- Fault entry with a cause other than `IoError` flushes a writer's partial byte if the sink has room
(60_exceptions.md R320). -/
theorem raises_of_takeFault {i : Instr} {c : Cause} {s : State} (hc : c ≠ .ioError)
    (h : exec i s = .next (takeFault c s)) :
    Raises i s c (if s.mode = .write ∧ s.nbits ≠ 0 ∧ sinkRoom s = true then s.out ++ [s.acc] else s.out) := by
  have hflush : flushed c s =
      if s.mode = .write ∧ s.nbits ≠ 0 ∧ sinkRoom s = true then s.out ++ [s.acc] else s.out := by
    simp [flushed, hc]
  exact ⟨takeFault c s, h, hflush ▸ takeFault_faultedFrom c s⟩

/-- In a healthy core `STATUS`, read before the prologue, is answered as every other register is. -/
theorem answers_rdreg {s : State} (hc : s.cause = none) (r : Reg) : Answers (.rdreg r) s (readReg r s) s := by
  show execRdreg r s = .next (respond (.ok (readReg r s)) s)
  by_cases hr : r = .status
  · rw [execRdreg, if_pos hr, hr, readReg]
  · rw [execRdreg, if_neg hr, execute_legal hc rfl, finish_answer]

section
variable {r : Reg} {opa : Word} {s : State}

theorem exec_wrreg_eq (hc : s.cause = none) (hp : s.phase = .idle) (hr : r.writable = true) :
    exec (.wrreg r opa) s =
      finish (if 2 ^ regWidth r ≤ opa.toNat then .raise .invalidArgument s else answer 0 (writeReg r opa s)) := by
  have hlegal : (r.writable && decide (s.phase = .idle)) = true := by simp [hr, hp]
  show execWrreg r opa s = _
  rw [execWrreg, execute_legal hc hlegal]

theorem answers_wrreg (hc : s.cause = none) (hp : s.phase = .idle) (hr : r.writable = true)
    (hv : opa.toNat < 2 ^ regWidth r) : Answers (.wrreg r opa) s 0 (writeReg r opa s) := by
  rw [Answers, exec_wrreg_eq hc hp hr, if_neg (Nat.not_le.2 hv), finish_answer]

theorem exec_wrreg_of_too_wide (hc : s.cause = none) (hp : s.phase = .idle) (hr : r.writable = true)
    (hv : 2 ^ regWidth r ≤ opa.toNat) : exec (.wrreg r opa) s = .next (takeFault .invalidArgument s) := by
  rw [exec_wrreg_eq hc hp hr, if_pos hv, finish_raise]

end

/-- Settles O19: an operand that fits is stored by `writeReg`, and one that does not is refused before it. -/
theorem wrregWrites : Obligations.WrregWrites := by
  unfold Obligations.WrregWrites
  intro r opa s hc hp hr
  refine ⟨fun hv => ?_, fun hv => ?_⟩
  · exact ⟨writeReg r opa s, answers_wrreg hc hp hr hv, readReg_writeReg_same hr hv s,
      fun q hq => readReg_writeReg_of_ne hq opa s, writeReg_frame r opa s⟩
  · exact raises_of_takeFault (by decide) (exec_wrreg_of_too_wide hc hp hr hv)

/-- Settles O17: NOP's pseudocode answers at once, and RESET answers from `resetState`. -/
theorem nopAndReset : Obligations.NopAndReset := by
  unfold Obligations.NopAndReset
  refine ⟨fun s hc => ?_, fun s => ?_⟩
  · show execNop s = .next (respond (.ok 0) s)
    rw [execNop, execute_legal hc rfl, finish_answer]
  · show execReset s = _
    rfl

/-- Settles O18: a narrow register is zero-extended, which keeps its number, or for the history sign-extended, which
keeps its sign. -/
theorem rdregReads : Obligations.RdregReads := by
  unfold Obligations.RdregReads
  intro s hc
  have zeroExt {n : Nat} (x : BitVec n) (hn : n ≤ 32) : (x.setWidth 32).toNat = x.toNat :=
    BitVec.toNat_setWidth_of_le hn
  have signExt (x : BitVec 16) : (x.signExtend 32).toInt = x.toInt := BitVec.toInt_signExtend_of_le (by decide)
  exact ⟨answers_rdreg hc, rfl, zeroExt s.m (by decide), zeroExt s.b (by decide), zeroExt s.cutoff (by decide),
    zeroExt s.acc (by decide), zeroExt s.nbits (by decide), rfl, zeroExt s.nch (by decide), zeroExt s.bps (by decide),
    rfl, zeroExt s.flags (by decide), rfl, rfl, zeroExt s.pmode (by decide), readReg_sumhi_sumlo s, rfl,
    signExt s.h1, signExt s.h2, signExt s.h3, zeroExt s.hcnt (by decide), zeroExt s.ch (by decide), rfl, rfl, rfl,
    zeroExt s.areg (by decide), zeroExt s.creg (by decide)⟩

end Sys2Proof.Machine
end

section
/-! SUPPORT. The bit channel's commands (41_bitchannel.md): how OPENW, OPENR and CLOSE end, the bits that PUTBIT and
PUTBITS append, the bits that GETBIT and GETBITS give, and runs of the two over many operands. -/

namespace Sys2Proof.Machine

/-! ### Faults of the channel -/

theorem raises_of_flushed {i : Instr} {c : Cause} {s : State} {out : List Byte} (h : exec i s = .next (takeFault c s))
    (ho : flushed c s = out) : Raises i s c out :=
  ⟨takeFault c s, h, ho ▸ takeFault_faultedFrom c s⟩

/-- Only a writer has a partial byte to flush (60_exceptions.md R320). -/
theorem flushed_of_not_writer {s : State} (h : s.mode ≠ .write) (c : Cause) : flushed c s = s.out := by
  simp [flushed, h]

/-! ### Opening -/

section
variable {s : State} (hc : s.cause = none) (hm : s.mode = .closed)
include hc hm

theorem answers_openw (ho : s.env.openOk = true) : Answers .openw s 0 (openWriter s) := by
  show execOpenw s = _
  rw [execOpenw, execute_legal hc (decide_eq_true hm), if_pos ho, finish_answer]

theorem answers_openr (ho : s.env.openOk = true) : Answers .openr s 0 (openReader s) := by
  show execOpenr s = _
  rw [execOpenr, execute_legal hc (decide_eq_true hm), if_pos ho, finish_answer]

theorem raises_openw (ho : s.env.openOk = false) : Raises .openw s .ioError s.out := by
  refine raises_of_flushed ?_ (flushed_ioError s)
  show execOpenw s = _
  rw [execOpenw, execute_legal hc (decide_eq_true hm), if_neg (ne_true_of_eq_false ho), finish_raise]

theorem raises_openr (ho : s.env.openOk = false) : Raises .openr s .ioError s.out := by
  refine raises_of_flushed ?_ (flushed_ioError s)
  show execOpenr s = _
  rw [execOpenr, execute_legal hc (decide_eq_true hm), if_neg (ne_true_of_eq_false ho), finish_raise]

end

/-- Settles O20: OPENW's pseudocode is one test of `open_ok`, before `openWriter`. -/
theorem openwOpensWriter : Obligations.OpenwOpensWriter := by
  unfold Obligations.OpenwOpensWriter
  intro s hc hm
  exact ⟨answers_openw hc hm, raises_openw hc hm⟩

/-- Settles O21: OPENR's pseudocode is one test of `open_ok`, before `openReader`. -/
theorem openrOpensReader : Obligations.OpenrOpensReader := by
  unfold Obligations.OpenrOpensReader
  intro s hc hm
  exact ⟨answers_openr hc hm, raises_openr hc hm⟩

@[simp] theorem written_openWriter (s : State) : written (openWriter s) = [] := by simp [written]

@[simp] theorem unread_openReader (s : State) : unread (openReader s) = streamBits s.env.data := by simp [unread]

/-! ### Closing -/

/-- The bytes that CLOSE leaves in `OUT` when it is answered: a writer's partial byte joins them (41_bitchannel.md
R157). -/
def closedOut (s : State) : List Byte := if s.mode = .write ∧ s.nbits ≠ 0 then s.out ++ [s.acc] else s.out

/-- The partial byte is the only thing CLOSE can be refused for. -/
theorem flushPartial_ok {s : State} (h : s.mode ≠ .write ∨ s.nbits = 0 ∨ sinkRoom s = true) :
    flushPartial s = .ok () { s with out := closedOut s } := by
  unfold flushPartial closedOut
  by_cases hp : s.mode = .write ∧ s.nbits ≠ 0
  · obtain ⟨hm, hn⟩ := hp
    have hroom : sinkRoom s = true := (h.resolve_left (· hm)).resolve_left hn
    rw [if_pos ⟨hm, hn⟩, if_pos ⟨hm, hn⟩, sinkPush, if_pos hroom]
  · rw [if_neg hp, if_neg hp]

theorem flushPartial_refused {s : State} (hm : s.mode = .write) (hn : s.nbits ≠ 0) (hf : sinkRoom s = false) :
    flushPartial s = .raise .ioError s := by
  rw [flushPartial, if_pos ⟨hm, hn⟩, sinkPush, if_neg (ne_true_of_eq_false hf)]

theorem exec_close_eq {s : State} (hc : s.cause = none) (hm : s.mode ≠ .closed) :
    exec .close s = finish ((flushPartial s).bind fun _ t => answer 0 (closeChannel t)) := by
  have hlegal : (isWriter s || isReader s) = true := by
    rw [Bool.or_eq_true, isWriter_iff, isReader_iff]
    cases hmode : s.mode with
    | closed => exact absurd hmode hm
    | write => exact .inl rfl
    | read => exact .inr rfl
  show execClose s = _
  rw [execClose, execute_legal hc hlegal]

theorem answers_close {s : State} (hc : s.cause = none) (hm : s.mode ≠ .closed)
    (h : s.mode ≠ .write ∨ s.nbits = 0 ∨ sinkRoom s = true) :
    Answers .close s 0 (closeChannel { s with out := closedOut s }) := by
  rw [Answers, exec_close_eq hc hm, flushPartial_ok h, Res.bind_ok, finish_answer]

theorem raises_close {s : State} (hc : s.cause = none) (hm : s.mode = .write) (hn : s.nbits ≠ 0)
    (hf : sinkRoom s = false) : Raises .close s .ioError s.out := by
  refine raises_of_flushed ?_ (flushed_ioError s)
  rw [exec_close_eq hc (by simp [hm]), flushPartial_refused hm hn hf, Res.bind_raise, finish_raise]

theorem closedOut_of_not_writer {s : State} (hm : s.mode ≠ .write) : closedOut s = s.out := by simp [closedOut, hm]

theorem closedOut_length {s : State} (hm : s.mode = .write) (hw : WriterOk s) :
    (closedOut s).length = s.out.length + (s.nbits.toNat + 7) / 8 := by
  have h7 := hw.pending
  unfold closedOut
  by_cases hn : s.nbits = 0
  · simp [hn]
  · have hpos : s.nbits.toNat ≠ 0 := fun h0 => hn (nbits_eq_zero.2 h0)
    rw [if_pos ⟨hm, hn⟩, List.length_append, List.length_singleton]
    omega

/-- A writer's partial byte is its pending bits and zeros (10_state.md R31). -/
theorem byteBits_acc {s : State} (hw : WriterOk s) :
    byteBits s.acc = (byteBits s.acc).take s.nbits.toNat ++ List.replicate (8 - s.nbits.toNat) false := by
  conv_lhs => rw [← List.take_append_drop s.nbits.toNat (byteBits s.acc), hw.padded]

/-- The bytes that CLOSE leaves spell the written bits and the zeros that fill the last byte. -/
theorem streamBits_closedOut {s : State} (hm : s.mode = .write) (hw : WriterOk s) :
    streamBits (closedOut s) =
      written s ++ List.replicate (8 * (closedOut s).length - (written s).length) false := by
  have h7 := hw.pending
  rw [closedOut_length hm hw, written_length (by omega)]
  unfold closedOut written
  by_cases hn : s.nbits = 0
  · simp [hn]
  · have hpos : s.nbits.toNat ≠ 0 := fun h0 => hn (nbits_eq_zero.2 h0)
    have hpad : 8 * (s.out.length + (s.nbits.toNat + 7) / 8) - (8 * s.out.length + s.nbits.toNat) =
        8 - s.nbits.toNat := by omega
    rw [if_pos ⟨hm, hn⟩, hpad, List.append_assoc, ← byteBits_acc hw]
    simp

/-- Settles O22: a reader has nothing to flush, a writer's partial byte is already padded, and only that byte can be
refused. -/
theorem closeFlushes : Obligations.CloseFlushes := by
  unfold Obligations.CloseFlushes
  intro s h hm
  refine ⟨fun hroom => ⟨closedOut s, ?_, ?_, ?_⟩, raises_close h.healthy⟩
  · exact answers_close h.healthy hm (hroom.imp_left fun hr => by simp [hr])
  · exact fun hr => closedOut_of_not_writer (by simp [hr])
  · intro hwm
    have hw : WriterOk s := h.running.writer hwm
    exact ⟨closedOut_length hwm hw, streamBits_closedOut hwm hw⟩

/-! ### Writing -/

/-- A command that only writes bits is answered with `Ok(0)` where the sink has room for them. -/
theorem answers_of_putAll {i : Instr} {s : State} {w : Bits} (hw : WriterOk s) (hf : sinkFits s w.length = true)
    (he : exec i s = finish ((putAll w s).bind fun _ t => answer 0 t)) : ∃ t, Answers i s 0 t ∧ Wrote w s t := by
  obtain ⟨t, ht, hwrote⟩ := putAll_ok hw hf
  exact ⟨t, by rw [Answers, he, ht, Res.bind_ok, finish_answer], hwrote⟩

theorem answers_putbit {s : State} (h : Ready s) (hm : s.mode = .write) (opa : Word) (hf : sinkFits s 1 = true) :
    ∃ t, Answers (.putbit opa) s 0 t ∧ Wrote [opa.getLsbD 0] s t :=
  answers_of_putAll (h.running.writer hm) hf (exec_putbit_eq h.healthy opa (decide_eq_true hm))

theorem answers_putbits {s : State} (h : Ready s) (hm : s.mode = .write) {n : BitVec 8} (hn : n.toNat ≤ 32) (opa : Word)
    (hf : sinkFits s n.toNat = true) :
    ∃ t, Answers (.putbits n opa) s 0 t ∧ Wrote (bitsof opa.toNat n.toNat) s t :=
  answers_of_putAll (h.running.writer hm) (by rwa [bitsof_length])
    (exec_putbits_eq h.healthy n opa (decide_eq_true hn) (decide_eq_true hm))

/-- Settles O23: both commands write their bits with `putAll` and then answer. -/
theorem putbitsAppend : Obligations.PutbitsAppend := by
  unfold Obligations.PutbitsAppend
  exact ⟨fun s opa h hm hf => answers_putbit h hm opa hf, fun s n opa h hm hn hf => answers_putbits h hm hn opa hf⟩

/-! ### Reading -/

theorem ofNat_toNat_sub_one {n : BitVec 4} (hn : n ≠ 0) : BitVec.ofNat 4 (n.toNat - 1) = n - 1 := by
  bv_omega

/-- While `ACC` holds an unread bit, `getbit` leaves `ACC` and `RPOS` alone. -/
theorem getbit_of_loaded {s : State} (hn : s.nbits ≠ 0) :
    getbit s = some (s.acc.getLsbD (s.nbits.toNat - 1), { s with nbits := s.nbits - 1 }) := by
  rw [getbit, if_neg hn, nextBit, ofNat_toNat_sub_one hn]

/-- With `ACC` used up, `getbit` pulls the next byte and gives its most significant bit. -/
theorem getbit_of_used_up {s : State} {y : Byte} (hn : s.nbits = 0) (hy : s.inp[s.rpos]? = some y) :
    getbit s = some (y.getLsbD 7, { s with acc := y, nbits := 7, rpos := s.rpos + 1 }) := by
  simp only [getbit, if_pos hn, hy]
  rfl

theorem getbit_of_no_byte {s : State} (hn : s.nbits = 0) (hy : s.inp[s.rpos]? = none) : getbit s = none := by
  simp only [getbit, if_pos hn, hy]

theorem ofNat_bitVal (x : Bool) : BitVec.ofNat 32 (bitVal x) = if x = true then 1 else 0 := by cases x <;> rfl

theorem answers_getbit_of_some {s t : State} {x : Bool} (hc : s.cause = none) (hm : s.mode = .read)
    (hg : getbit s = some (x, t)) : Answers .getbit s (if x = true then 1 else 0) t := by
  show execGetbit s = _
  rw [execGetbit, execute_legal hc ((isReader_iff s).2 hm), hg]
  simp only [finish_answer, ofNat_bitVal]

/-- The end of the data is a response, not a fault (41_bitchannel.md R162). -/
theorem exec_getbit_of_none {s : State} (hc : s.cause = none) (hm : s.mode = .read) (hg : getbit s = none) :
    exec .getbit s = .next (respond .eod s) := by
  show execGetbit s = _
  rw [execGetbit, execute_legal hc ((isReader_iff s).2 hm), hg]
  rfl

theorem answers_getbit {s : State} {x : Bool} {rest : Bits} (h : Ready s) (hm : s.mode = .read)
    (hu : unread s = x :: rest) :
    ∃ t, getbit s = some (x, t) ∧ Answers .getbit s (if x = true then 1 else 0) t ∧ Took [x] s t ∧ unread t = rest := by
  obtain ⟨t, hg, htook, hut⟩ := getbit_some (h.running.reader hm) hu
  exact ⟨t, hg, answers_getbit_of_some h.healthy hm hg, htook, hut⟩

theorem exec_getbit_eod {s : State} (h : Ready s) (hm : s.mode = .read) (hu : unread s = []) :
    exec .getbit s = .next { s with resp := some .eod } :=
  exec_getbit_of_none h.healthy hm (getbit_none (h.running.reader hm) hu)

/-- A reader with no bit unread has used up `ACC` and every byte of `IN`. -/
theorem used_up_of_unread_nil {s : State} (hr : ReaderOk s) (hu : unread s = []) :
    s.nbits = 0 ∧ s.rpos = s.inp.length := by
  have hleft := bitsLeft_eq hr
  have hinside := hr.inside
  rw [hu, bitsLeft, List.length_nil] at hleft
  exact ⟨nbits_eq_zero.2 (by omega), by omega⟩

/-- Settles O24: the next unread bit comes from `ACC` where it has one, else from the byte at `RPOS`. -/
theorem getbitReads : Obligations.GetbitReads := by
  unfold Obligations.GetbitReads
  intro s h hm
  refine ⟨fun x rest hu => ?_, fun hu => ?_⟩
  · obtain ⟨t, hg, hans, htook, hut⟩ := answers_getbit h hm hu
    refine ⟨t, hans, htook, hut, fun hn => ?_, fun hn => ?_⟩
    · rw [getbit_of_loaded hn] at hg
      cases hg
      rfl
    · cases hy : s.inp[s.rpos]? with
      | none =>
        rw [getbit_of_no_byte hn hy] at hg
        cases hg
      | some y =>
        rw [getbit_of_used_up hn hy] at hg
        cases hg
        exact ⟨y, rfl, rfl⟩
  · obtain ⟨hn, hp⟩ := used_up_of_unread_nil (h.running.reader hm) hu
    exact ⟨hn, hp, exec_getbit_eod h hm hu⟩

/-- A well-formed count passes the prologue's test of the immediate (60_exceptions.md R318 step 2). -/
theorem exec_getbits_eq {s : State} (hc : s.cause = none) (hm : s.mode = .read) {n : BitVec 8} (hn : n.toNat ≤ 32) :
    exec (.getbits n) s = finish ((getbits n.toNat s).bind fun v t => answer (BitVec.ofNat 32 v) t) := by
  have hlegal : (bitCountOk n && isReader s) = true :=
    Bool.and_eq_true_iff.2 ⟨decide_eq_true hn, (isReader_iff s).2 hm⟩
  show execGetbits n s = _
  rw [execGetbits, execute_legal hc hlegal]

/-- A read that pulls no byte leaves `ACC` as it was. -/
theorem Took.acc_of_rpos_eq {w : Bits} {s t : State} (hs : ReaderOk s) (h : Took w s t) (hp : t.rpos = s.rpos) :
    t.acc = s.acc := by
  have hi : t.inp = s.inp := by rw [h.frame]
  by_cases h0 : s.rpos = 0
  · obtain ⟨hta, _⟩ := h.ok.fresh (hp.trans h0)
    obtain ⟨hsa, _⟩ := hs.fresh h0
    rw [hta, hsa]
  · have ht := h.ok.current (hp ▸ h0)
    rw [hi, hp, hs.current h0] at ht
    exact (Option.some.inj ht).symm

/-- After a read that pulls a byte, `ACC` is the last byte pulled. -/
theorem Took.acc_of_rpos_ne {w : Bits} {s t : State} (h : Took w s t) (hp : t.rpos ≠ s.rpos) :
    s.inp[t.rpos - 1]? = some t.acc := by
  have hi : t.inp = s.inp := by rw [h.frame]
  have hpulled := h.pulled
  rw [← hi]
  exact h.ok.current (by omega)

/-- Settles O25: the number and the place of the bits come from `getbits`, the content of `ACC` from the reader's
invariant. -/
theorem getbitsReads : Obligations.GetbitsReads := by
  unfold Obligations.GetbitsReads
  intro s n h hm hn
  have hr : ReaderOk s := h.running.reader hm
  refine ⟨fun w rest hl hu => ?_, fun hshort => ?_⟩
  · obtain ⟨t, hg, htook, hut⟩ := getbits_ok hr hu
    have hv : valof w < 2 ^ 32 :=
      (valof_lt w).trans_le (Nat.pow_le_pow_right (by omega) (hl ▸ hn))
    have hpulled := htook.pulled
    have hleft := htook.left
    rw [hl] at hg hpulled hleft
    refine ⟨BitVec.ofNat 32 (valof w), t, ?_, ?_, htook, hut, hpulled, hleft, htook.acc_of_rpos_eq hr,
      htook.acc_of_rpos_ne⟩
    · rw [BitVec.toNat_ofNat, Nat.mod_eq_of_lt hv]
    · rw [Answers, exec_getbits_eq h.healthy hm hn, hg, Res.bind_ok, finish_answer]
  · refine raises_of_flushed ?_ (flushed_of_not_writer (by simp [hm]) _)
    rw [exec_getbits_eq h.healthy hm hn, getbits_short hr hshort, Res.bind_raise, finish_raise]

/-! ### Runs -/

theorem runOk_cons {i : Instr} {is : List Instr} {s t u : State} {v : Word} {vs : List Word} (h : Answers i s v t)
    (hr : runOk is (respond (.ok v) t) = some (vs, u)) : runOk (i :: is) s = some (v :: vs, u) := by
  rw [Answers] at h
  simp only [runOk, h, hr, respond_resp]

theorem runOk_append {is js : List Instr} {t u : State} {ws : List Word} (hj : runOk js t = some (ws, u)) :
    ∀ {s : State} {vs : List Word}, runOk is s = some (vs, t) → runOk (is ++ js) s = some (vs ++ ws, u) := by
  induction is with
  | nil =>
    intro s vs hi
    cases hi
    exact hj
  | cons i is ih =>
    intro s vs hi
    simp only [runOk] at hi
    split at hi
    next t1 he =>
      split at hi
      next v hv =>
        split at hi
        next xs u1 hrun =>
          cases hi
          simp only [List.cons_append, runOk, he, hv, ih hrun]
        next => cases hi
      next => cases hi
    next => cases hi

theorem Ready.of_resp {s : State} (h : Ready s) (r : Option Response) : Ready { s with resp := r } :=
  ⟨h.inv.of_host s.pending s.env r, h.healthy⟩

theorem Ready.after_respond {s : State} (h : Ready s) (r : Response) : Ready (respond r s) := h.of_resp (some r)

/-- The response is no part of what a writer's state says. -/
theorem Wrote.of_resp {w : Bits} {s t : State} (h : Wrote w s t) (r : Option Response) :
    Wrote w { s with resp := r } { t with resp := r } where
  frame := by rw [h.frame]
  bits := h.bits
  ok := h.ok.of_eq rfl rfl rfl rfl

/-- The response is no part of what a reader's state says. -/
theorem Took.of_resp {w : Bits} {s t : State} (h : Took w s t) (r : Option Response) :
    Took w { s with resp := r } { t with resp := r } where
  frame := by rw [h.frame]
  bits := h.bits
  pulled := h.pulled
  left := h.left
  ok := h.ok.of_eq rfl rfl rfl rfl

/-- The bits of a list of PUTBITS operands. -/
def fieldBits (fields : List (BitVec 8 × Word)) : Bits := fields.flatMap fun f => bitsof f.2.toNat f.1.toNat

/-- A run of PUTBITS writes the strings of its fields one after another and, beside the response, changes nothing
else. -/
theorem runOk_putbits {fields : List (BitVec 8 × Word)} : ∀ {s : State}, Ready s → s.mode = .write →
    (∀ f ∈ fields, f.1.toNat ≤ 32) → sinkFits s (fieldBits fields).length = true →
    ∃ vs t, runOk (fields.map fun f => .putbits f.1 f.2) s = some (vs, t) ∧
      Wrote (fieldBits fields) { s with resp := t.resp } t := by
  induction fields with
  | nil => exact fun h hm _ _ => ⟨[], _, rfl, .refl (h.running.writer hm)⟩
  | cons f fields ih =>
    intro s h hm hle hf
    obtain ⟨hn, hle⟩ := List.forall_mem_cons.1 hle
    have hlen : (fieldBits (f :: fields)).length = f.1.toNat + (fieldBits fields).length := by
      simp [fieldBits]
    rw [hlen] at hf
    obtain ⟨t, hans, hw⟩ := answers_putbits h hm hn f.2 (sinkFits_mono (Nat.le_add_right _ _) hf)
    have hmt : t.mode = .write := by rw [hw.frame]; exact hm
    have hft : sinkFits t (fieldBits fields).length = true := by
      rw [hw.fits (h.running.writer hm), bitsof_length, hf]
    obtain ⟨vs, u, hrun, hwu⟩ := ih ((h.wrote hm hw).after_respond (.ok 0)) hmt hle hft
    exact ⟨0 :: vs, u, runOk_cons hans hrun, (hw.of_resp u.resp).trans hwu⟩

/-- A run of GETBIT gives the next unread bits one by one and, beside the response, changes nothing but the place of the
reader. -/
theorem runOk_getbit {w : Bits} : ∀ {s : State} {rest : Bits}, Ready s → s.mode = .read → unread s = w ++ rest →
    ∃ t, runOk (List.replicate w.length .getbit) s = some (w.map fun x => if x = true then 1 else 0, t) ∧
      Took w { s with resp := t.resp } t ∧ unread t = rest := by
  induction w with
  | nil => exact fun h hm hu => ⟨_, rfl, .refl (h.running.reader hm), hu⟩
  | cons x w ih =>
    intro s rest h hm hu
    obtain ⟨t, _, hans, htook, hut⟩ := answers_getbit h hm hu
    have hmt : t.mode = .read := by rw [htook.frame]; exact hm
    obtain ⟨u, hrun, htooku, huu⟩ := ih ((h.took hm htook).after_respond (.ok _)) hmt hut
    exact ⟨u, runOk_cons hans hrun, (htook.of_resp u.resp).trans htooku, huu⟩

/-! ### Writing, closing and reading back -/

/-- Between OPENW and CLOSE, a sink with room for every byte of the stream has room for the last one. -/
theorem nbits_eq_zero_or_sinkRoom {s : State} (hw : WriterOk s)
    (hroom : ∀ c, s.sinkCap = some c → ((written s).length + 7) / 8 ≤ c) : s.nbits = 0 ∨ sinkRoom s = true := by
  by_cases hn : s.nbits = 0
  · exact .inl hn
  · have h7 := hw.pending
    have hpos : s.nbits.toNat ≠ 0 := fun h0 => hn (nbits_eq_zero.2 h0)
    rw [written_length (by omega)] at hroom
    refine .inr ((sinkRoom_iff s).2 fun c hc => ?_)
    have := hroom c hc
    omega

/-- OPENW, a run of PUTBITS and CLOSE leave the written bits in whole bytes. -/
theorem runOk_openw_putbits_close {s : State} {fields : List (BitVec 8 × Word)} (h : Ready s) (hm : s.mode = .closed)
    (ho : s.env.openOk = true) (hle : ∀ f ∈ fields, f.1.toNat ≤ 32)
    (hcap : ∀ c, s.env.cap = some c → ((fieldBits fields).length + 7) / 8 ≤ c) :
    ∃ vs t, runOk (.openw :: fields.map (fun f => .putbits f.1 f.2) ++ [.close]) s = some (vs, t) ∧
      t.out.length = ((fieldBits fields).length + 7) / 8 ∧
      streamBits t.out = fieldBits fields ++ List.replicate (8 * t.out.length - (fieldBits fields).length) false := by
  have h1 : Ready (respond (.ok 0) (openWriter s)) := (h.after_openWriter hm).after_respond _
  have hf : sinkFits (respond (.ok 0) (openWriter s)) (fieldBits fields).length = true :=
    (sinkFits_iff _ _).2 fun c hc => by
      have hroom := hcap c hc
      show 0 + (0 + (fieldBits fields).length) / 8 ≤ c
      omega
  obtain ⟨vs, u, hrun, hwrote⟩ := runOk_putbits h1 rfl hle hf
  have hu : Ready u := (h1.of_resp u.resp).wrote rfl hwrote
  have hmu : u.mode = .write := by rw [hwrote.frame]; rfl
  have hbits : written u = fieldBits fields := by
    rw [hwrote.bits]
    exact congrArg (· ++ fieldBits fields) (written_openWriter s)
  have hw : WriterOk u := hwrote.ok
  have hflush : u.nbits = 0 ∨ sinkRoom u = true := nbits_eq_zero_or_sinkRoom hw fun c hc => by
    rw [hbits]
    rw [hwrote.sinkCap] at hc
    exact hcap c hc
  have hclose := answers_close hu.healthy (by simp [hmu]) (.inr hflush)
  have hlen := congrArg List.length hbits
  have hn := hw.pending
  rw [written_length (by omega)] at hlen
  refine ⟨_, _, runOk_cons (answers_openw h.healthy hm ho) (runOk_append (runOk_cons hclose rfl) hrun), ?_, ?_⟩
  · show (closedOut u).length = _
    rw [closedOut_length hmu hw]
    omega
  · show streamBits (closedOut u) = fieldBits fields ++ List.replicate (8 * (closedOut u).length - _) false
    rw [streamBits_closedOut hmu hw, hbits]

/-- OPENR and one GETBIT a bit give every bit of the data, and the next GETBIT finds none. -/
theorem runOk_openr_getbit {d : State} (h : Ready d) (hm : d.mode = .closed) (ho : d.env.openOk = true) :
    ∃ e, runOk (.openr :: List.replicate (8 * d.env.data.length) .getbit) d =
        some (0 :: (streamBits d.env.data).map (fun x => if x = true then 1 else 0), e) ∧
      exec .getbit e = .next { e with resp := some .eod } := by
  have h1 : Ready (respond (.ok 0) (openReader d)) := (h.after_openReader hm).after_respond _
  have hu : unread (respond (.ok 0) (openReader d)) = streamBits d.env.data ++ [] :=
    (unread_openReader d).trans (List.append_nil _).symm
  obtain ⟨e, hrun, htook, hue⟩ := runOk_getbit h1 rfl hu
  have he : Ready e := (h1.of_resp e.resp).took rfl htook
  have hme : e.mode = .read := by rw [htook.frame]; rfl
  rw [streamBits_length] at hrun
  exact ⟨e, runOk_cons (answers_openr h.healthy hm ho) hrun, exec_getbit_eod he hme hue⟩

/-- Settles O26: the writer's run by induction on the fields, the reader's on the bits, and between them the bytes that
CLOSE leaves. -/
theorem writeThenRead : Obligations.WriteThenRead := by
  unfold Obligations.WriteThenRead
  rintro s d fields w h hd hm hdm ho hdo hle rfl hcap
  obtain ⟨vs, t, hrun, hlen, hbits⟩ := runOk_openw_putbits_close h hm ho hle hcap
  refine ⟨vs, t, hrun, hlen, by rw [hbits, hlen]; rfl, fun hdata => ?_⟩
  rw [← hdata]
  exact runOk_openr_getbit hd hdm hdo

end Sys2Proof.Machine
end

section
/-! SUPPORT. The coder's commands (42_golomb.md): the parameter that SETM loads, the codewords that ENCU, ENCZ and ENCS
append, and what every command that decodes a codeword makes of the bits it finds. -/

namespace Sys2Proof.Machine

/-! ### Words and signed integers -/

/-- An integer of 32 bits survives being stored in a word. -/
theorem toInt_u32 {n : Int} (hlo : -2147483648 ≤ n) (hhi : n ≤ 2147483647) : (u32 n).toInt = n :=
  BitVec.toInt_ofInt_eq_self (by decide) hlo (by omega)

@[simp] theorem u32_s32 (w : Word) : u32 (s32 w) = w := BitVec.ofInt_toInt

theorem s32_bounds (w : Word) : -2147483648 ≤ s32 w ∧ s32 w ≤ 2147483647 := by
  have hlo := BitVec.le_toInt w
  have hhi := BitVec.toInt_lt (x := w)
  unfold s32
  omega

/-- The values the coder carries are the zigzag images of the signed words (30_encoding.md R114). -/
theorem unzz_bounds {v : Nat} (hv : v ≤ Config.valueMax) : -2147483648 ≤ unzz v ∧ unzz v ≤ 2147483647 := by
  unfold Config.valueMax at hv
  unfold unzz
  split <;> omega

theorem zz_s32_le (w : Word) : zz (s32 w) ≤ Config.valueMax :=
  have ⟨hlo, hhi⟩ := s32_bounds w
  zz_lt hlo hhi

/-- The number a sign bit and a magnitude stand for (30_encoding.md R115). -/
def signedValue (neg : Bool) (v : Nat) : Int := if neg then -(v : Int) else v

/-- The largest magnitude that DECS answers under a sign bit (42_golomb.md R186). -/
def magnitudeMax (neg : Bool) : Nat := if neg then 2147483648 else 2147483647

theorem signedValue_sign_natAbs (n : Int) : signedValue (decide (n < 0)) n.natAbs = n := by
  unfold signedValue
  by_cases hn : n < 0
  · rw [decide_eq_true hn, if_pos rfl]; omega
  · rw [decide_eq_false hn, if_neg Bool.false_ne_true]; omega

theorem signedValue_bounds {x : Bool} {v : Nat} (hv : v ≤ magnitudeMax x) :
    -2147483648 ≤ signedValue x v ∧ signedValue x v ≤ 2147483647 := by
  unfold magnitudeMax at hv
  unfold signedValue
  cases x with
  | false => rw [if_neg Bool.false_ne_true] at hv ⊢; omega
  | true => rw [if_pos rfl] at hv ⊢; omega

/-- Every magnitude that DECS answers is a value the code carries. -/
theorem magnitudeMax_le (x : Bool) : magnitudeMax x ≤ Config.valueMax := by cases x <;> decide

theorem natAbs_s32_le_magnitudeMax (w : Word) : (s32 w).natAbs ≤ magnitudeMax (decide (s32 w < 0)) := by
  obtain ⟨hlo, hhi⟩ := s32_bounds w
  unfold magnitudeMax
  by_cases hn : s32 w < 0
  · rw [decide_eq_true hn, if_pos rfl]; omega
  · rw [decide_eq_false hn, if_neg Bool.false_ne_true]; omega

/-! ### SETM -/

section
variable {s : State} {opa : Word}

theorem answers_setm (hc : s.cause = none) (h1 : 1 ≤ s32 opa) (h2 : s32 opa ≤ 65535) :
    Answers (.setm opa) s 0 (setParameter (s32 opa).toNat s) := by
  have hle : ¬ (Config.mMax : Int) < s32 opa := by unfold Config.mMax; omega
  show execSetm opa s = _
  rw [execSetm, execute_legal hc rfl, if_neg (by omega), if_neg hle, finish_answer]

theorem exec_setm_of_out_of_range (hc : s.cause = none) (h : s32 opa ≤ 0 ∨ 65535 < s32 opa) :
    exec (.setm opa) s = .next (takeFault .invalidArgument s) := by
  show execSetm opa s = _
  rw [execSetm, execute_legal hc rfl]
  by_cases h0 : s32 opa ≤ 0
  · rw [if_pos h0, finish_raise]
  · have hgt : (Config.mMax : Int) < s32 opa := h.resolve_left h0
    rw [if_neg h0, if_pos hgt, finish_raise]

end

/-- Settles O27: SETM ends in `setParameter`, whose registers are the parameter, `clog2` of it and `cutoffOf` it. -/
theorem setmSetsParameter : Obligations.SetmSetsParameter := by
  unfold Obligations.SetmSetsParameter
  intro s opa hc
  refine ⟨fun h1 h2 => ?_, fun hbad => raises_of_takeFault (by decide) (exec_setm_of_out_of_range hc hbad)⟩
  have hk : CoderOk (setParameter (s32 opa).toNat s) := setParameter_coder s (by omega) (by omega)
  have hm : (setParameter (s32 opa).toNat s).m.toNat = (s32 opa).toNat := by
    rw [setParameter_m, BitVec.toNat_ofNat]; omega
  obtain ⟨hge, hleast⟩ := clog2_spec hk.le
  refine ⟨(setParameter (s32 opa).toNat s).m, (setParameter (s32 opa).toNat s).b,
    (setParameter (s32 opa).toNat s).cutoff, answers_setm hc h1 h2, by omega, ?_⟩
  rw [hk.width, hk.cutoff, Nat.add_comm]
  exact ⟨hge, hleast, add_cutoffOf hk.le⟩

/-! ### ENCU, ENCZ and ENCS -/

/-- Settles O28: each encoder writes its codeword with `putAll` and then answers. -/
theorem encodersAppendCodeword : Obligations.EncodersAppendCodeword := by
  unfold Obligations.EncodersAppendCodeword
  intro s opa h hm
  have hw : WriterOk s := h.running.writer hm
  exact ⟨fun hpos hf => answers_of_putAll hw hf (exec_encu_eq h opa (decide_eq_true hm) (decide_eq_true hpos)),
    fun hf => answers_of_putAll hw hf (exec_encz_eq h opa (decide_eq_true hm)),
    fun hf => answers_of_putAll hw hf (exec_encs_eq h opa (decide_eq_true hm))⟩

/-- ENCU refuses a negative value before it writes a bit (42_golomb.md R181). -/
theorem exec_encu_of_neg {s : State} {opa : Word} (hc : s.cause = none) (hm : s.mode = .write) (hn : s32 opa < 0) :
    exec (.encu opa) s = .next (takeFault .invalidArgument s) := by
  show execEncu opa s = _
  rw [execEncu, execute_legal hc ((isWriter_iff s).2 hm), if_pos hn, finish_raise]

/-- Where a command that writes `w` and answers leaves the core unfaulted, the bits it appended are `w`: had the sink
refused one of them, the core would be faulted. -/
theorem appended_eq_of_unfaulted {i : Instr} {s t : State} {w bits : Bits} (hw : WriterOk s)
    (he : exec i s = finish ((putAll w s).bind fun _ u => answer 0 u)) (hx : exec i s = .next t) (hc : t.cause = none)
    (hb : written t = written s ++ bits) : bits = w := by
  cases hf : sinkFits s w.length with
  | true =>
    obtain ⟨u, hans, hwrote⟩ := answers_of_putAll hw hf he
    rw [Answers, hx] at hans
    cases hans
    have hu : written (respond (.ok 0) u) = written s ++ w := hwrote.bits
    exact List.append_cancel_left (hb.symm.trans hu)
  | false =>
    obtain ⟨_, ⟨u, hu, hfault⟩, _⟩ := raises_ioError_of_putAll hw hf he
    rw [hx] at hu
    cases hu
    exact nomatch hc.symm.trans hfault.cause

/-! ### A command that decodes a codeword -/

/-- In `s` the read command `i` comes to `decu` in the state `t`, with at most bits read on the way, and goes on with
`k`. -/
structure Decodes (i : Instr) (s t : State) (k : Nat → State → Res Response) : Prop where
  ready : Ready t
  reader : t.mode = .read
  frame : ReadFrame s t
  runs : exec i s = finish ((decu t).bind k)

/-- A reader has no partial byte to flush, so a fault after reading leaves the sink as it was (R320). -/
theorem raises_of_readFrame {i : Instr} {c : Cause} {s u : State} (hm : u.mode = .read) (hf : ReadFrame s u)
    (he : exec i s = finish (.raise c u)) : Raises i s c s.out := by
  have hfault := takeFault_faultedFrom c u
  rw [flushed_of_not_writer (by simp [hm])] at hfault
  refine ⟨takeFault c u, he, ?_⟩
  exact { hfault with
    out := hfault.out.trans (by rw [hf])
    lineDepth := hfault.lineDepth.trans (by rw [hf])
    pending := hfault.pending.trans (by rw [hf])
    env := hfault.env.trans (by rw [hf]) }

section
variable {i : Instr} {s t : State} {k : Nat → State → Res Response}

theorem ReadFrame.mode (h : ReadFrame s t) : t.mode = s.mode := by rw [h]

theorem ReadFrame.m (h : ReadFrame s t) : t.m = s.m := by rw [h]

/-- A command that decodes at once, without a bit before the codeword. -/
theorem Decodes.at_once (h : Ready s) (hm : s.mode = .read) (he : exec i s = finish ((decu s).bind k)) :
    Decodes i s s k := ⟨h, hm, .refl s, he⟩

/-- What `decu` raises is raised by the command. -/
theorem Decodes.raises {c : Cause} {u : State} (h : Decodes i s t k) (hf : ReadFrame t u)
    (he : (decu t).bind k = .raise c u) : Raises i s c s.out :=
  raises_of_readFrame (hf.mode.trans h.reader) (h.frame.trans hf) (by rw [h.runs, he])

theorem Decodes.unterminated {n : Nat} (h : Decodes i s t k) (hu : unread t = List.replicate n false) :
    Raises i s .invalidEncoding s.out := by
  obtain ⟨u, he, hf⟩ := decu_unterminated (h.ready.running.reader h.reader) hu
  exact h.raises hf (by rw [he, Res.bind_raise])

theorem Decodes.short {q : Nat} {rest : Bits} (h : Decodes i s t k) (hu : unread t = unary q ++ rest)
    (hr : ∀ r < s.m.toNat, ¬ tb s.m.toNat r <+: rest) : Raises i s .unexpectedEof s.out := by
  rw [← h.frame.m] at hr
  obtain ⟨u, he, hf⟩ := decu_short h.ready.running.coder (h.ready.running.reader h.reader) hu hr
  exact h.raises hf (by rw [he, Res.bind_raise])

section
variable {v : Nat} {rest : Bits}

theorem Decodes.answers {r : Word} (h : Decodes i s t k) (hu : unread t = cw s.m.toNat v ++ rest)
    (hv : v ≤ Config.valueMax) (hk : ∀ u, k v u = answer r u) :
    ∃ u, Answers i s r u ∧ Took (cw s.m.toNat v) t u ∧ unread u = rest := by
  rw [← h.frame.m] at hu ⊢
  obtain ⟨u, he, htook, huu⟩ := decu_codeword h.ready.running.coder (h.ready.running.reader h.reader) hu
  rw [if_neg (Nat.not_lt.2 hv)] at he
  exact ⟨u, by rw [Answers, h.runs, he, Res.bind_ok, hk, finish_answer], htook, huu⟩

/-- A value the code does not carry, or that the command itself refuses, is `RangeOverflow` after its codeword has been
consumed. -/
theorem Decodes.overflow (h : Decodes i s t k) (hu : unread t = cw s.m.toNat v ++ rest)
    (hv : v ≤ Config.valueMax → ∀ u, k v u = .raise .rangeOverflow u) : Raises i s .rangeOverflow s.out := by
  rw [← h.frame.m] at hu
  obtain ⟨u, he, htook, _⟩ := decu_codeword h.ready.running.coder (h.ready.running.reader h.reader) hu
  refine h.raises htook.readFrame ?_
  by_cases hlt : Config.valueMax < v
  · rw [he, if_pos hlt, Res.bind_raise]
  · rw [he, if_neg hlt, Res.bind_ok, hv (Nat.not_lt.1 hlt)]

end

end

/-! ### The five decoders -/

section
variable {s : State}

theorem decodes_decu (h : Ready s) (hm : s.mode = .read) :
    Decodes .decu s s fun v t => answer (BitVec.ofNat 32 v) t := by
  refine .at_once h hm ?_
  show execDecu s = _
  rw [execDecu, execute_legal h.healthy ((isReader_iff s).2 hm)]

theorem decodes_decz (h : Ready s) (hm : s.mode = .read) : Decodes .decz s s fun v t => answer (u32 (unzz v)) t := by
  refine .at_once h hm ?_
  show execDecz s = _
  rw [execDecz, execute_legal h.healthy ((isReader_iff s).2 hm)]

/-- DECS decodes after its sign bit (42_golomb.md R186). -/
theorem decodes_decs {x : Bool} {bits : Bits} (h : Ready s) (hm : s.mode = .read) (hu : unread s = x :: bits) :
    ∃ t, Took [x] s t ∧ unread t = bits ∧ Decodes .decs s t fun v u =>
      if magnitudeMax x < v then .raise .rangeOverflow u else answer (u32 (signedValue x v)) u := by
  obtain ⟨t, hg, htook, hut⟩ := getbit_some (h.running.reader hm) hu
  have hsign : getSign s = .ok x t := by simp only [getSign, hg]
  refine ⟨t, htook, hut, h.took hm htook, htook.readFrame.mode.trans hm, htook.readFrame, ?_⟩
  show execDecs s = _
  rw [execDecs, execute_legal h.healthy ((isReader_iff s).2 hm), hsign]
  rfl

theorem raises_decs_of_no_sign (h : Ready s) (hm : s.mode = .read) (hu : unread s = []) :
    Raises .decs s .unexpectedEof s.out := by
  have hsign : getSign s = .raise .unexpectedEof s := by simp only [getSign, getbit_none (h.running.reader hm) hu]
  refine raises_of_readFrame hm (.refl s) ?_
  show execDecs s = _
  rw [execDecs, execute_legal h.healthy ((isReader_iff s).2 hm), hsign, Res.bind_raise]

theorem decodes_dec1 {opa : Word} (h : Ready s) (hl : legalWhen (.dec1 opa) s = true)
    (ho : operandsOk (.dec1 opa) s = true) : Decodes (.dec1 opa) s s fun v t =>
      if isSample (p1sel (s32 opa) s + unzz v) then
        answer (u32 (p1sel (s32 opa) s + unzz v)) (s1advance (p1sel (s32 opa) s + unzz v) t)
      else .raise .rangeOverflow t := by
  obtain ⟨hm, hp⟩ : s.mode = .read ∧ s.phase = .s1dec := of_decide_eq_true hl
  have hgood : ¬ (needref s = true ∧ ¬ isSample (s32 opa) = true) := fun ⟨hn, hs⟩ => hs (by
    have ho' : (!needref s || isSample (s32 opa)) = true := ho
    rwa [hn, Bool.not_true, Bool.false_or] at ho')
  refine .at_once h hm ?_
  show execDec1 opa s = _
  rw [execDec1, execute_legal h.healthy (readerIn_iff.2 ⟨hm, hp⟩), if_neg hgood]

theorem decodes_dec2 (h : Ready s) (hl : legalWhen .dec2 s = true) : Decodes .dec2 s s fun v t =>
    (s2advance (BitVec.ofInt 8 (clamp (predicted2 s + unzz v) 0 255)) t).bind fun _ u =>
      answer (u32 (clamp (predicted2 s + unzz v) 0 255)) u := by
  obtain ⟨hm, hp⟩ : s.mode = .read ∧ s.phase = .s2dec := of_decide_eq_true hl
  have hfit : Phase2Fits s := .inr (.inr ⟨hp, hm⟩)
  refine .at_once h hm ?_
  show execDec2 s = _
  rw [execDec2, execute_legal h.healthy (readerIn_iff.2 ⟨hm, hp⟩),
    ps_eq (h.running.col_lt_lineDepth hfit.inPhase.2), Res.bind_ok]
  rfl

/-- DECU, DECZ, DEC1 and DEC2 begin with `decu`. -/
theorem decodes_of_legal {i : Instr} (hi : i = .decu ∨ i = .decz ∨ (∃ x, i = .dec1 x) ∨ i = .dec2) (h : Ready s)
    (hm : s.mode = .read) (hl : legalWhen i s = true) (ho : operandsOk i s = true) : ∃ k, Decodes i s s k := by
  obtain rfl | rfl | ⟨opa, rfl⟩ | rfl := hi
  · exact ⟨_, decodes_decu h hm⟩
  · exact ⟨_, decodes_decz h hm⟩
  · exact ⟨_, decodes_dec1 h hl ho⟩
  · exact ⟨_, decodes_dec2 h hl⟩

section
variable {v : Nat} {rest : Bits} (h : Ready s) (hm : s.mode = .read)
include h hm

theorem answers_decu (hu : unread s = cw s.m.toNat v ++ rest) (hv : v ≤ Config.valueMax) :
    ∃ t, Answers .decu s (BitVec.ofNat 32 v) t ∧ Took (cw s.m.toNat v) s t ∧ unread t = rest :=
  (decodes_decu h hm).answers hu hv fun _ => rfl

theorem answers_decz (hu : unread s = cw s.m.toNat v ++ rest) (hv : v ≤ Config.valueMax) :
    ∃ t, Answers .decz s (u32 (unzz v)) t ∧ Took (cw s.m.toNat v) s t ∧ unread t = rest :=
  (decodes_decz h hm).answers hu hv fun _ => rfl

theorem answers_decs {x : Bool} (hu : unread s = x :: cw s.m.toNat v ++ rest) (hv : v ≤ magnitudeMax x) :
    ∃ t, Answers .decs s (u32 (signedValue x v)) t ∧ Took (x :: cw s.m.toNat v) s t ∧ unread t = rest := by
  obtain ⟨t, htook, hut, hdec⟩ := decodes_decs h hm hu
  obtain ⟨u, hans, htook', huu⟩ :=
    hdec.answers hut (hv.trans (magnitudeMax_le x)) fun _ => if_neg (Nat.not_lt.2 hv)
  exact ⟨u, hans, htook.trans htook', huu⟩

theorem raises_decs_of_too_large {x : Bool} (hu : unread s = x :: cw s.m.toNat v ++ rest) (hv : magnitudeMax x < v) :
    Raises .decs s .rangeOverflow s.out := by
  obtain ⟨t, _, hut, hdec⟩ := decodes_decs h hm hu
  exact hdec.overflow hut fun _ _ => if_pos hv

end

end

/-- Settles O31: each decoder comes to `decu` at the codeword, DECS after the sign bit, and answers in a word that holds
the value. -/
theorem decodersReadCodeword : Obligations.DecodersReadCodeword := by
  unfold Obligations.DecodersReadCodeword
  intro s v rest h hm
  have decs (x : Bool) (hu : unread s = x :: cw s.m.toNat v ++ rest) (hv : v ≤ magnitudeMax x) :
      ∃ r t, r.toInt = signedValue x v ∧ Answers .decs s r t ∧ Took (x :: cw s.m.toNat v) s t ∧ unread t = rest := by
    obtain ⟨hlo, hhi⟩ := signedValue_bounds hv
    exact ⟨_, (answers_decs h hm hu hv).imp fun _ ht => ⟨toInt_u32 hlo hhi, ht⟩⟩
  refine ⟨fun hu => ⟨fun hv => ⟨⟨_, (answers_decu h hm hu hv).imp fun _ ht => ⟨?_, ht⟩⟩, ?_⟩, fun hv => ?_⟩,
    fun hu => ⟨decs false hu, raises_decs_of_too_large h hm hu⟩,
    fun hu => ⟨decs true hu, raises_decs_of_too_large h hm hu⟩⟩
  · rw [BitVec.toNat_ofNat]; omega
  · obtain ⟨hlo, hhi⟩ := unzz_bounds (v := v) hv
    exact ⟨_, (answers_decz h hm hu hv).imp fun _ ht => ⟨toInt_u32 hlo hhi, ht⟩⟩
  · have hover : ¬ v ≤ Config.valueMax := Nat.not_le.2 hv
    exact ⟨(decodes_decu h hm).overflow hu fun hle => absurd hle hover,
      (decodes_decz h hm).overflow hu fun hle => absurd hle hover⟩

/-- Settles O32: the faults are those of `decu`, which every decoder comes to; before it DECS can only lack its sign. -/
theorem decodersRefuseShortData : Obligations.DecodersRefuseShortData := by
  unfold Obligations.DecodersRefuseShortData
  intro s h hm
  refine ⟨fun i hi hl ho => ?_, raises_decs_of_no_sign h hm, fun x n hu => ?_, fun x q rest hu hr => ?_⟩
  · obtain ⟨k, hdec⟩ := decodes_of_legal hi h hm hl ho
    exact ⟨fun n hu => hdec.unterminated hu, fun q rest hu hr => hdec.short hu hr⟩
  · obtain ⟨t, _, hut, hdec⟩ := decodes_decs h hm hu
    exact hdec.unterminated hut
  · obtain ⟨t, _, hut, hdec⟩ := decodes_decs h hm hu
    exact hdec.short hut hr

/-- Settles O33: an encoder that leaves the core unfaulted has appended the codeword of its value, and the decoder's
answer to that codeword is the value again. -/
theorem golombRoundTrips : Obligations.GolombRoundTrips := by
  unfold Obligations.GolombRoundTrips
  intro s t d n bits rest h hd hm hdm hsame hc hb hu
  have hw : WriterOk s := h.running.writer hm
  refine ⟨fun hx => ?_, fun hx => ?_, fun hx => ?_⟩
  · have hbits : bits = cw d.m.toNat (zz (s32 n)) :=
      hsame.m ▸ appended_eq_of_unfaulted hw (exec_encz_eq h n (decide_eq_true hm)) hx hc hb
    have hans := answers_decz hd hdm (hbits ▸ hu) (zz_s32_le n)
    rwa [unzz_zz, u32_s32, ← hbits] at hans
  · have hbits : bits = decide (s32 n < 0) :: cw d.m.toNat (s32 n).natAbs :=
      hsame.m ▸ appended_eq_of_unfaulted hw (exec_encs_eq h n (decide_eq_true hm)) hx hc hb
    have hans := answers_decs hd hdm (hbits ▸ hu) (natAbs_s32_le_magnitudeMax n)
    rwa [signedValue_sign_natAbs, u32_s32, ← hbits] at hans
  · have hpos : 0 ≤ s32 n := Int.not_lt.1 fun hneg => by
      rw [exec_encu_of_neg h.healthy hm hneg] at hx
      cases hx
      cases hc
    have hbits : bits = cw d.m.toNat (s32 n).toNat :=
      hsame.m ▸ appended_eq_of_unfaulted hw (exec_encu_eq h n (decide_eq_true hm) (decide_eq_true hpos)) hx hc hb
    have hword : BitVec.ofNat 32 (s32 n).toNat = n := by
      rw [← BitVec.ofInt_natCast, Int.toNat_of_nonneg hpos]
      exact u32_s32 n
    obtain ⟨_, hhi⟩ := s32_bounds n
    have hans := answers_decu hd hdm (hbits ▸ hu) (show (s32 n).toNat ≤ 4294967295 by omega)
    rwa [hword, ← hbits] at hans

end Sys2Proof.Machine
end

section
/-! SUPPORT. The estimator's commands (43_estimator.md): how ESTCLR and ESTACC change the window, and that the integer
search of EST1D finds the rounded real estimate. -/

namespace Sys2Proof.Machine

/-! ### The window -/

theorem answers_estclr {s : State} (hc : s.cause = none) : Answers .estclr s 0 { s with sum := 0, cnt := 0 } := by
  show execEstclr s = _
  rw [execEstclr, execute_legal hc rfl, finish_answer]

theorem answers_estacc {s : State} (hc : s.cause = none) (opa : Word) (hn : s.cnt.toNat ≠ Config.cntMax) :
    Answers (.estacc opa) s 0
      { s with sum := s.sum + BitVec.ofNat 64 (s32 opa).natAbs, cnt := s.cnt + 1 } := by
  show execEstacc opa s = _
  rw [execEstacc, execute_legal hc rfl, estacc_ok _ hn, Res.bind_ok, finish_answer]

theorem exec_estacc_of_full {s : State} (hc : s.cause = none) (opa : Word) (hn : s.cnt.toNat = Config.cntMax) :
    exec (.estacc opa) s = .next (takeFault .rangeOverflow s) := by
  show execEstacc opa s = _
  rw [execEstacc, execute_legal hc rfl, estacc_full _ hn]
  rfl

/-- Settles O34: `estacc` tests the count before it adds, and the invariant bounds the sum by the count, so neither
addition wraps. -/
theorem estimatorWindow : Obligations.EstimatorWindow := by
  unfold Obligations.EstimatorWindow
  intro s h
  refine ⟨answers_estclr h.healthy, fun opa => ⟨fun hn => ?_, fun hn => ?_⟩⟩
  · obtain ⟨hsum, _⟩ := sum_add h.running.window (natAbs_s32_le opa) hn
    exact ⟨_, _, answers_estacc h.healthy opa hn, hsum, cnt_succ hn⟩
  · exact raises_of_takeFault (by decide) (exec_estacc_of_full h.healthy opa hn)

/-! ### EST1D -/

theorem answers_est1d {s : State} (hc : s.cause = none) (hn : s.cnt ≠ 0) :
    Answers .est1d s (BitVec.ofNat 32 (est1d s.sum.toNat s.cnt.toNat)) s := by
  show execEst1d s = _
  rw [execEst1d, execute_legal hc rfl, if_neg hn, finish_answer]

theorem exec_est1d_of_empty {s : State} (hc : s.cause = none) (hn : s.cnt = 0) :
    exec .est1d s = .next (takeFault .invalidArgument s) := by
  show execEst1d s = _
  rw [execEst1d, execute_legal hc rfl, if_pos hn, finish_raise]

theorem est1d_zero (N : Nat) : est1d 0 N = 1 := if_pos rfl

/-- The estimate before it is rounded: `1 / log2(1 + S/N)` (43_estimator.md R206). -/
noncomputable def realEst1d (S N : Nat) : ℝ := 1 / Real.logb 2 (1 + (S : ℝ) / (N : ℝ))

section
variable {S N : Nat} (hS : 0 < S) (hN : 0 < N)
include hS hN

/-- The inference of 43_estimator.md R206: the integer condition at `k` says that the real estimate reaches `k - 1/2`. -/
theorem integerCondition_iff {k : Nat} (hk : 1 ≤ k) :
    (N + S) ^ (2 * k - 1) ≤ 4 * N ^ (2 * k - 1) ↔ (k : ℝ) - 1 / 2 ≤ realEst1d S N := by
  have hNr : (0 : ℝ) < N := Nat.cast_pos.2 hN
  have hE : 1 < 1 + (S : ℝ) / N := lt_add_of_pos_right _ (div_pos (Nat.cast_pos.2 hS) hNr)
  have hpos : 0 < 1 + (S : ℝ) / N := one_pos.trans hE
  have hlog : 0 < Real.logb 2 (1 + (S : ℝ) / N) := Real.logb_pos one_lt_two hE
  have hodd : ((2 * k - 1 : ℕ) : ℝ) = 2 * (k - 1 / 2) := by
    rw [Nat.cast_sub (by omega)]
    push_cast
    ring
  have hsum : ((N + S : ℕ) : ℝ) = N * (1 + S / N) := by
    push_cast
    field_simp
  calc (N + S) ^ (2 * k - 1) ≤ 4 * N ^ (2 * k - 1)
      ↔ (N : ℝ) ^ (2 * k - 1) * (1 + S / N) ^ (2 * k - 1) ≤ N ^ (2 * k - 1) * 4 := by
        rw [← mul_pow, ← hsum, mul_comm _ (4 : ℝ)]
        exact_mod_cast Iff.rfl
    _ ↔ (1 + (S : ℝ) / N) ^ (2 * k - 1) ≤ 2 ^ (2 : ℝ) := by
        rw [mul_le_mul_iff_right₀ (pow_pos hNr _)]
        norm_num
    _ ↔ 2 * ((k - 1 / 2) * Real.logb 2 (1 + S / N)) ≤ 2 * 1 := by
        rw [← Real.logb_le_iff_le_rpow one_lt_two (pow_pos hpos _), Real.logb_pow, hodd, mul_assoc, mul_one]
    _ ↔ (k : ℝ) - 1 / 2 ≤ realEst1d S N := by
        rw [mul_le_mul_iff_right₀ two_pos, realEst1d, le_div_iff₀ hlog]

/-- The condition is monotone: where it fails it fails from there on (43_estimator.md R206). -/
theorem integerCondition_of_le {i j : Nat} (hi : 1 ≤ i) (hij : i ≤ j)
    (h : (N + S) ^ (2 * j - 1) ≤ 4 * N ^ (2 * j - 1)) : (N + S) ^ (2 * i - 1) ≤ 4 * N ^ (2 * i - 1) := by
  rw [integerCondition_iff hS hN (hi.trans hij)] at h
  rw [integerCondition_iff hS hN hi]
  have : (i : ℝ) ≤ j := Nat.cast_le.2 hij
  linarith

/-- The search stops at its first failure, which by monotony is beyond every `k` that meets the condition. -/
theorem est1d_largest :
    (est1d S N = 1 ∨ (N + S) ^ (2 * est1d S N - 1) ≤ 4 * N ^ (2 * est1d S N - 1)) ∧
      ∀ j, est1d S N < j → j ≤ 256 → ¬ (N + S) ^ (2 * j - 1) ≤ 4 * N ^ (2 * j - 1) := by
  obtain ⟨hge, _, hmeets, hstop⟩ := est1dFrom_spec S N (Config.m1dMax - 1) 1
  rw [est1d, if_neg hS.ne']
  refine ⟨?_, fun j hj hj256 hcond => hstop ?_ (integerCondition_of_le hS hN (by omega) hj hcond)⟩
  · rcases hge.eq_or_lt with h1 | h1
    · exact .inl h1.symm
    · exact .inr (hmeets _ h1 le_rfl)
  · exact hj.trans_le (by unfold Config.m1dMax; omega)

/-- A `k` above 1 is within the rounded estimate exactly when it meets the integer condition. -/
theorem le_round_iff {k : Nat} (hk : 2 ≤ k) :
    (k : ℤ) ≤ round (max 1 (realEst1d S N)) ↔ (N + S) ^ (2 * k - 1) ≤ 4 * N ^ (2 * k - 1) := by
  have hone : ¬ (k : ℝ) - 1 / 2 ≤ 1 := by
    have : (2 : ℝ) ≤ k := by exact_mod_cast hk
    linarith
  rw [integerCondition_iff hS hN (by omega), round_eq, Int.le_floor, Int.cast_natCast, ← sub_le_iff_le_add, le_max_iff,
    or_iff_right hone]

theorem est1d_eq_round : (est1d S N : ℤ) = min 256 (round (max 1 (realEst1d S N))) := by
  obtain ⟨hge, hle⟩ := est1d_range S N
  obtain ⟨hmeets, hfails⟩ := est1d_largest hS hN
  have hround : 1 ≤ round (max 1 (realEst1d S N)) := by
    rw [round_eq, Int.le_floor, Int.cast_one]
    linarith [le_max_left 1 (realEst1d S N)]
  have hlow : (est1d S N : ℤ) ≤ round (max 1 (realEst1d S N)) := by
    rcases hge.eq_or_lt with h1 | h1
    · rw [← h1]; exact hround
    · exact (le_round_iff hS hN h1).2 (hmeets.resolve_left h1.ne')
  rcases hle.eq_or_lt with h256 | h256
  · omega
  · have hhigh := mt (le_round_iff hS hN (by omega)).1 (hfails (est1d S N + 1) (Nat.lt_succ_self _) h256)
    omega

end

/-- Settles O35: the answer is where the search of `est1d` ends. -/
theorem est1dLargestK : Obligations.Est1dLargestK := by
  unfold Obligations.Est1dLargestK
  intro s hc hn
  obtain ⟨hge, hle⟩ := est1d_range s.sum.toNat s.cnt.toNat
  refine ⟨est1d s.sum.toNat s.cnt.toNat, hge, hle, answers_est1d hc hn, fun hs => ?_, fun hs => ?_⟩
  · rw [hs]
    exact est1d_zero _
  · exact est1d_largest (BitVec.toNat_pos_of_ne_zero hs) (BitVec.toNat_pos_of_ne_zero hn)

/-- Settles O36: the largest `k` that meets the integer condition is the real estimate rounded. -/
theorem est1dRealFormula : Obligations.Est1dRealFormula := by
  unfold Obligations.Est1dRealFormula
  intro s hc
  refine ⟨fun hn hs => ?_, fun hn hs => ?_, fun hn => ?_⟩
  · have hround := est1d_eq_round (BitVec.toNat_pos_of_ne_zero hs) (BitVec.toNat_pos_of_ne_zero hn)
    have hans := answers_est1d hc hn
    rwa [← BitVec.ofInt_natCast, hround] at hans
  · have hans := answers_est1d hc hn
    rwa [show s.sum.toNat = 0 from congrArg BitVec.toNat hs, est1d_zero] at hans
  · exact raises_of_takeFault (by decide) (exec_est1d_of_empty hc hn)

end Sys2Proof.Machine
end

section
/-! SUPPORT. EST2D: the bounds of ln 2 that its rational procedure carries, how near ln 2 can come to a fraction with a
denominator below `2^64`, and from both that the procedure finds the ceiling (43_estimator.md R210,
notes/assumptions/8.md). -/

namespace Sys2Proof.Machine

open Filter Topology

/-! ### The bounds of ln 2 -/

/-- `L_j` of 43_estimator.md R210. -/
def ln2Lower : Nat → ℚ
  | 0 => 0
  | j + 1 => ln2Lower j + 1 / ((j + 1) * 2 ^ (j + 1))

/-- `U_j` of 43_estimator.md R210. -/
def ln2Upper (j : Nat) : ℚ := ln2Lower j + 1 / (j * 2 ^ j)

theorem ln2Lower_lt_succ (j : Nat) : ln2Lower j < ln2Lower (j + 1) :=
  lt_add_of_pos_right _ (by positivity)

theorem ln2Upper_succ_lt {j : Nat} (hj : 1 ≤ j) : ln2Upper (j + 1) < ln2Upper j := by
  have hlt : (1 : ℚ) / ((j + 1) * 2 ^ j) < 1 / (j * 2 ^ j) := by gcongr; linarith
  have hsplit : (1 : ℚ) / ((j + 1) * 2 ^ (j + 1)) + 1 / ((j + 1) * 2 ^ (j + 1)) = 1 / ((j + 1) * 2 ^ j) := by
    field_simp
    ring
  rw [ln2Upper, ln2Lower, ln2Upper]
  push_cast
  linarith

/-- Every lower bound lies below every upper bound. -/
theorem ln2Lower_le_ln2Upper {j : Nat} (hj : 1 ≤ j) (n : Nat) : ln2Lower n ≤ ln2Upper j := by
  have hmono : Monotone ln2Lower := monotone_nat_of_le_succ fun i => (ln2Lower_lt_succ i).le
  have hanti : ln2Upper (j + n) ≤ ln2Upper j := by
    induction n with
    | zero => exact le_rfl
    | succ n ih => exact (ln2Upper_succ_lt (hj.trans (Nat.le_add_right j n))).le.trans ih
  calc ln2Lower n ≤ ln2Lower (j + n) := hmono (Nat.le_add_left n j)
    _ ≤ ln2Upper (j + n) := le_add_of_nonneg_right (by positivity)
    _ ≤ ln2Upper j := hanti

/-- The lower bounds are the partial sums of the power series of `-log (1 - x)` at `1/2`. -/
theorem ln2Lower_eq_sum (j : Nat) :
    (ln2Lower j : ℝ) = ∑ i ∈ Finset.range j, (1 / 2 : ℝ) ^ (i + 1) / (i + 1) := by
  induction j with
  | zero => simp [ln2Lower]
  | succ j ih =>
    rw [Finset.sum_range_succ, ← ih, ln2Lower, one_div_pow, div_div]
    push_cast
    rw [mul_comm ((j : ℝ) + 1)]

theorem tendsto_ln2Lower : Tendsto (fun j => (ln2Lower j : ℝ)) atTop (𝓝 (Real.log 2)) := by
  have hsum := Real.hasSum_pow_div_log_of_abs_lt_one (x := 1 / 2) (by norm_num [abs_of_pos])
  have hlog : -Real.log (1 - 1 / 2) = Real.log 2 := by
    rw [← Real.log_inv]
    norm_num
  rw [hlog] at hsum
  simpa only [ln2Lower_eq_sum] using hsum.tendsto_sum_nat

theorem ln2Lower_lt_log (j : Nat) : (ln2Lower j : ℝ) < Real.log 2 := by
  have hmono : Monotone fun j => (ln2Lower j : ℝ) :=
    monotone_nat_of_le_succ fun i => Rat.cast_le.2 (ln2Lower_lt_succ i).le
  exact (Rat.cast_lt.2 (ln2Lower_lt_succ j)).trans_le (hmono.ge_of_tendsto tendsto_ln2Lower (j + 1))

theorem log_lt_ln2Upper {j : Nat} (hj : 1 ≤ j) : Real.log 2 < ln2Upper j := by
  have hle : Real.log 2 ≤ ln2Upper (j + 1) :=
    le_of_tendsto' tendsto_ln2Lower fun n => Rat.cast_le.2 (ln2Lower_le_ln2Upper (by omega) n)
  exact hle.trans_lt (Rat.cast_lt.2 (ln2Upper_succ_lt hj))

/-! ### How near ln 2 comes to a fraction -/

/-- Between two neighbouring fractions every fraction has at least the sum of their denominators. -/
theorem add_den_le_of_between {a b c d n q : ℤ} (hunit : c * b - a * d = 1) (hb : 0 < b) (hd : 0 < d)
    (hlow : a * q < n * b) (hhigh : n * d < c * q) : b + d ≤ q := by
  have hq : q = b * (c * q - n * d) + d * (n * b - a * q) := by linear_combination -q * hunit
  nlinarith

/-- Two successive convergents of ln 2, the first below and the second above it, whose denominators add up to more than
`2^64`. The bounds of round 122 already separate them from ln 2. -/
theorem convergents_around_ln2 :
    (3052446177238342414 / 4403748962482230453 : ℚ) < ln2Lower 193 ∧
      ln2Upper 193 < (56329360186853476865 / 81266088598021724246 : ℚ) := by
  decide +kernel

/-- No fraction with a denominator below `2^64` lies between the last lower bound and ln 2: the bound that
notes/assumptions/8.md deduces. -/
theorem log_le_of_last_lower_lt {n q : Nat} (hq0 : 0 < q) (hq : q < 2 ^ 64)
    (hlow : (ln2Lower 193 : ℝ) < (n : ℝ) / q) : Real.log 2 ≤ (n : ℝ) / q := by
  by_contra! hhigh
  obtain ⟨hbelow, habove⟩ := convergents_around_ln2
  have hcast : ((n / q : ℚ) : ℝ) = n / q := by push_cast; rfl
  rw [← hcast, Rat.cast_lt] at hlow
  have hupper : (n / q : ℚ) < ln2Upper 193 := by
    rw [← hcast] at hhigh
    exact Rat.cast_lt.1 (hhigh.trans (log_lt_ln2Upper (by omega)))
  have hqr : (0 : ℚ) < q := Nat.cast_pos.2 hq0
  have hleft := (div_lt_div_iff₀ (by norm_num) hqr).1 (hbelow.trans hlow)
  have hright := (div_lt_div_iff₀ hqr (by norm_num)).1 (hupper.trans habove)
  have hsum : (4403748962482230453 + 81266088598021724246 : ℤ) ≤ q :=
    add_den_le_of_between (a := 3052446177238342414) (c := 56329360186853476865) (n := n) (by norm_num) (by norm_num)
      (by norm_num) (by exact_mod_cast hleft) (by exact_mod_cast hright)
  omega

/-! ### The rational procedure -/

/-- The fraction `p / q` that the procedure carries is `L_j` (43_estimator.md R210). -/
structure CarriesLower (j p q : Nat) : Prop where
  den : 0 < q
  value : (p : ℝ) / q = ln2Lower j

theorem CarriesLower.first : CarriesLower 1 1 2 := ⟨two_pos, by norm_num [ln2Lower]⟩

/-- The term `1 / (j * 2^j)` added over the common denominator. -/
theorem add_term_eq {p q c : Nat} (hq : 0 < q) (hc : 0 < c) :
    ((p * c + q : ℕ) : ℝ) / (q * c : ℕ) = (p : ℝ) / q + 1 / c := by
  push_cast
  field_simp

theorem CarriesLower.next {j p q : Nat} (h : CarriesLower j p q) :
    CarriesLower (j + 1) (p * ((j + 1) * 2 ^ (j + 1)) + q) (q * ((j + 1) * 2 ^ (j + 1))) where
  den := Nat.mul_pos h.den (by positivity)
  value := by
    rw [add_term_eq h.den (by positivity), h.value, ln2Lower]
    push_cast
    rfl

theorem CarriesLower.upper {j p q : Nat} (h : CarriesLower j p q) (hj : 1 ≤ j) :
    ((p * (j * 2 ^ j) + q : ℕ) : ℝ) / (q * (j * 2 ^ j) : ℕ) = ln2Upper j := by
  rw [add_term_eq h.den (by positivity), h.value, ln2Upper]
  push_cast
  rfl

theorem div_mul_fraction (S N p q : Nat) : (S : ℝ) / N * ((p : ℝ) / q) = ((S * p : ℕ) : ℝ) / (N * q : ℕ) := by
  rw [div_mul_div_comm, Nat.cast_mul, Nat.cast_mul]

/-- `ceilDiv` is not below the quotient. -/
theorem div_le_ceilDiv (a : Nat) {b : Nat} (hb : 0 < b) : (a : ℝ) / b ≤ ceilDiv a b := by
  rw [div_le_iff₀' (Nat.cast_pos.2 hb)]
  exact_mod_cast (le_smul_ceilDiv hb : a ≤ b * ceilDiv a b)

section
variable {S N j p q : Nat} (hN : 0 < N) (h : CarriesLower j p q)
include hN h

/-- `kL` is never too large, so it is the ceiling once it is known to reach `S * ln 2 / N`. -/
theorem lower_candidate_eq_ceil (hS : 0 < S)
    (hreach : (S : ℝ) / N * Real.log 2 ≤ (S * p / (N * q) + 1 : ℕ)) :
    ((S * p / (N * q) + 1 : ℕ) : ℤ) = ⌈(S : ℝ) / N * Real.log 2⌉ := by
  have hmean : (0 : ℝ) < S / N := div_pos (Nat.cast_pos.2 hS) (Nat.cast_pos.2 hN)
  have hbelow : ((S * p / (N * q) : ℕ) : ℝ) < S / N * Real.log 2 :=
    calc ((S * p / (N * q) : ℕ) : ℝ) ≤ S / N * (p / q) := div_mul_fraction S N p q ▸ Nat.cast_div_le
      _ < S / N * Real.log 2 := mul_lt_mul_of_pos_left (h.value ▸ ln2Lower_lt_log j) hmean
  refine (Int.ceil_eq_iff.2 ⟨?_, by exact_mod_cast hreach⟩).symm
  push_cast
  rwa [add_sub_cancel_right]

/-- `kU` always reaches `S * ln 2 / N`. -/
theorem le_upper_candidate (hj : 1 ≤ j) :
    (S : ℝ) / N * Real.log 2 ≤ ceilDiv (S * (p * (j * 2 ^ j) + q)) (N * (q * (j * 2 ^ j))) := by
  have hden : 0 < N * (q * (j * 2 ^ j)) := Nat.mul_pos hN (Nat.mul_pos h.den (by positivity))
  calc (S : ℝ) / N * Real.log 2 ≤ S / N * ln2Upper j :=
        mul_le_mul_of_nonneg_left (log_lt_ln2Upper hj).le (by positivity)
    _ = ((S * (p * (j * 2 ^ j) + q) : ℕ) : ℝ) / (N * (q * (j * 2 ^ j)) : ℕ) := by
        rw [← h.upper hj, div_mul_fraction]
    _ ≤ _ := div_le_ceilDiv _ hden

end

/-- After the last round `kL` reaches `S * ln 2 / N` too: else `kL * N / S` would lie too near to ln 2. -/
theorem le_last_lower_candidate {S N p q : Nat} (hS : 0 < S) (hS64 : S < 2 ^ 64) (hN : 0 < N)
    (h : CarriesLower 193 p q) : (S : ℝ) / N * Real.log 2 ≤ (S * p / (N * q) + 1 : ℕ) := by
  have hlast : (S : ℝ) / N * ln2Lower 193 < (S * p / (N * q) + 1 : ℕ) := by
    rw [← h.value, div_mul_fraction, ← Nat.floor_div_eq_div (K := ℝ)]
    exact_mod_cast Nat.lt_floor_add_one _
  have hSr : (0 : ℝ) < S := Nat.cast_pos.2 hS
  have hNr : (0 : ℝ) < N := Nat.cast_pos.2 hN
  rw [div_mul_eq_mul_div, div_lt_iff₀' hNr, ← lt_div_iff₀' hSr, ← Nat.cast_mul] at hlast
  rw [div_mul_eq_mul_div, div_le_iff₀' hNr, ← le_div_iff₀' hSr, ← Nat.cast_mul]
  exact log_le_of_last_lower_lt hS hS64 hlast

/-- The procedure finds the ceiling: in a round where `kL = kU`, or after round 192. -/
theorem ln2Ceil_eq_ceil {S N : Nat} (hS : 0 < S) (hS64 : S < 2 ^ 64) (hN : 0 < N) (fuel : Nat) :
    ∀ {j p q : Nat}, 1 ≤ j → j + fuel = 193 → CarriesLower j p q →
      (ln2Ceil S N fuel j p q : ℤ) = ⌈(S : ℝ) / N * Real.log 2⌉ := by
  induction fuel with
  | zero =>
    intro j p q _ hlast h
    obtain rfl : j = 193 := hlast
    exact lower_candidate_eq_ceil hN h hS (le_last_lower_candidate hS hS64 hN h)
  | succ fuel ih =>
    intro j p q hj hlast h
    rw [ln2Ceil]
    split
    case isTrue hsame => exact lower_candidate_eq_ceil hN h hS (hsame ▸ le_upper_candidate hN h hj)
    case isFalse => exact ih (by omega) (by omega) h.next

/-! ### EST2D -/

theorem est2d_eq_ceil {S N : Nat} (hS64 : S < 2 ^ 64) (hN : 0 < N) :
    (est2d S N : ℤ) = min 65535 (max 1 ⌈(S : ℝ) / N * Real.log 2⌉) := by
  rcases S.eq_zero_or_pos with rfl | hS
  · simp [est2d]
  · rw [est2d, if_neg hS.ne', ← ln2Ceil_eq_ceil hS hS64 hN 192 le_rfl rfl .first]
    push_cast [Config.mMax]
    rfl

theorem answers_est2d {s : State} (hc : s.cause = none) (hn : s.cnt ≠ 0) :
    Answers .est2d s (BitVec.ofNat 32 (est2d s.sum.toNat s.cnt.toNat)) s := by
  show execEst2d s = _
  rw [execEst2d, execute_legal hc rfl, if_neg hn, finish_answer]

theorem exec_est2d_of_empty {s : State} (hc : s.cause = none) (hn : s.cnt = 0) :
    exec .est2d s = .next (takeFault .invalidArgument s) := by
  show execEst2d s = _
  rw [execEst2d, execute_legal hc rfl, if_pos hn, finish_raise]

/-- Settles O37: 192 rounds are enough, since ln 2 is that far from every fraction whose denominator fits `SUM`. -/
theorem est2dRealFormula : Obligations.Est2dRealFormula := by
  unfold Obligations.Est2dRealFormula
  intro s hc
  refine ⟨fun hn => ?_, fun hn => raises_of_takeFault (by decide) (exec_est2d_of_empty hc hn)⟩
  have hans := answers_est2d hc hn
  rwa [← BitVec.ofInt_natCast, est2d_eq_ceil s.sum.isLt (BitVec.toNat_pos_of_ne_zero hn)] at hans

end Sys2Proof.Machine
end

section
/-! SUPPORT. The 1-D predictor's commands (44_predictors.md R220 to R224, R234 to R236): how P1RST, P1PUSH and P1PRED
end in a healthy core, and what the history holds after a run of pushes. -/

namespace Sys2Proof.Machine

theorem not_isSample {x : Int} (h : x < -32768 ∨ 32767 < x) : ¬ isSample x = true := by
  rw [isSample_iff]
  omega

/-! ### P1RST and P1PUSH -/

/-- The count of the history saturates at 3 (R221). -/
theorem hpush_hcnt_toNat (x : Int) (s : State) : (hpush x s).hcnt.toNat = min 3 (s.hcnt.toNat + 1) := by
  rw [hpush, BitVec.toNat_ofNat]
  omega

section
variable {s : State} (hc : s.cause = none) (hp : s.phase = .idle)
include hc hp

theorem answers_p1rst : Answers .p1rst s 0 (hreset s) := by
  show execP1rst s = _
  rw [execP1rst, execute_legal hc (decide_eq_true hp), finish_answer]

theorem exec_p1push_eq (opa : Word) : exec (.p1push opa) s =
    finish (if isSample (s32 opa) then answer 0 (hpush (s32 opa) s) else .raise .invalidArgument s) := by
  show execP1push opa s = _
  rw [execP1push, execute_legal hc (decide_eq_true hp)]

theorem answers_p1push {opa : Word} (hx : isSample (s32 opa) = true) :
    Answers (.p1push opa) s 0 (hpush (s32 opa) s) := by
  rw [Answers, exec_p1push_eq hc hp, if_pos hx, finish_answer]

theorem exec_p1push_of_not_sample {opa : Word} (hx : ¬ isSample (s32 opa) = true) :
    exec (.p1push opa) s = .next (takeFault .invalidArgument s) := by
  rw [exec_p1push_eq hc hp, if_neg hx, finish_raise]

end

/-- Settles O38: P1RST's pseudocode is `hreset`, and P1PUSH's is one test of the operand, before `hpush`. -/
theorem historyCommands : Obligations.HistoryCommands := by
  unfold Obligations.HistoryCommands
  intro s hc hp
  refine ⟨answers_p1rst hc hp, fun opa => ⟨fun hlo hhi => ?_, fun hx => ?_⟩⟩
  · have hx : isSample (s32 opa) = true := (isSample_iff _).2 ⟨hlo, hhi⟩
    exact ⟨_, _, answers_p1push hc hp hx, toInt_ofInt_sample hx, hpush_hcnt_toNat (s32 opa) s⟩
  · exact raises_of_takeFault (by decide) (exec_p1push_of_not_sample hc hp (not_isSample hx))

/-! ### The history after a run of pushes -/

/-- The history holds the samples `ys`, the one pushed last at their head, as far as they exist (R221). -/
structure HoldsLast (ys : List Int) (s : State) : Prop where
  count : s.hcnt.toNat = min 3 ys.length
  last : s.h1.toInt = (ys[0]?).getD 0
  second : s.h2.toInt = (ys[1]?).getD 0
  third : s.h3.toInt = (ys[2]?).getD 0

theorem HoldsLast.after_hreset (s : State) : HoldsLast [] (hreset s) := ⟨rfl, rfl, rfl, rfl⟩

theorem HoldsLast.after_hpush {ys : List Int} {s : State} {x : Int} (h : HoldsLast ys s) (hx : isSample x = true) :
    HoldsLast (x :: ys) (hpush x s) where
  count := by rw [hpush_hcnt_toNat, h.count, List.length_cons]; omega
  last := toInt_ofInt_sample hx
  second := h.last
  third := h.second

theorem HoldsLast.after_respond {ys : List Int} {s : State} (h : HoldsLast ys s) (r : Response) :
    HoldsLast ys (respond r s) := ⟨h.count, h.last, h.second, h.third⟩

/-- A run of P1PUSH puts its samples before those the history holds and, beside the response, changes nothing else. -/
theorem runOk_p1push {xs : List Word} : ∀ {s : State} {ys : List Int}, s.cause = none → s.phase = .idle →
    (∀ x ∈ xs, isSample (s32 x) = true) → HoldsLast ys s →
    ∃ vs t, runOk (xs.map fun x => .p1push x) s = some (vs, t) ∧
      t = { s with h1 := t.h1, h2 := t.h2, h3 := t.h3, hcnt := t.hcnt, resp := t.resp } ∧
      HoldsLast (xs.reverse.map s32 ++ ys) t := by
  induction xs with
  | nil => exact fun _ _ _ h => ⟨[], _, rfl, rfl, h⟩
  | cons x xs ih =>
    intro s ys hc hp hxs h
    obtain ⟨hx, hxs⟩ := List.forall_mem_cons.1 hxs
    obtain ⟨vs, t, hrun, hframe, hlast⟩ := ih (s := respond (.ok 0) (hpush (s32 x) s)) hc hp hxs
      ((h.after_hpush hx).after_respond (.ok 0))
    refine ⟨0 :: vs, t, runOk_cons (answers_p1push hc hp hx) hrun, hframe, ?_⟩
    rwa [List.reverse_cons, List.map_append, List.append_assoc]

/-- Settles O40: P1RST leaves the history holding no sample, and each P1PUSH puts its own before those it holds. -/
theorem historyHoldsLastSamples : Obligations.HistoryHoldsLastSamples := by
  unfold Obligations.HistoryHoldsLastSamples
  intro s xs hc hp hxs
  obtain ⟨vs, t, hrun, hframe, hlast⟩ := runOk_p1push (s := respond (.ok 0) (hreset s)) hc hp
    (fun x hx => (isSample_iff _).2 (hxs x hx)) ((HoldsLast.after_hreset s).after_respond (.ok 0))
  rw [List.append_nil] at hlast
  refine ⟨0 :: vs, t, runOk_cons (answers_p1rst hc hp) hrun, hframe, ?_, hlast.last, hlast.second, hlast.third⟩
  rw [hlast.count, List.length_map, List.length_reverse]

/-! ### P1PRED -/

theorem pt_two (s : State) : pt 2 s = if s.hcnt.toNat = 0 then 0
    else if 2 ≤ s.hcnt.toNat then 2 * s.h1.toInt - s.h2.toInt else s.h1.toInt := by simp [pt]

theorem pt_three (s : State) : pt 3 s = if s.hcnt.toNat = 0 then 0
    else if 3 ≤ s.hcnt.toNat then 3 * s.h1.toInt - 3 * s.h2.toInt + s.h3.toInt else s.h1.toInt := by simp [pt]

/-- Division truncating toward zero, as R10 writes it with floor division, is the library's. -/
theorem tdiv2_eq_tdiv (a : Int) : tdiv2 a = a.tdiv 2 := by
  unfold tdiv2
  split
  case isTrue h => exact (Int.tdiv_eq_ediv_of_nonneg h).symm
  case isFalse h => rw [← Int.tdiv_eq_ediv_of_nonneg (by omega), Int.neg_tdiv, neg_neg]

section
variable {s : State} (hc : s.cause = none)
include hc

theorem answers_p1pred_order (opa : Word) {k : BitVec 8} (h1 : 1 ≤ k.toNat) (h3 : k.toNat ≤ 3) :
    Answers (.p1pred k opa) s (u32 (pt k.toNat s)) s := by
  have hlegal : predictorOk k = true := decide_eq_true ⟨h1, by omega⟩
  show execP1pred k opa s = _
  rw [execP1pred, execute_legal hc hlegal, if_pos h3, finish_answer]

theorem exec_p1pred_four_eq (opa : Word) : exec (.p1pred 4 opa) s =
    finish (if isSample (s32 opa) then answer (u32 (pic (s32 opa) s)) s else .raise .invalidArgument s) := by
  show execP1pred 4 opa s = _
  rw [execP1pred, execute_legal hc (by decide), if_neg (by decide)]

theorem answers_p1pred_combined {opa : Word} (hx : isSample (s32 opa) = true) :
    Answers (.p1pred 4 opa) s (u32 (pic (s32 opa) s)) s := by
  rw [Answers, exec_p1pred_four_eq hc, if_pos hx, finish_answer]

theorem exec_p1pred_of_not_sample {opa : Word} (hx : ¬ isSample (s32 opa) = true) :
    exec (.p1pred 4 opa) s = .next (takeFault .invalidArgument s) := by
  rw [exec_p1pred_four_eq hc, if_neg hx, finish_raise]

end

/-- Settles O39: orders 1 to 3 answer `pt`, whose value with enough and with too little history is read off, and 4
answers `pic` after its test of the reference. -/
theorem p1predAnswers : Obligations.P1predAnswers := by
  unfold Obligations.P1predAnswers
  intro s opa hc
  rw [← pt_one, ← pt_two, ← pt_three, ← tdiv2_eq_tdiv]
  refine ⟨answers_p1pred_order hc opa (by decide) (by decide), answers_p1pred_order hc opa (by decide) (by decide),
    answers_p1pred_order hc opa (by decide) (by decide), fun hlo hhi => ?_, fun hx => ?_⟩
  · exact answers_p1pred_combined hc ((isSample_iff _).2 ⟨hlo, hhi⟩)
  · exact raises_of_takeFault (by decide) (exec_p1pred_of_not_sample hc (not_isSample hx))

end Sys2Proof.Machine
end

section
/-! SUPPORT. The 2-D predictor (44_predictors.md R227 to R231, R237): the spatial prediction place by place and mode by
mode, recording the pixels of a plane, and how a coded pixel moves the core on. -/

namespace Sys2Proof.Machine

/-! ### The spatial prediction -/

section
variable {pm r c : Nat} {left top topLeft : Int}

theorem spatial_origin : spatial pm 0 0 left top topLeft = 128 := rfl

theorem spatial_first_row (hc : c ≠ 0) : spatial pm 0 c left top topLeft = left := by
  rw [spatial, if_neg fun h => hc h.2, if_pos rfl]

theorem spatial_first_column (hr : r ≠ 0) : spatial pm r 0 left top topLeft = top := by
  rw [spatial, if_neg fun h => hr h.1, if_neg hr, if_pos rfl]

theorem spatial_interior (hr : r ≠ 0) (hc : c ≠ 0) :
    spatial pm r c left top topLeft = interior pm left top topLeft := by
  rw [spatial, if_neg fun h => hr h.1, if_neg hr, if_neg hc]

end

section
variable {a b c : Int}

theorem med_of_max_le (h : max a b ≤ c) : med a b c = min a b := if_pos h

/-- Where the test before it holds too, the three neighbours are equal (R227). -/
theorem med_of_le_min (h : c ≤ min a b) : med a b c = max a b := by
  by_cases hmax : max a b ≤ c
  · rw [med_of_max_le hmax]; omega
  · rw [med, if_neg hmax, if_pos h]

theorem med_of_between (hlo : min a b < c) (hhi : c < max a b) : med a b c = a + b - c := by
  rw [med, if_neg (Int.not_le.2 hhi), if_neg (Int.not_le.2 hlo)]

end

theorem answers_p2pred {s : State} (h : Ready s) (hp : inPhase2 s = true) :
    Answers .p2pred s (u32 (predicted2 s)) s := by
  show execP2pred s = _
  rw [execP2pred, execute_legal h.healthy (by exact hp), ps_eq (h.running.col_lt_lineDepth hp), Res.bind_ok,
    finish_answer]
  rfl

/-- Settles O41: P2PRED answers `predicted2`, whose value is read off at each place and in each mode. -/
theorem p2predAnswers : Obligations.P2predAnswers := by
  unfold Obligations.P2predAnswers
  rintro s a b c h hp rfl rfl rfl
  have ans {p : Int} (hpred : predicted2 s = p) : Answers .p2pred s (BitVec.ofInt 32 p) s := hpred ▸ answers_p2pred h hp
  have pos {x : BitVec 32} (hx : x ≠ 0) : x.toNat ≠ 0 := (BitVec.toNat_pos_of_ne_zero hx).ne'
  refine ⟨fun hr hc => ?_, fun hr hc => ?_, fun hr hc => ?_, fun hr hc => ?_⟩
  · exact ans (p := 128) (by rw [predicted2, hr, hc]; exact spatial_origin)
  · exact ans (by rw [predicted2, hr]; exact spatial_first_row (pos hc))
  · exact ans (by rw [predicted2, hc]; exact spatial_first_column (pos hr))
  · have inside {pm : BitVec 8} {p : Int} (hpm : s.pmode = pm)
        (hi : interior pm.toNat s.areg.toNat (s.line.read s.col.toNat).toNat s.creg.toNat = p) :
        Answers .p2pred s (BitVec.ofInt 32 p) s :=
      ans (by rw [predicted2, spatial_interior (pos hr) (pos hc), hpm, hi])
    exact ⟨fun hpm => inside hpm rfl, fun hpm => inside hpm rfl, fun hpm => inside hpm rfl, fun hpm => inside hpm rfl,
      fun hpm hmax => inside hpm (med_of_max_le hmax), fun hpm hmin => inside hpm (med_of_le_min hmin),
      fun hpm hlo hhi => inside hpm (med_of_between hlo hhi)⟩

/-! ### Recording the pixels of a plane -/

/-- `p2push` before the last column (R231). -/
theorem p2push_within {s : State} (x : Byte) (hd : s.col.toNat < s.lineDepth) (hc : s.col + 1 ≠ s.cols) :
    p2push x s = .ok (decide (s.row = s.rows)) { s with
      line := s.line.write s.col.toNat x, creg := s.line.read s.col.toNat, areg := x, col := s.col + 1 } := by
  rw [p2push_eq x hd, nextPosition_within]
  exact hc

/-- `p2push` at the last column. -/
theorem p2push_end {s : State} (x : Byte) (hd : s.col.toNat < s.lineDepth) (hc : s.col + 1 = s.cols) :
    p2push x s = .ok (decide (s.row + 1 = s.rows)) { s with
      line := s.line.write s.col.toNat x, creg := 0, areg := 0, col := 0, row := s.row + 1 } := by
  rw [p2push_eq x hd, nextPosition_end]
  exact hc

theorem ne_zero_of_toNat_succ {a : BitVec 32} {n : Nat} (h : a.toNat = n + 1) : a ≠ 0 := by
  rintro rfl
  cases h

theorem Tracks.at_start (pix : Nat → Nat → Byte) (s : State) : Tracks pix (p2reset s) := ⟨rfl, rfl, fun _ _ => rfl⟩

section
variable {pix : Nat → Nat → Byte} {s : State} (h : Tracks pix s) (hwf : s.line.wf = true)
include h hwf

/-- Within a row the recorded pixel is the next one's left neighbour, and the entry it replaces the top-left one. -/
theorem Tracks.within (hcol : s.col.toNat < s.cols.toNat) : Tracks pix { s with
    line := s.line.write s.col.toNat (pix s.row.toNat s.col.toNat), creg := s.line.read s.col.toNat
    areg := pix s.row.toNat s.col.toNat, col := s.col + 1 } := by
  have hsucc : (s.col + 1).toNat = s.col.toNat + 1 := toNat_succ_of_lt hcol
  have hne : s.col + 1 ≠ 0 := ne_zero_of_toNat_succ hsucc
  refine ⟨?_, ?_, fun i hi => ?_⟩
  · show pix _ _ = if s.col + 1 = 0 then 0 else pix s.row.toNat ((s.col + 1).toNat - 1)
    rw [if_neg hne, hsucc, Nat.add_sub_cancel]
  · show s.line.read s.col.toNat =
      if s.row = 0 ∨ s.col + 1 = 0 then 0 else pix (s.row.toNat - 1) ((s.col + 1).toNat - 1)
    rw [h.line _ hcol, if_neg (Nat.lt_irrefl _), hsucc, Nat.add_sub_cancel]
    simp only [hne, or_false]
  · show (s.line.write s.col.toNat _).read i = if i < (s.col + 1).toNat then _ else _
    rw [Memory.read_write _ _ _ hwf, hsucc]
    by_cases hi' : i = s.col.toNat
    · rw [if_pos hi', if_pos (by omega), hi']
    · have hlt : i < s.col.toNat + 1 ↔ i < s.col.toNat := by omega
      simp only [if_neg hi', hlt, h.line i hi]

/-- After the last pixel of a row the line buffer holds that row, which is the one above the next. -/
theorem Tracks.next_row (hend : s.col.toNat + 1 = s.cols.toNat) (hrow : s.row.toNat < s.rows.toNat) :
    Tracks pix { s with
      line := s.line.write s.col.toNat (pix s.row.toNat s.col.toNat), creg := 0, areg := 0, col := 0
      row := s.row + 1 } := by
  have hsucc : (s.row + 1).toNat = s.row.toNat + 1 := toNat_succ_of_lt hrow
  refine ⟨rfl, by simp, fun i hi => ?_⟩
  have hi : i < s.cols.toNat := hi
  show (s.line.write s.col.toNat _).read i =
    if i < 0 then _ else if s.row + 1 = 0 then _ else pix ((s.row + 1).toNat - 1) i
  rw [Memory.read_write _ _ _ hwf, if_neg (Nat.not_lt_zero i), if_neg (ne_zero_of_toNat_succ hsucc), hsucc,
    Nat.add_sub_cancel]
  by_cases hi' : i = s.col.toNat
  · rw [if_pos hi', hi']
  · rw [if_neg hi', h.line i hi, if_pos (by omega)]

end

/-- Settles O42: `p2reset` tracks every plane from its first pixel, and `p2push` goes on within the row or to the
next. -/
theorem pushTracksPlane : Obligations.PushTracksPlane := by
  unfold Obligations.PushTracksPlane
  refine fun pix s => ⟨.at_start pix s, fun hwf hdepth hcol hrow h => ?_⟩
  have hd : s.col.toNat < s.lineDepth := by omega
  by_cases hend : s.col + 1 = s.cols
  · have hend' := (succ_eq_iff hcol).1 hend
    have hsucc := toNat_succ_of_lt hrow
    refine ⟨_, _, p2push_end _ hd hend, h.next_row hwf hend' hrow, ?_, Nat.zero_lt_of_lt hcol, ?_⟩
    · show (s.row + 1).toNat * s.cols.toNat + 0 = _
      rw [hsucc, Nat.succ_mul]
      omega
    · rw [decide_eq_true_iff, ← BitVec.toNat_inj]
  · have hend' := mt (succ_eq_iff hcol).2 hend
    have hsucc := toNat_succ_of_lt hcol
    refine ⟨_, _, p2push_within _ hd hend, h.within hwf hcol, ?_, ?_, ?_⟩
    · show s.row.toNat * s.cols.toNat + (s.col + 1).toNat = _
      rw [hsucc, Nat.add_assoc]
    · show (s.col + 1).toNat < s.cols.toNat
      omega
    · rw [decide_eq_true_iff, ← BitVec.toNat_inj]

/-! ### How a coded pixel moves the core on -/

/-- From `s` to `t` the pixel `x` is recorded and the place moves on (R231, 46_codec2d.md R283); the window, the channel
and the response may change as well, and nothing else does. -/
structure PixelAdvanced (x : Byte) (s t : State) : Prop where
  frame : t = { s with
    line := t.line, areg := t.areg, creg := t.creg, col := t.col, row := t.row, phase := t.phase
    sum := t.sum, cnt := t.cnt, acc := t.acc, nbits := t.nbits, out := t.out, rpos := t.rpos, resp := t.resp }
  line : ∀ j, t.line.read j = if j = s.col.toNat then x else s.line.read j
  within : s.col.toNat + 1 ≠ s.cols.toNat → t.col.toNat = s.col.toNat + 1 ∧ t.row = s.row ∧ t.areg = x ∧
    t.creg = s.line.read s.col.toNat ∧ t.phase = s.phase
  rowEnd : s.col.toNat + 1 = s.cols.toNat → t.col = 0 ∧ t.areg = 0 ∧ t.creg = 0
  nextRow : s.col.toNat + 1 = s.cols.toNat → s.row.toNat + 1 ≠ s.rows.toNat →
    t.row.toNat = s.row.toNat + 1 ∧ t.phase = s.phase
  planeEnd : s.col.toNat + 1 = s.cols.toNat → s.row.toNat + 1 = s.rows.toNat → t.row = 0 ∧ t.phase = .idle

theorem PixelAdvanced.after_respond {x : Byte} {s t : State} (h : PixelAdvanced x s t) (r : Response) :
    PixelAdvanced x s (respond r t) :=
  ⟨by rw [h.frame]; rfl, h.line, h.within, h.rowEnd, h.nextRow, h.planeEnd⟩

/-- What coding the residual may change, before the pixel is recorded: the window and the channel. -/
def CodedFrom (s u : State) : Prop :=
  u = { s with sum := u.sum, cnt := u.cnt, acc := u.acc, nbits := u.nbits, out := u.out, rpos := u.rpos }

theorem WriteFrame.codedFrom {s u : State} (h : WriteFrame s u) : CodedFrom s u := by rw [CodedFrom, h]

theorem ReadFrame.codedFrom {s u : State} (h : ReadFrame s u) : CodedFrom s u := by rw [CodedFrom, h]

/-- The place and the neighbours before the advance are those before the residual was coded. -/
theorem PixelAdvanced.of_codedFrom {x : Byte} {s u t : State} (hu : CodedFrom s u) (h : PixelAdvanced x u t) :
    PixelAdvanced x s t := by
  rw [hu] at h
  exact ⟨h.frame, h.line, h.within, h.rowEnd, h.nextRow, h.planeEnd⟩

/-- `s2advance` within a row, to the next row, and at the end of the plane (46_codec2d.md R283). -/
theorem s2advance_advances {s : State} (h : Ready s) (hp : inPhase2 s = true) (x : Byte) :
    (s2advance x s).Leads fun _ t => PixelAdvanced x s t := by
  obtain ⟨_, hrow, hcol⟩ := h.running.place2 hp
  have hd := h.running.col_lt_lineDepth hp
  have hline (j : Nat) : (s.line.write s.col.toNat x).read j = if j = s.col.toNat then x else s.line.read j :=
    Memory.read_write _ _ _ h.inv.canonical
  by_cases hend : s.col + 1 = s.cols
  · have hend' := (succ_eq_iff hcol).1 hend
    by_cases hlast : s.row + 1 = s.rows
    · have hlast' := (succ_eq_iff hrow).1 hlast
      rw [s2advance_end x hd hend hlast]
      exact ⟨rfl, hline, fun hne => absurd hend' hne, fun _ => ⟨rfl, rfl, rfl⟩, fun _ hne => absurd hlast' hne,
        fun _ _ => ⟨rfl, rfl⟩⟩
    · have hlast' := mt (succ_eq_iff hrow).2 hlast
      rw [s2advance_row x hd hend hlast]
      exact ⟨rfl, hline, fun hne => absurd hend' hne, fun _ => ⟨rfl, rfl, rfl⟩,
        fun _ _ => ⟨toNat_succ_of_lt hrow, rfl⟩, fun _ he => absurd he hlast'⟩
  · have hend' := mt (succ_eq_iff hcol).2 hend
    have hrow' : s.row ≠ s.rows := fun he => Nat.ne_of_lt hrow (congrArg _ he)
    rw [s2advance_within x hd hend hrow']
    exact ⟨rfl, hline, fun _ => ⟨toNat_succ_of_lt hcol, rfl, rfl, rfl, rfl⟩, fun he => absurd he hend',
      fun he => absurd he hend', fun he => absurd he hend'⟩

theorem Res.Leads.imp {α : Type} {P Q : α → State → Prop} {r : Res α} (h : r.Leads P) (hpq : ∀ a t, P a t → Q a t) :
    r.Leads Q := by
  cases r with
  | ok a t => exact hpq a t h
  | raise c t => trivial
  | stop f => exact h

/-- The advance after the residual is coded, as the change from the state the command found. -/
theorem s2advance_after_coding {s u : State} (h : Ready u) (hu : CodedFrom s u) (hp : inPhase2 s = true) (x : Byte) :
    (s2advance x u).Leads fun _ t => PixelAdvanced x s t := by
  have hpu : inPhase2 u = true := by rw [hu]; exact hp
  exact (s2advance_advances h hpu x).imp fun _ _ hadv => hadv.of_codedFrom hu

/-- A command that leaves a healthy core unfaulted has run its pseudocode to the end. -/
theorem execute_ends_in {legal : Bool} {body : State → Res Response} {s t : State} {P : Response → State → Prop}
    (hx : execute legal body s = .next t) (hs : s.cause = none) (ht : t.cause = none)
    (hb : legal = true → (body s).Leads P) : ∃ r u, P r u ∧ t = respond r u := by
  rcases execute_cases hx with ⟨c, hc, _⟩ | ⟨_, _, rfl⟩ | ⟨_, hl, r, u, he, rfl⟩ | ⟨_, _, c, u, _, rfl⟩
  · rw [hs] at hc; cases hc
  · cases ht
  · have hlead := hb hl
    rw [he] at hlead
    exact ⟨r, u, hlead, rfl⟩
  · cases ht

/-- The answered word and the recorded pixel are the same clamped value (46_codec2d.md R291). -/
theorem setWidth_u32 (n : Int) : (u32 n).setWidth 8 = BitVec.ofInt 8 n := by
  apply BitVec.eq_of_toNat_eq
  rw [BitVec.toNat_setWidth, u32, BitVec.toNat_ofInt, BitVec.toNat_ofInt]
  omega

section
variable {s t : State} (h : Ready s) (hc : t.cause = none)
include h hc

theorem rsd2_advances {opa : Word} (hx : exec (.rsd2 opa) s = .next t) : PixelAdvanced (opa.setWidth 8) s t := by
  obtain ⟨r, u, hu, rfl⟩ := execute_ends_in (P := fun _ u => PixelAdvanced (opa.setWidth 8) s u)
    (show execRsd2 opa s = .next t from hx) h.healthy hc fun hl => by
      have hfit : Phase2Fits s := .inl (of_decide_eq_true hl)
      have hp := hfit.inPhase.2
      refine (residual2_leads opa (h.running.col_lt_lineDepth hp)).bind ?_
      rintro e s1 ⟨hs, he⟩
      rw [hs]
      refine (estacc_leads h he).bind fun _ u ⟨hu, hframe⟩ => ?_
      have hcoded : CodedFrom s u := by rw [CodedFrom, hframe]
      exact (s2advance_after_coding hu hcoded hp _).bind fun _ _ hadv => hadv
  exact hu.after_respond r

theorem enc2_advances {opa : Word} (hx : exec (.enc2 opa) s = .next t) : PixelAdvanced (opa.setWidth 8) s t := by
  obtain ⟨r, u, hu, rfl⟩ := execute_ends_in (P := fun _ u => PixelAdvanced (opa.setWidth 8) s u)
    (show execEnc2 opa s = .next t from hx) h.healthy hc fun hl => by
      obtain ⟨hm, hphase⟩ := writerIn_iff.1 hl
      have hfit : Phase2Fits s := .inr (.inl ⟨hphase, hm⟩)
      have hp := hfit.inPhase.2
      refine (residual2_leads opa (h.running.col_lt_lineDepth hp)).bind ?_
      rintro e s1 ⟨hs, _⟩
      rw [hs]
      refine (encu_leads h hm _).bind fun _ u ⟨hu, hframe⟩ => ?_
      exact (s2advance_after_coding hu hframe.codedFrom hp _).bind fun _ _ hadv => hadv
  exact hu.after_respond r

theorem dec2_advances {w : Word} (hx : exec .dec2 s = .next t) (hr : t.resp = some (.ok w)) :
    PixelAdvanced (w.setWidth 8) s t := by
  obtain ⟨r, u, ⟨p, rfl, hu⟩, rfl⟩ := execute_ends_in
    (P := fun r u => ∃ p, r = .ok (u32 p) ∧ PixelAdvanced (BitVec.ofInt 8 p) s u)
    (show execDec2 s = .next t from hx) h.healthy hc fun hl => by
      obtain ⟨hm, hphase⟩ := readerIn_iff.1 hl
      have hfit : Phase2Fits s := .inr (.inr ⟨hphase, hm⟩)
      have hp := hfit.inPhase.2
      rw [ps_eq (h.running.col_lt_lineDepth hp), Res.bind_ok]
      refine (decu_leads h hm).bind fun v u ⟨hu, hframe⟩ => ?_
      exact (s2advance_after_coding hu hframe.codedFrom hp _).bind fun _ _ hadv => ⟨_, rfl, hadv⟩
  obtain rfl : u32 p = w := by cases hr; rfl
  rw [setWidth_u32]
  exact hu.after_respond _

end

/-- Settles O57: the three commands code the residual, which leaves the place alone, and then advance by the pixel. -/
theorem pixelAdvance : Obligations.PixelAdvance := by
  unfold Obligations.PixelAdvance
  intro i s t x h hx hc hi
  have hadv : PixelAdvanced x s t := by
    rcases hi with ⟨a, rfl | rfl, rfl⟩ | ⟨w, rfl, hr, rfl⟩
    · exact rsd2_advances h hc hx
    · exact enc2_advances h hc hx
    · exact dec2_advances h hc hx hr
  exact ⟨hadv.frame, hadv.line, hadv.within, hadv.rowEnd, hadv.nextRow, hadv.planeEnd⟩

end Sys2Proof.Machine
end

section
/-! SUPPORT. The 1-D codec's commands (45_codec1d.md): the prediction they select, how each begins, codes a residual and
advances, what an answered command must have found, and that a decoder follows an encoder sample by sample. -/

namespace Sys2Proof.Machine

/-! ### The prediction of the next sample -/

theorem needref_iff (s : State) : needref s = true ↔ s.ch = 1 ∧ s.flags.getLsbD 1 = true := by simp [needref]

theorem p1sel_of_needref {s : State} (h : needref s = true) (ref : Int) : p1sel ref s = pic ref s := if_pos h

theorem p1sel_of_not_needref {s : State} (h : needref s = false) (ref : Int) : p1sel ref s = pt 2 s :=
  if_neg (ne_true_of_eq_false h)

/-- Settles O44: `needref` is the test of R253, and `p1sel` chooses by it. -/
theorem predictorSelection : Obligations.PredictorSelection := by
  unfold Obligations.PredictorSelection
  intro s ref
  have without (h : ¬ (s.ch = 1 ∧ s.flags.getLsbD 1 = true)) : needref s = false ∧ p1sel ref s = pt 2 s := by
    have hn : needref s = false := eq_false_of_ne_true fun hn => h ((needref_iff s).1 hn)
    exact ⟨hn, p1sel_of_not_needref hn ref⟩
  refine ⟨fun hch => without (by simp [hch]), fun _ hicp => without fun ⟨_, hset⟩ => ?_, fun hch hicp => ?_⟩
  · exact Bool.false_ne_true (hicp.symm.trans hset)
  · have hn : needref s = true := (needref_iff s).2 ⟨hch, hicp⟩
    exact ⟨hn, p1sel_of_needref hn ref⟩

/-! ### Beginning an analysis pass -/

theorem channelsOk_nch_iff (s : State) : channelsOk s.nch.toNat = true ↔ s.nch = 1 ∨ s.nch = 2 := by
  rw [channelsOk_iff, ← BitVec.toNat_inj, ← BitVec.toNat_inj]
  rfl

theorem toNat_ne_zero_iff {n : Nat} (a : BitVec n) : a.toNat ≠ 0 ↔ a ≠ 0 := by
  simp [← BitVec.toNat_inj]

/-- The registers of R280 and R281 in the words of the invariant's geometry. -/
theorem geometryOk_registers_iff (s : State) : geometryOk s = true ↔
    s.rows ≠ 0 ∧ s.cols ≠ 0 ∧ s.cols.toNat ≤ s.lineDepth ∧ s.pmode.toNat ≤ 4 := by
  rw [geometryOk_iff, toNat_ne_zero_iff, toNat_ne_zero_iff]

section
variable {s : State} (hc : s.cause = none) (hp : s.phase = .idle)
include hc hp

theorem exec_begin1a_eq : exec .begin1a s =
    finish (if channelsOk s.nch.toNat then answer 0 (startPhase1 .s1anl s) else .raise .invalidArgument s) := by
  show execBegin1a s = _
  rw [execBegin1a, execute_legal hc (decide_eq_true hp)]

theorem exec_begin2a_eq : exec .begin2a s =
    finish (if geometryOk s then answer 0 (startPhase2 .s2anl s) else .raise .invalidArgument s) := by
  show execBegin2a s = _
  rw [execBegin2a, execute_legal hc (decide_eq_true hp)]

end

/-- Settles O43: each command is one test of the configuration, before `startPhase1` or `startPhase2`. -/
theorem beginPasses : Obligations.BeginPasses := by
  unfold Obligations.BeginPasses
  intro s hc hp
  refine ⟨fun hn => ?_, fun hn => raises_of_takeFault (by decide) ?_, fun hg => ⟨[], ?_, fun _ => rfl⟩,
    fun hg => raises_of_takeFault (by decide) ?_⟩
  · rw [Answers, exec_begin1a_eq hc hp, if_pos ((channelsOk_nch_iff s).2 hn), finish_answer]
    rfl
  · rw [exec_begin1a_eq hc hp, if_neg (mt (channelsOk_nch_iff s).1 hn), finish_raise]
  · rw [Answers, exec_begin2a_eq hc hp, if_pos ((geometryOk_registers_iff s).2 hg), finish_answer]
    rfl
  · rw [exec_begin2a_eq hc hp, if_neg (mt (geometryOk_registers_iff s).1 hg), finish_raise]

/-! ### RSD1 -/

section
variable {s : State} {opa opb : Word} (ha : isSample (s32 opa) = true)
  (hb : needref s = true → isSample (s32 opb) = true)
include ha hb

/-- A residual fits 18 bits, so neither the answer nor the window's sum wraps (R253, R257). -/
theorem residual1_bounds : -131071 ≤ s32 opa - p1sel (s32 opb) s ∧ s32 opa - p1sel (s32 opb) s ≤ 131070 := by
  have hx := (isSample_iff _).1 ha
  have hp := p1sel_range s hb
  omega

theorem toInt_u32_residual1 : (u32 (s32 opa - p1sel (s32 opb) s)).toInt = s32 opa - p1sel (s32 opb) s := by
  obtain ⟨hlo, hhi⟩ := residual1_bounds ha hb
  exact toInt_u32 (by omega) (by omega)

theorem exec_rsd1_eq (hc : s.cause = none) (hp : s.phase = .s1anl) : exec (.rsd1 opa opb) s =
    finish ((estacc (s32 opa - p1sel (s32 opb) s) s).bind fun _ t =>
      answer (u32 (s32 opa - p1sel (s32 opb) s)) (s1advance (s32 opa) t)) := by
  show execRsd1 opa opb s = _
  rw [execRsd1, execute_legal hc (decide_eq_true hp), residual1_ok ha hb, Res.bind_ok]

end

/-- Settles O45: `estacc` of the residual tests the count before anything changes, and the rest is the advance. -/
theorem rsd1Answers : Obligations.Rsd1Answers := by
  unfold Obligations.Rsd1Answers
  rintro s opa opb e h hp ha hb rfl
  have hx := exec_rsd1_eq ha hb h.healthy hp
  refine ⟨fun hn => ?_, fun hn => raises_of_takeFault (by decide) ?_⟩
  · obtain ⟨hlo, hhi⟩ := residual1_bounds ha hb
    obtain ⟨hsum, _⟩ := sum_add h.running.window
      (show (s32 opa - p1sel (s32 opb) s).natAbs ≤ 2147483648 by omega) hn
    refine ⟨_, _, _, toInt_u32_residual1 ha hb, ?_, hsum, cnt_succ hn⟩
    rw [Answers, hx, estacc_ok _ hn, Res.bind_ok, finish_answer]
  · rw [hx, estacc_full _ hn, Res.bind_raise, finish_raise]

/-! ### WRHDR1 and ENC1 -/

theorem nch_toNat_eq_two_iff (s : State) : s.nch.toNat = 2 ↔ s.nch = 2 := by
  rw [← BitVec.toNat_inj]
  rfl

/-- The header that WRHDR1 writes, in the words of the registers (R258, 30_encoding.md R116). -/
theorem bitsWritten_wrhdr1 (s : State) : bitsWritten .wrhdr1 s =
    bitsof s.srate.toNat 32 ++ bitsof s.nch.toNat 16 ++ bitsof s.bps.toNat 16 ++ bitsof s.nsamp.toNat 32 ++
      bitsof s.m.toNat 16 ++ [s.flags.getLsbD 0] ++ (if s.nch = 2 then [s.flags.getLsbD 1] else []) := by
  simp only [bitsWritten, header1, nch_toNat_eq_two_iff]

theorem bitsWritten_wrhdr1_length (s : State) :
    (bitsWritten .wrhdr1 s).length = if s.nch = 2 then 114 else 113 := by
  simp only [bitsWritten, header1_length, nch_toNat_eq_two_iff]

/-- Settles O46: WRHDR1 writes its header with `putAll` and then starts the phase. -/
theorem wrhdr1WritesHeader : Obligations.Wrhdr1WritesHeader := by
  unfold Obligations.Wrhdr1WritesHeader
  rintro s hdr h hm hp hn hhdr
  rw [← bitsWritten_wrhdr1] at hhdr
  subst hhdr
  refine ⟨bitsWritten_wrhdr1_length s, fun hf => ?_⟩
  obtain ⟨t, ht, hw⟩ := putAll_ok (h.running.writer hm) hf
  have hns : t.nsamp = s.nsamp := by rw [hw.frame]
  refine ⟨t, hw, ?_⟩
  rw [Answers, exec_wrhdr1_eq h.healthy (decide_eq_true ⟨hm, hp⟩) ((channelsOk_nch_iff s).2 hn), ht, Res.bind_ok,
    finish_answer, ← hns]
  rfl

theorem operandsOk_enc1 {s : State} {opa opb : Word} (ha : isSample (s32 opa) = true)
    (hb : needref s = true → isSample (s32 opb) = true) : operandsOk (.enc1 opa opb) s = true := by
  cases hn : needref s with
  | false => simp [operandsOk, ha, hn]
  | true => simp [operandsOk, ha, hb hn]

/-- Settles O47: ENC1 writes its codeword with `putAll` and then advances. -/
theorem enc1WritesResidual : Obligations.Enc1WritesResidual := by
  unfold Obligations.Enc1WritesResidual
  rintro s opa opb e h hm hp ha hb rfl hf
  obtain ⟨t, ht, hw⟩ := putAll_ok (h.running.writer hm) hf
  refine ⟨_, t, toInt_u32_residual1 ha hb, hw, ?_⟩
  rw [Answers, exec_enc1_eq h opa opb (decide_eq_true ⟨hm, hp⟩) (operandsOk_enc1 ha hb)]
  show finish ((putAll (cwZigzag s.m.toNat (s32 opa - p1sel (s32 opb) s)) s).bind _) = _
  rw [ht, Res.bind_ok, finish_answer]

/-! ### RDHDR1 -/

/-- `FLAGS` as RDHDR1 loads it: `ICP` is 0 in mono (R255, R260). -/
theorem headerFlags_eq (nc : Nat) (ad ic : Bool) : bitVal ad + 2 * (if nc = 2 then bitVal ic else 0) =
    (if ad = true then 1 else 0) + (if nc = 2 ∧ ic = true then 2 else 0) := by
  by_cases hn : nc = 2 <;> cases ic <;> simp [hn, bitVal]

theorem ofNat_eq_zero_iff {w n : Nat} (h : n < 2 ^ w) : BitVec.ofNat w n = 0 ↔ n = 0 := by
  rw [← BitVec.toNat_inj, BitVec.toNat_ofNat, Nat.mod_eq_of_lt h]
  simp

theorem exec_rdhdr1_eq {s : State} (hc : s.cause = none) (hm : s.mode = .read) (hp : s.phase = .idle) :
    exec .rdhdr1 s =
      finish ((getHeader1 s).bind fun h t => answer 0 (startPhase1 .s1dec (loadHeader1 h t))) := by
  show execRdhdr1 s = _
  rw [execRdhdr1, execute_legal hc (readerIn_iff.2 ⟨hm, hp⟩)]

section
variable {s : State} {sr nc bp ns m : Nat} {ad ic : Bool} (h : Ready s) (hm : s.mode = .read) (hp : s.phase = .idle)
include h hm hp

/-- What reading the header raises is raised by RDHDR1. -/
theorem raises_rdhdr1 {c : Cause} {t : State} (he : getHeader1 s = .raise c t) (hf : ReadFrame s t) :
    Raises .rdhdr1 s c s.out :=
  raises_of_readFrame (hf.mode.trans hm) hf (by rw [exec_rdhdr1_eq h.healthy hm hp, he, Res.bind_raise])

section
variable {rest : Bits} (hsr : sr < 2 ^ 32) (hbp : bp < 2 ^ 16) (hns : ns < 2 ^ 32) (hlt : m < 2 ^ 16)
include hsr hbp hns hlt

theorem answers_rdhdr1 (hnc : nc = 1 ∨ nc = 2) (hne : m ≠ 0) (hu : unread s = header1 sr nc bp ns m ad ic ++ rest) :
    ∃ t, Took (header1 sr nc bp ns m ad ic) s t ∧ unread t = rest ∧ Answers .rdhdr1 s 0 (startPhase1 .s1dec
      (loadHeader1 ⟨sr, nc, bp, ns, m, bitVal ad, if nc = 2 then bitVal ic else 0⟩ t)) := by
  obtain ⟨t, he, htook, hut⟩ := getHeader1_ok (h.running.reader hm) hsr hnc hbp hns hlt hu
  refine ⟨t, htook, hut, ?_⟩
  rw [Answers, exec_rdhdr1_eq h.healthy hm hp, he, if_neg hne, Res.bind_ok, finish_answer]

/-- The channel count is tested before the parameter (R260). -/
theorem raises_rdhdr1_of_bad_field (hnc : nc < 2 ^ 16) (hbad : ¬ (nc = 1 ∨ nc = 2) ∨ m = 0)
    (hu : unread s = header1 sr nc bp ns m ad ic ++ rest) : Raises .rdhdr1 s .invalidArgument s.out := by
  have hr := h.running.reader hm
  by_cases hok : nc = 1 ∨ nc = 2
  · obtain ⟨t, he, htook, _⟩ := getHeader1_ok hr hsr hok hbp hns hlt hu
    exact raises_rdhdr1 h hm hp (he.trans (if_pos (hbad.resolve_left (not_not_intro hok)))) htook.readFrame
  · obtain ⟨t, he, hf⟩ := getHeader1_channels hr hsr hnc hok hbp hns hlt hu
    exact raises_rdhdr1 h hm hp he hf

/-- A stereo header that lacks its last bit still has the six fields before it. -/
theorem raises_rdhdr1_of_cut_stereo (hu : unread s ++ [ic] = header1 sr 2 bp ns m ad ic) :
    Raises .rdhdr1 s .unexpectedEof s.out := by
  rw [header1, if_pos rfl] at hu
  obtain ⟨t, he, hf⟩ := getHeader1_noIcp (h.running.reader hm) hsr hbp hns hlt (List.append_cancel_right hu)
  exact raises_rdhdr1 h hm hp he hf

end

end

/-- Settles O48: every clause is what `getHeader1` makes of the bits it finds. -/
theorem rdhdr1LoadsHeader : Obligations.Rdhdr1LoadsHeader := by
  unfold Obligations.Rdhdr1LoadsHeader
  intro s sr nc bp ns m ad ic rest h hm hp hsr hnc hbp hns hlt
  refine ⟨fun hshort => ?_, fun hu => ⟨fun hok hne => ?_, fun hbad => ?_⟩, fun hn hu => ?_⟩
  · obtain ⟨t, he, hf⟩ := getHeader1_short (h.running.reader hm) hshort
    exact raises_rdhdr1 h hm hp he hf
  · obtain ⟨t, htook, hut, hans⟩ := answers_rdhdr1 h hm hp hsr hbp hns hlt hok hne hu
    refine ⟨t, htook, hut, ?_⟩
    simp only [← headerFlags_eq, ← ofNat_eq_zero_iff hns]
    exact hans
  · exact raises_rdhdr1_of_bad_field h hm hp hsr hbp hns hlt hnc hbad hu
  · subst hn
    exact raises_rdhdr1_of_cut_stereo h hm hp hsr hbp hns hlt hu

/-! ### DEC1 -/

/-- A command that decodes goes on with the value of the codeword it finds. -/
theorem Decodes.goes_on {i : Instr} {s t : State} {k : Nat → State → Res Response} {v : Nat} {rest : Bits}
    (h : Decodes i s t k) (hu : unread t = cw s.m.toNat v ++ rest) (hv : v ≤ Config.valueMax) :
    ∃ u, exec i s = finish (k v u) ∧ Took (cw s.m.toNat v) t u ∧ unread u = rest := by
  rw [← h.frame.m] at hu ⊢
  obtain ⟨u, he, htook, huu⟩ := decu_codeword h.ready.running.coder (h.ready.running.reader h.reader) hu
  rw [if_neg (Nat.not_lt.2 hv)] at he
  exact ⟨u, by rw [h.runs, he, Res.bind_ok], htook, huu⟩

theorem operandsOk_dec1 {s : State} {opa : Word} (ha : needref s = true → isSample (s32 opa) = true) :
    operandsOk (.dec1 opa) s = true := by
  cases hn : needref s with
  | false => simp [operandsOk, hn]
  | true => simp [operandsOk, ha hn]

section
variable {s : State} {opa : Word} {v : Nat} {rest : Bits} {x : Int} (h : Ready s) (hm : s.mode = .read)
  (hp : s.phase = .s1dec) (ha : needref s = true → isSample (s32 opa) = true)
  (hu : unread s = cw s.m.toNat v ++ rest) (hx : x = p1sel (s32 opa) s + unzz v)
include h hm hp ha hu hx

theorem answers_dec1 (hv : v ≤ Config.valueMax) (hs : isSample x = true) :
    ∃ t, Took (cw s.m.toNat v) s t ∧ unread t = rest ∧ Answers (.dec1 opa) s (u32 x) (s1advance x t) := by
  obtain ⟨t, he, htook, hut⟩ := (decodes_dec1 h (decide_eq_true ⟨hm, hp⟩) (operandsOk_dec1 ha)).goes_on hu hv
  rw [← hx, if_pos hs, finish_answer] at he
  exact ⟨t, htook, hut, he⟩

theorem raises_dec1_of_overflow (hbad : Config.valueMax < v ∨ isSample x = false) :
    Raises (.dec1 opa) s .rangeOverflow s.out := by
  refine (decodes_dec1 h (decide_eq_true ⟨hm, hp⟩) (operandsOk_dec1 ha)).overflow hu fun hle u => ?_
  rw [← hx]
  exact if_neg (ne_true_of_eq_false (hbad.resolve_left (Nat.not_lt.2 hle)))

end

theorem toInt_u32_sample {x : Int} (h : isSample x = true) : (u32 x).toInt = x := by
  obtain ⟨hlo, hhi⟩ := (isSample_iff x).1 h
  exact toInt_u32 (by omega) (by omega)

/-- Settles O49: DEC1 comes to `decu` at the codeword, and then tests the sum of prediction and residual. -/
theorem dec1Reconstructs : Obligations.Dec1Reconstructs := by
  unfold Obligations.Dec1Reconstructs
  intro s opa v rest x h hm hp ha hu hx
  exact ⟨fun hv hs => ⟨u32 x, (answers_dec1 h hm hp ha hu hx hv hs).imp fun _ ht => ⟨toInt_u32_sample hs, ht⟩⟩,
    raises_dec1_of_overflow h hm hp ha hu hx⟩

end Sys2Proof.Machine
end

section
/-! SUPPORT. How a coded 1-D sample moves the core on (45_codec1d.md R256): what each of the three commands must have
found where it is answered, and everything the advance can do. -/

namespace Sys2Proof.Machine

/-! ### What an answered command has found -/

/-- The operand checks of RSD1 and ENC1 have passed where the residual goes on. -/
theorem residual1_checks (opa opb : Word) (s : State) : (residual1 opa opb s).Leads fun e t =>
    t = s ∧ isSample (s32 opa) = true ∧ (needref s = true → isSample (s32 opb) = true) ∧
      e = s32 opa - p1sel (s32 opb) s := by
  by_cases ha : isSample (s32 opa) = true
  · by_cases hb : needref s = true → isSample (s32 opb) = true
    · rw [residual1_ok ha hb]
      exact ⟨rfl, ha, hb, rfl⟩
    · rw [residual1, if_neg (not_not_intro ha), if_pos (by simpa using hb)]
      trivial
  · rw [residual1, if_pos ha]
    trivial

/-- A bit string that is written without a fault is appended to what was written before. -/
theorem putAll_wrote {s : State} (hw : WriterOk s) (w : Bits) : (putAll w s).Leads fun _ t => Wrote w s t := by
  cases hf : sinkFits s w.length with
  | true =>
    obtain ⟨t, ht, hwrote⟩ := putAll_ok hw hf
    rw [ht]
    exact hwrote
  | false =>
    obtain ⟨t, ht, _⟩ := putAll_full hw hf
    rw [ht]
    trivial

/-- From `s` ENC1 came to `t`: its operands were samples, and it wrote the residual's codeword before it advanced
(R259). -/
structure Encoded (opa opb : Word) (s t : State) : Prop where
  sample : isSample (s32 opa) = true
  reference : needref s = true → isSample (s32 opb) = true
  coded : ∃ u, Wrote (cwZigzag s.m.toNat (s32 opa - p1sel (s32 opb) s)) s u ∧ t = s1advance (s32 opa) u

theorem enc1_body_leads {s : State} (h : Ready s) (hm : s.mode = .write) (opa opb : Word) :
    ((residual1 opa opb s).bind fun e s1 => (encu (zz e) s1).bind fun _ s2 =>
      answer (u32 e) (s1advance (s32 opa) s2)).Leads fun _ t => Encoded opa opb s t := by
  refine (residual1_checks opa opb s).bind ?_
  rintro e s1 ⟨rfl, ha, hb, rfl⟩
  rw [encu_eq_putAll h.running.coder]
  exact (putAll_wrote (h.running.writer hm) _).bind fun _ u hw => ⟨ha, hb, u, hw, rfl⟩

/-! ### The advance -/

/-- The advance moves the history and the place, and may end the phase; nothing else. -/
theorem s1advance_frame (x : Int) (s : State) : s1advance x s = { s with
    h1 := (s1advance x s).h1, h2 := (s1advance x s).h2, h3 := (s1advance x s).h3, hcnt := (s1advance x s).hcnt
    idx := (s1advance x s).idx, ch := (s1advance x s).ch, phase := (s1advance x s).phase } := by
  by_cases hlast : s.idx + 1 = s.nsamp
  · by_cases hleft : s.ch = 0 ∧ s.nch = 2
    · rw [s1advance_channel x hlast hleft.1 hleft.2]; rfl
    · rw [s1advance_end x hlast hleft]; rfl
  · rw [s1advance_within x hlast]; rfl

/-- From `s` to `t` the sample `x` is recorded and the place moves on (R256); the window, the channel and the response
may change as well, and nothing else does. -/
structure SampleAdvanced (x : Int) (s t : State) : Prop where
  frame : t = { s with
    h1 := t.h1, h2 := t.h2, h3 := t.h3, hcnt := t.hcnt, idx := t.idx, ch := t.ch, phase := t.phase
    sum := t.sum, cnt := t.cnt, acc := t.acc, nbits := t.nbits, out := t.out, rpos := t.rpos, resp := t.resp }
  within : s.idx.toNat + 1 ≠ s.nsamp.toNat → t.h1.toInt = x ∧ t.h2 = s.h1 ∧ t.h3 = s.h2 ∧
    t.hcnt.toNat = min 3 (s.hcnt.toNat + 1) ∧ t.idx.toNat = s.idx.toNat + 1 ∧ t.ch = s.ch ∧ t.phase = s.phase
  nextChannel : s.idx.toNat + 1 = s.nsamp.toNat → s.ch = 0 → s.nch = 2 →
    t.h1 = 0 ∧ t.h2 = 0 ∧ t.h3 = 0 ∧ t.hcnt = 0 ∧ t.idx = 0 ∧ t.ch = 1 ∧ t.phase = s.phase
  streamEnd : s.idx.toNat + 1 = s.nsamp.toNat → ¬ (s.ch = 0 ∧ s.nch = 2) → t.h1.toInt = x ∧ t.h2 = s.h1 ∧
    t.h3 = s.h2 ∧ t.hcnt.toNat = min 3 (s.hcnt.toNat + 1) ∧ t.idx = 0 ∧ t.ch = 0 ∧ t.phase = .idle

theorem SampleAdvanced.after_respond {x : Int} {s t : State} (h : SampleAdvanced x s t) (r : Response) :
    SampleAdvanced x s (respond r t) :=
  ⟨by rw [h.frame]; rfl, h.within, h.nextChannel, h.streamEnd⟩

/-- The history and the place before the advance are those before the residual was coded. -/
theorem SampleAdvanced.of_codedFrom {x : Int} {s u t : State} (hu : CodedFrom s u) (h : SampleAdvanced x u t) :
    SampleAdvanced x s t := by
  rw [hu] at h
  exact ⟨h.frame, h.within, h.nextChannel, h.streamEnd⟩

/-- `s1advance` within a channel, to the right channel, and at the end of the stream. -/
theorem s1advance_advances {s : State} {x : Int} (hi : s.idx.toNat < s.nsamp.toNat) (hx : isSample x = true) :
    SampleAdvanced x s (s1advance x s) := by
  have hh1 : (hpush x s).h1.toInt = x := toInt_ofInt_sample hx
  have hn := hpush_hcnt_toNat x s
  by_cases hlast : s.idx + 1 = s.nsamp
  · have hlast' := (succ_eq_iff hi).1 hlast
    by_cases hleft : s.ch = 0 ∧ s.nch = 2
    · rw [s1advance_channel x hlast hleft.1 hleft.2]
      exact ⟨rfl, fun hne => absurd hlast' hne, fun _ _ _ => ⟨rfl, rfl, rfl, rfl, rfl, rfl, rfl⟩,
        fun _ hno => absurd hleft hno⟩
    · rw [s1advance_end x hlast hleft]
      exact ⟨rfl, fun hne => absurd hlast' hne, fun _ hch hnch => absurd ⟨hch, hnch⟩ hleft,
        fun _ _ => ⟨hh1, rfl, rfl, hn, rfl, rfl, rfl⟩⟩
  · have hlast' := mt (succ_eq_iff hi).2 hlast
    rw [s1advance_within x hlast]
    exact ⟨rfl, fun _ => ⟨hh1, rfl, rfl, hn, toNat_succ_of_lt hi, rfl, rfl⟩, fun he => absurd he hlast',
      fun he => absurd he hlast'⟩

/-- The advance after the residual is coded, as the change from the state the command found. -/
theorem s1advance_after_coding {s u : State} {x : Int} (h : Ready s) (hfit : Phase1Fits s) (hu : CodedFrom s u)
    (hx : isSample x = true) : SampleAdvanced x s (s1advance x u) := by
  obtain ⟨_, hi, _⟩ := h.running.place1 hfit.inPhase.1
  have hiu : u.idx.toNat < u.nsamp.toNat := by rw [hu]; exact hi
  exact (s1advance_advances hiu hx).of_codedFrom hu

section
variable {s t : State} (h : Ready s) (hc : t.cause = none)
include h hc

theorem rsd1_advances {opa opb : Word} (hx : exec (.rsd1 opa opb) s = .next t) : SampleAdvanced (s32 opa) s t := by
  obtain ⟨r, u, hu, rfl⟩ := execute_ends_in (P := fun _ u => SampleAdvanced (s32 opa) s u)
    (show execRsd1 opa opb s = .next t from hx) h.healthy hc fun hl => by
      refine (residual1_checks opa opb s).bind ?_
      rintro e s1 ⟨rfl, ha, hb, rfl⟩
      obtain ⟨hlo, hhi⟩ := residual1_bounds ha hb
      refine (estacc_leads h (e := s32 opa - p1sel (s32 opb) s1) (by omega)).bind fun _ u ⟨_, hframe⟩ => ?_
      have hcoded : CodedFrom s1 u := by rw [CodedFrom, hframe]
      exact s1advance_after_coding h (.inl (of_decide_eq_true hl)) hcoded ha
  exact hu.after_respond r

theorem enc1_advances {opa opb : Word} (hx : exec (.enc1 opa opb) s = .next t) : SampleAdvanced (s32 opa) s t := by
  obtain ⟨r, u, hu, rfl⟩ := execute_ends_in (P := fun _ u => SampleAdvanced (s32 opa) s u)
    (show execEnc1 opa opb s = .next t from hx) h.healthy hc fun hl => by
      obtain ⟨hm, hp⟩ := writerIn_iff.1 hl
      refine (enc1_body_leads h hm opa opb).imp fun r u henc => ?_
      obtain ⟨v, hw, rfl⟩ := henc.coded
      have hframe : WriteFrame s v := hw.frame
      exact s1advance_after_coding h (.inr (.inl ⟨hp, hm⟩)) hframe.codedFrom henc.sample
  exact hu.after_respond r

/-- DEC1 answers the sample it records (R261). -/
theorem dec1_advances {opa w : Word} (hx : exec (.dec1 opa) s = .next t) (hr : t.resp = some (.ok w)) :
    SampleAdvanced (s32 w) s t := by
  obtain ⟨r, u, ⟨x, hs, rfl, hu⟩, rfl⟩ := execute_ends_in
    (P := fun r u => ∃ x, isSample x = true ∧ r = .ok (u32 x) ∧ SampleAdvanced x s u)
    (show execDec1 opa s = .next t from hx) h.healthy hc fun hl => by
      obtain ⟨hm, hp⟩ := readerIn_iff.1 hl
      refine .ite (fun _ => trivial) fun _ => (decu_leads h hm).bind fun v u ⟨_, hframe⟩ => ?_
      exact .ite (fun hs => ⟨_, hs, rfl, s1advance_after_coding h (.inr (.inr ⟨hp, hm⟩)) hframe.codedFrom hs⟩)
        fun _ => trivial
  obtain rfl : u32 x = w := by cases hr; rfl
  rw [s32, toInt_u32_sample hs]
  exact hu.after_respond _

end

/-- Settles O50: the three commands code the residual, which leaves the place alone, and then advance by the sample. -/
theorem sampleAdvance : Obligations.SampleAdvance := by
  unfold Obligations.SampleAdvance
  intro i s t x h hx hc hi
  have hadv : SampleAdvanced x s t := by
    rcases hi with ⟨a, b, rfl | rfl, rfl⟩ | ⟨a, w, rfl, hr, rfl⟩
    · exact rsd1_advances h hc hx
    · exact enc1_advances h hc hx
    · exact dec1_advances h hc hx hr
  exact ⟨hadv.frame, hadv.within, hadv.nextChannel, hadv.streamEnd⟩

end Sys2Proof.Machine
end

section
/-! SUPPORT. The 1-D codec is lossless (45_codec1d.md R262 to R264): an encoder and a decoder that agree on the coder,
the stream and the history stay so sample by sample, since each records the same sample after the same prediction. -/

namespace Sys2Proof.Machine

/-! ### Runs that were answered -/

/-- A command of a healthy core that is answered `Ok` was legal and ran its pseudocode to the end. -/
theorem execute_answered {legal : Bool} {body : State → Res Response} {s t : State} {v : Word}
    {P : Response → State → Prop} (hx : execute legal body s = .next t) (hs : s.cause = none)
    (hv : t.resp = some (.ok v)) (hb : legal = true → (body s).Leads P) :
    legal = true ∧ ∃ r u, P r u ∧ t = respond r u := by
  rcases execute_cases hx with ⟨c, hc, _⟩ | ⟨_, _, rfl⟩ | ⟨_, hl, r, u, he, rfl⟩ | ⟨_, _, c, u, _, rfl⟩
  · rw [hs] at hc; cases hc
  · cases hv
  · have hlead := hb hl
    rw [he] at hlead
    exact ⟨hl, r, u, hlead, rfl⟩
  · cases hv

theorem Answers.eq_of_next {i : Instr} {s t u : State} {v : Word} (h : Answers i s v t) (hx : exec i s = .next u) :
    u = respond (.ok v) t := by
  rw [Answers, hx] at h
  cases h
  rfl

theorem Raises.not_ok {i : Instr} {s t : State} {c : Cause} {out : List Byte} {v : Word} (h : Raises i s c out)
    (hx : exec i s = .next t) : t.resp ≠ some (.ok v) := by
  obtain ⟨u, hu, hfault⟩ := h
  rw [hx] at hu
  cases hu
  rw [hfault.resp]
  exact fun he => nomatch he

/-- The state after a command of a ready core is ready again if it is not faulted. -/
theorem Ready.of_exec {i : Instr} {s t : State} (h : Ready s) (hx : exec i s = .next t) (hc : t.cause = s.cause) :
    Ready t := by
  obtain ⟨u, hu, hinv⟩ := exec_safe h.inv i
  rw [hx] at hu
  cases hu
  exact ⟨hinv, hc.trans h.healthy⟩

theorem runOk_cons_answered {i : Instr} {is : List Instr} {s u : State} {vs : List Word}
    (h : runOk (i :: is) s = some (vs, u)) :
    ∃ v ws t, exec i s = .next t ∧ t.resp = some (.ok v) ∧ runOk is t = some (ws, u) := by
  simp only [runOk] at h
  split at h
  next t hx =>
    split at h
    next v hv =>
      split at h
      next ws u' hrun =>
        cases h
        exact ⟨v, ws, t, hx, hv, hrun⟩
      next => cases h
    next => cases h
  next => cases h

theorem runOk_append_answered {is js : List Instr} {u : State} : ∀ {s : State} {vs : List Word},
    runOk (is ++ js) s = some (vs, u) → ∃ ws xs t, runOk is s = some (ws, t) ∧ runOk js t = some (xs, u) := by
  induction is with
  | nil => exact fun h => ⟨[], _, _, rfl, h⟩
  | cons i is ih =>
    intro s vs h
    obtain ⟨v, ws, t, hx, hv, hrun⟩ := runOk_cons_answered h
    obtain ⟨ws1, ws2, t', hrun1, hrun2⟩ := ih hrun
    exact ⟨v :: ws1, ws2, t', by simp only [runOk, hx, hv, hrun1], hrun2⟩

/-! ### What the advance leaves alone -/

@[simp] theorem s1advance_cause (x : Int) (s : State) : (s1advance x s).cause = s.cause := by rw [s1advance_frame]

@[simp] theorem s1advance_mode (x : Int) (s : State) : (s1advance x s).mode = s.mode := by rw [s1advance_frame]

@[simp] theorem written_s1advance (x : Int) (s : State) : written (s1advance x s) = written s := by
  rw [s1advance_frame]
  rfl

@[simp] theorem unread_s1advance (x : Int) (s : State) : unread (s1advance x s) = unread s := by
  rw [s1advance_frame]
  rfl

/-! ### An encoder and a decoder at the same place -/

/-- The decoder `d` stands where the encoder `s` does: the same parameter, stream, history and place, and it decodes
while `s` encodes. -/
structure SameStream (s d : State) : Prop where
  coder : SameCoder s d
  nch : s.nch = d.nch
  nsamp : s.nsamp = d.nsamp
  icp : s.nch = 2 → s.flags.getLsbD 1 = d.flags.getLsbD 1
  h1 : s.h1 = d.h1
  h2 : s.h2 = d.h2
  hcnt : s.hcnt = d.hcnt
  ch : s.ch = d.ch
  idx : s.idx = d.idx
  phase : s.phase = .s1enc → d.phase = .s1dec

theorem SameStream.after_respond {s d : State} (h : SameStream s d) (q r : Response) :
    SameStream (respond q s) (respond r d) :=
  ⟨⟨h.coder.m, h.coder.b, h.coder.cutoff⟩, h.nch, h.nsamp, h.icp, h.h1, h.h2, h.hcnt, h.ch, h.idx, h.phase⟩

/-- Coding a residual leaves what the two sides share. -/
theorem SameStream.of_codedFrom {s d u e : State} (h : SameStream s d) (hu : CodedFrom s u) (he : CodedFrom d e) :
    SameStream u e := by
  rw [hu, he]
  exact ⟨⟨h.coder.m, h.coder.b, h.coder.cutoff⟩, h.nch, h.nsamp, h.icp, h.h1, h.h2, h.hcnt, h.ch, h.idx, h.phase⟩

section
variable {s d : State} (h : SameStream s d)
include h

theorem SameStream.pt_eq (k : Nat) (hk : k ≤ 2) : pt k s = pt k d := by
  have hne : k ≠ 3 := by omega
  simp only [pt, h.h1, h.h2, h.hcnt, hne, false_and, if_false]

/-- The flag matters only in the right channel, which a stereo stream alone has (R253). -/
theorem SameStream.needref_eq (hst : s.ch = 1 → s.nch = 2) : needref s = needref d := by
  rw [Bool.eq_iff_iff, needref_iff, needref_iff, ← h.ch]
  exact and_congr_right fun hch => by rw [h.icp (hst hch)]

theorem SameStream.p1sel_eq (hst : s.ch = 1 → s.nch = 2) (ref : Int) : p1sel ref s = p1sel ref d := by
  simp only [p1sel, pic, h.needref_eq hst, h.pt_eq 1 (by decide), h.pt_eq 2 le_rfl]

/-- Both sides advance in the same way by the same sample. -/
theorem SameStream.advance (x : Int) : SameStream (s1advance x s) (s1advance x d) := by
  obtain ⟨⟨hm, hb, hcut⟩, hnch, hnsamp, hicp, hh1, hh2, hhcnt, hch, hidx, hphase⟩ := h
  have hcount : (hpush x s).hcnt = (hpush x d).hcnt := by rw [hpush_hcnt, hpush_hcnt, hhcnt]
  by_cases hlast : s.idx + 1 = s.nsamp
  · have hlast' : d.idx + 1 = d.nsamp := hidx ▸ hnsamp ▸ hlast
    by_cases hleft : s.ch = 0 ∧ s.nch = 2
    · have hleft' : d.ch = 0 ∧ d.nch = 2 := hch ▸ hnch ▸ hleft
      rw [s1advance_channel x hlast hleft.1 hleft.2, s1advance_channel x hlast' hleft'.1 hleft'.2]
      exact ⟨⟨hm, hb, hcut⟩, hnch, hnsamp, hicp, rfl, rfl, rfl, rfl, rfl, hphase⟩
    · have hleft' : ¬ (d.ch = 0 ∧ d.nch = 2) := hch ▸ hnch ▸ hleft
      rw [s1advance_end x hlast hleft, s1advance_end x hlast' hleft']
      exact ⟨⟨hm, hb, hcut⟩, hnch, hnsamp, hicp, rfl, hh1, hcount, rfl, rfl, fun he => nomatch he⟩
  · have hlast' : d.idx + 1 ≠ d.nsamp := hidx ▸ hnsamp ▸ hlast
    have hnext : s.idx + 1 = d.idx + 1 := by rw [hidx]
    rw [s1advance_within x hlast, s1advance_within x hlast']
    exact ⟨⟨hm, hb, hcut⟩, hnch, hnsamp, hicp, rfl, hh1, hcount, hch, hnext, hphase⟩

end

/-! ### One sample -/

section
variable {s t : State} {opa opb : Word}

/-- An answered ENC1 was legal and has appended its codeword. -/
theorem enc1_answered {v : Word} (h : Ready s) (hx : exec (.enc1 opa opb) s = .next t) (hv : t.resp = some (.ok v)) :
    s.mode = .write ∧ s.phase = .s1enc ∧ ∃ r u, Encoded opa opb s u ∧ t = respond r u := by
  obtain ⟨hl, henc⟩ := execute_answered (P := fun _ u => Encoded opa opb s u)
    (show execEnc1 opa opb s = .next t from hx) h.healthy hv fun hl => enc1_body_leads h (writerIn_iff.1 hl).1 opa opb
  obtain ⟨hm, hp⟩ := writerIn_iff.1 hl
  exact ⟨hm, hp, henc⟩

theorem Encoded.cause (h : Encoded opa opb s t) : t.cause = s.cause := by
  obtain ⟨u, hw, rfl⟩ := h.coded
  rw [s1advance_cause, hw.frame]

theorem Encoded.mode (h : Encoded opa opb s t) : t.mode = s.mode := by
  obtain ⟨u, hw, rfl⟩ := h.coded
  rw [s1advance_mode, hw.frame]

theorem Encoded.written (h : Encoded opa opb s t) :
    written t = written s ++ cwZigzag s.m.toNat (s32 opa - p1sel (s32 opb) s) := by
  obtain ⟨u, hw, rfl⟩ := h.coded
  rw [written_s1advance, hw.bits]

/-- Where the decoder stands where the encoder did and finds the codeword that the encoder wrote, it predicts the same,
so it answers the sample, and stands where the encoder does now. -/
theorem dec1_follows {d : State} {rest : Bits} (h : Ready s) (hm : s.mode = .write)
    (hp : s.phase = .s1enc) (henc : Encoded opa opb s t) (hd : Ready d) (hdm : d.mode = .read)
    (hsame : SameStream s d)
    (hu : unread d = cwZigzag s.m.toNat (s32 opa - p1sel (s32 opb) s) ++ rest) :
    ∃ e, Answers (.dec1 opb) d opa e ∧ Ready e ∧ e.mode = .read ∧ SameStream t e ∧ unread e = rest := by
  have hfit : Phase1Fits s := .inr (.inl ⟨hp, hm⟩)
  obtain ⟨_, _, hst⟩ := h.running.place1 hfit.inPhase.1
  obtain ⟨hlo, hhi⟩ := residual1_bounds henc.sample henc.reference
  have hdp : d.phase = .s1dec := hsame.phase hp
  have href : needref d = true → isSample (s32 opb) = true := hsame.needref_eq hst ▸ henc.reference
  have hx : s32 opa = p1sel (s32 opb) d + unzz (zz (s32 opa - p1sel (s32 opb) s)) := by
    rw [unzz_zz, ← hsame.p1sel_eq hst, add_sub_cancel]
  rw [cwZigzag, hsame.coder.m] at hu
  obtain ⟨e, htook, hue, hans⟩ :=
    answers_dec1 hd hdm hdp href hu hx (zz_lt (by omega) (by omega)) henc.sample
  rw [u32_s32] at hans
  obtain ⟨u, hw, rfl⟩ := henc.coded
  have hwrite : WriteFrame s u := hw.frame
  have hem : e.mode = .read := htook.readFrame.mode.trans hdm
  have hefit : Phase1Fits e := .inr (.inr ⟨by rw [htook.frame]; exact hdp, hem⟩)
  exact ⟨s1advance (s32 opa) e, hans, (hd.took hdm htook).after_s1advance hefit _, (s1advance_mode _ _).trans hem,
    (hsame.of_codedFrom hwrite.codedFrom htook.readFrame.codedFrom).advance _, (unread_s1advance _ _).trans hue⟩

end

/-! ### A run of samples -/

/-- A decoder that stands where the encoder `s` does and finds the bits `w` answers the samples of `ops`, given their
references. -/
def GivesBack (ops : List (Word × Word)) (s : State) (w : Bits) : Prop :=
  ∀ d rest, Ready d → d.mode = .read → SameStream s d → unread d = w ++ rest →
    ∃ e, runOk (ops.map fun p => .dec1 p.2) d = some (ops.map Prod.fst, e) ∧ Ready e ∧ e.mode = .read

/-- What a run of ENC1 writes gives its samples back. -/
theorem runOk_enc1_gives_back {ops : List (Word × Word)} : ∀ {s t : State} {vs : List Word}, Ready s →
    s.mode = .write → runOk (ops.map fun p => .enc1 p.1 p.2) s = some (vs, t) →
    Ready t ∧ t.mode = .write ∧ ∃ w, written t = written s ++ w ∧ GivesBack ops s w := by
  induction ops with
  | nil =>
    intro s t vs h hm hrun
    cases hrun
    exact ⟨h, hm, [], (List.append_nil _).symm, fun d _ hd hdm _ _ => ⟨d, rfl, hd, hdm⟩⟩
  | cons p ops ih =>
    intro s t vs h hm hrun
    obtain ⟨v, ws, s', hx, hv, hrun⟩ := runOk_cons_answered hrun
    obtain ⟨_, hp, r, u, henc, rfl⟩ := enc1_answered h hx hv
    obtain ⟨ht, htm, w, hw, hback⟩ := ih (h.of_exec hx henc.cause) (henc.mode.trans hm) hrun
    have hwu : written t = written u ++ w := hw
    refine ⟨ht, htm, cwZigzag s.m.toNat (s32 p.1 - p1sel (s32 p.2) s) ++ w, ?_, fun d rest hd hdm hsame hu => ?_⟩
    · rw [hwu, henc.written, List.append_assoc]
    · rw [List.append_assoc] at hu
      obtain ⟨e, hans, he, hem, hsame', hue⟩ := dec1_follows h hm hp henc hd hdm hsame hu
      obtain ⟨f, hrunf, hf, hfm⟩ :=
        hback (respond (.ok p.1) e) rest (he.after_respond _) hem (hsame'.after_respond _ _) hue
      exact ⟨f, runOk_cons hans hrunf, hf, hfm⟩

/-! ### A whole stream -/

/-- An answered WRHDR1 has appended the header of a valid configuration. -/
theorem wrhdr1_answered {s t : State} {v : Word} (h : Ready s) (hx : exec .wrhdr1 s = .next t)
    (hv : t.resp = some (.ok v)) : channelsOk s.nch.toNat = true ∧
      ∃ r u, Wrote (bitsWritten .wrhdr1 s) s u ∧ t = respond r (startPhase1 .s1enc u) := by
  obtain ⟨_, r, _, ⟨hn, u, hw, rfl⟩, rfl⟩ := execute_answered
    (P := fun _ t' => channelsOk s.nch.toNat = true ∧ ∃ u, Wrote (bitsWritten .wrhdr1 s) s u ∧
      t' = startPhase1 .s1enc u)
    (show execWrhdr1 s = .next t from hx) h.healthy hv fun hl => by
      refine .ite (fun hn => ?_) fun _ => trivial
      rw [putHeader1_eq]
      exact (putAll_wrote (h.running.writer (writerIn_iff.1 hl).1) _).bind fun _ u hw => ⟨hn, u, hw, rfl⟩
  exact ⟨hn, r, u, hw, rfl⟩

/-- An answered OPENW has opened the channel. -/
theorem openw_answered {s t : State} {v : Word} (h : Ready s) (hm : s.mode = .closed) (hx : exec .openw s = .next t)
    (hv : t.resp = some (.ok v)) : t = respond (.ok 0) (openWriter s) := by
  cases ho : s.env.openOk with
  | true => exact (answers_openw h.healthy hm ho).eq_of_next hx
  | false => exact absurd hv ((raises_openw h.healthy hm ho).not_ok hx)

/-- An answered CLOSE of a writer leaves what was written, and the zeros that fill the last byte. -/
theorem close_answered {s t : State} {v : Word} (h : Ready s) (hm : s.mode = .write) (hx : exec .close s = .next t)
    (hv : t.resp = some (.ok v)) : ∃ k, streamBits t.out = written s ++ List.replicate k false := by
  by_cases hroom : s.nbits = 0 ∨ sinkRoom s = true
  · rw [(answers_close h.healthy (by simp [hm]) (.inr hroom)).eq_of_next hx]
    exact ⟨_, streamBits_closedOut hm (h.running.writer hm)⟩
  · obtain ⟨hn, hfull⟩ := not_or.1 hroom
    exact absurd hv ((raises_close h.healthy hm hn (eq_false_of_ne_true hfull)).not_ok hx)

/-- What an encoder leaves in the sink is the header, bits that give the samples back, and zeros. -/
theorem encoder_writes_stream {s t : State} {ops : List (Word × Word)} {vs : List Word} (h : Ready s)
    (hm : s.mode = .closed)
    (hrun : runOk (.openw :: .wrhdr1 :: (ops.map (fun p => .enc1 p.1 p.2) ++ [.close])) s = some (vs, t)) :
    channelsOk s.nch.toNat = true ∧ ∃ w k,
      streamBits t.out = bitsWritten .wrhdr1 s ++ (w ++ List.replicate k false) ∧
        GivesBack ops (startPhase1 .s1enc s) w := by
  obtain ⟨_, _, s1, hx1, hv1, hrun⟩ := runOk_cons_answered hrun
  obtain rfl := openw_answered h hm hx1 hv1
  have h1 : Ready (respond (.ok 0) (openWriter s)) := (h.after_openWriter hm).after_respond _
  obtain ⟨_, _, s2, hx2, hv2, hrun⟩ := runOk_cons_answered hrun
  obtain ⟨hn, r, u, hw, rfl⟩ := wrhdr1_answered h1 hx2 hv2
  have hwrite := hw.frame
  have h2 : Ready (respond r (startPhase1 .s1enc u)) := h1.of_exec hx2 (show u.cause = _ by rw [hwrite])
  have hm2 : (respond r (startPhase1 .s1enc u)).mode = .write := show u.mode = _ by rw [hwrite]; rfl
  obtain ⟨_, _, s3, hrun3, hrun⟩ := runOk_append_answered hrun
  obtain ⟨h3, hm3, w, hw3, hback⟩ := runOk_enc1_gives_back h2 hm2 hrun3
  obtain ⟨_, _, s4, hx4, hv4, hrun⟩ := runOk_cons_answered hrun
  cases hrun
  obtain ⟨k, hout⟩ := close_answered h3 hm3 hx4 hv4
  have hwu : written s3 = written u ++ w := hw3
  have hhdr : written u = bitsWritten .wrhdr1 s := by
    rw [hw.bits]
    exact congrArg (· ++ bitsWritten .wrhdr1 s) (written_openWriter s)
  refine ⟨hn, w, k, by rw [hout, hwu, hhdr, List.append_assoc], fun d rest hd hdm hsame => ?_⟩
  refine hback d rest hd hdm ?_
  rw [hwrite]
  exact ⟨⟨hsame.coder.m, hsame.coder.b, hsame.coder.cutoff⟩, hsame.nch, hsame.nsamp, hsame.icp, hsame.h1, hsame.h2,
    hsame.hcnt, hsame.ch, hsame.idx, hsame.phase⟩

/-- `B` and `CUTOFF` are functions of `M` (10_state.md R29). -/
theorem sameCoder_of_m {s d : State} (hs : CoderOk s) (hd : CoderOk d) (hm : s.m = d.m) : SameCoder s d where
  m := hm
  b := BitVec.eq_of_toNat_eq (by rw [hs.width, hd.width, hm])
  cutoff := BitVec.eq_of_toNat_eq (by rw [hs.cutoff, hd.cutoff, hm])

theorem getLsbD_one_headerFlags (ad ic : Bool) : (BitVec.ofNat 2 (bitVal ad + 2 * bitVal ic)).getLsbD 1 = ic := by
  cases ad <;> cases ic <;> rfl

/-- RDHDR1 on the header of an encoder's configuration puts the decoder where the encoder starts. -/
theorem rdhdr1_follows {s d : State} {rest : Bits} (h : Ready s) (hn : channelsOk s.nch.toNat = true) (hd : Ready d)
    (hdm : d.mode = .read) (hdp : d.phase = .idle) (hu : unread d = bitsWritten .wrhdr1 s ++ rest) :
    ∃ e, Answers .rdhdr1 d 0 e ∧ Ready (respond (.ok 0) e) ∧ e.mode = .read ∧ unread e = rest ∧
      SameStream (startPhase1 .s1enc s) (respond (.ok 0) e) := by
  have hpos := h.running.coder.positive
  obtain ⟨t, htook, hut, hans⟩ := answers_rdhdr1 hd hdm hdp s.srate.isLt s.bps.isLt s.nsamp.isLt s.m.isLt
    ((channelsOk_iff _).1 hn) (by omega) hu
  have he : Ready (respond (.ok 0) _) := hd.of_exec hans (show t.cause = _ by rw [htook.frame])
  refine ⟨_, hans, he, htook.readFrame.mode.trans hdm, hut, ?_⟩
  have hnch : s.nch = BitVec.ofNat 16 s.nch.toNat := by simp
  have hnsamp : s.nsamp = BitVec.ofNat 32 s.nsamp.toNat := by simp
  have hm : s.m = BitVec.ofNat 16 s.m.toNat := by simp
  refine ⟨sameCoder_of_m (h.running.coder.of_eq rfl rfl rfl) he.running.coder hm, hnch, hnsamp, fun hst => ?_, rfl, rfl,
    rfl, rfl, rfl, fun hphase => ?_⟩
  · have hst : s.nch.toNat = 2 := congrArg BitVec.toNat hst
    show _ = (BitVec.ofNat 2 (bitVal _ + 2 * if s.nch.toNat = 2 then bitVal _ else 0)).getLsbD 1
    rw [if_pos hst, getLsbD_one_headerFlags]
    rfl
  · have hne : s.nsamp ≠ 0 := fun h0 => by
      rw [startPhase1_phase, if_pos h0] at hphase
      cases hphase
    show (if BitVec.ofNat 32 s.nsamp.toNat = 0 then Phase.idle else Phase.s1dec) = .s1dec
    rw [← hnsamp, if_neg hne]

/-- A decoder that is given an encoder's stream answers the samples. -/
theorem decoder_gives_back {s d : State} {ops : List (Word × Word)} {w rest : Bits} (h : Ready s)
    (hn : channelsOk s.nch.toNat = true) (hback : GivesBack ops (startPhase1 .s1enc s) w) (hd : Ready d)
    (hdm : d.mode = .closed) (hdp : d.phase = .idle) (ho : d.env.openOk = true)
    (hdata : streamBits d.env.data = bitsWritten .wrhdr1 s ++ (w ++ rest)) :
    ∃ u, runOk (.openr :: .rdhdr1 :: (ops.map (fun p => .dec1 p.2) ++ [.close])) d =
      some (0 :: 0 :: (ops.map Prod.fst ++ [0]), u) := by
  have h1 : Ready (respond (.ok 0) (openReader d)) := (hd.after_openReader hdm).after_respond _
  have hu : unread (respond (.ok 0) (openReader d)) = bitsWritten .wrhdr1 s ++ (w ++ rest) :=
    (unread_openReader d).trans hdata
  obtain ⟨e, hans, he, hem, hue, hsame⟩ := rdhdr1_follows h hn h1 rfl hdp hu
  obtain ⟨f, hrun, hf, hfm⟩ := hback _ rest he hem hsame hue
  have hclose := answers_close hf.healthy (by simp [hfm]) (.inl (by simp [hfm]))
  exact ⟨_, runOk_cons (answers_openr hd.healthy hdm ho)
    (runOk_cons hans (runOk_append (runOk_cons hclose rfl) hrun))⟩

/-- The samples of a stream in the order of their commands, each with its reference: the left channel's with none, the
right channel's with the left sample (R262, R263). -/
def streamOperands (left right : List Word) : List (Word × Word) := left.map (fun x => (x, 0)) ++ right.zip left

theorem map_streamOperands (f : Word → Word → Instr) (left right : List Word) :
    (streamOperands left right).map (fun p => f p.1 p.2) =
      left.map (fun x => f x 0) ++ List.zipWith f right left := by
  rw [streamOperands, List.map_append, List.map_map, List.zip, List.map_zipWith]
  rfl

theorem map_fst_streamOperands {left right : List Word} (h : right.length ≤ left.length) :
    (streamOperands left right).map Prod.fst = left ++ right := by
  rw [streamOperands, List.map_append, List.map_map, List.map_fst_zip h]
  exact congrArg (· ++ right) (List.map_id left)

/-- Settles O51: the encoder's stream is a header, bits that give the samples back, and padding, and the decoder reads
the header and follows. -/
theorem lossless1d : Obligations.Lossless1d := by
  unfold Obligations.Lossless1d
  intro s t d left right vs h hd hm hdm hdp ho hdata _ hright hrun
  have hle : right.length ≤ left.length := by rw [hright]; split <;> omega
  have hencode := map_streamOperands (fun x ref => .enc1 x ref) left right
  have hdecode := map_streamOperands (fun _ ref => .dec1 ref) left right
  have hsamples := map_fst_streamOperands hle
  simp only [List.cons_append, ← hencode] at hrun
  obtain ⟨hn, w, k, hout, hback⟩ := encoder_writes_stream h hm hrun
  rw [← hdata] at hout
  obtain ⟨u, hu⟩ := decoder_gives_back h hn hback hd hdm hdp ho hout
  refine ⟨u, ?_⟩
  rw [hdecode, hsamples] at hu
  simpa only [List.cons_append, List.nil_append, List.append_assoc] using hu

end Sys2Proof.Machine
end

section
/-! SUPPORT. The 2-D codec's commands (46_codec2d.md R287 to R291): the range of a residual, the header that is written
and read, and each pixel command as coding the residual and then the advance. -/

namespace Sys2Proof.Machine

/-! ### The residual of a pixel -/

/-- The five modes leave the range of a byte, but not that of the residual's 11 bits (44_predictors.md R227). -/
theorem predicted2_range (s : State) : -255 ≤ predicted2 s ∧ predicted2 s ≤ 510 := spatial_range _ _ _ _ _ _

theorem residual2_bounds {opa : Word} (ha : opa.toNat ≤ 255) (s : State) :
    -510 ≤ opa.toNat - predicted2 s ∧ opa.toNat - predicted2 s ≤ 510 := by
  have hp := predicted2_range s
  omega

theorem toInt_u32_residual2 {opa : Word} (ha : opa.toNat ≤ 255) (s : State) :
    (u32 (opa.toNat - predicted2 s)).toInt = opa.toNat - predicted2 s := by
  obtain ⟨hlo, hhi⟩ := residual2_bounds ha s
  exact toInt_u32 (by omega) (by omega)

/-! ### RSD2 -/

theorem exec_rsd2_eq {s : State} {opa : Word} (h : Ready s) (hp : s.phase = .s2anl) (ha : opa.toNat ≤ 255) :
    exec (.rsd2 opa) s = finish ((estacc (opa.toNat - predicted2 s) s).bind fun _ t =>
      (s2advance (opa.setWidth 8) t).bind fun _ u => answer (u32 (opa.toNat - predicted2 s)) u) := by
  have hfit : Phase2Fits s := .inl hp
  have hr : residual2 opa s = .ok (opa.toNat - predicted2 s) s :=
    residual2_ok ((isPixel_iff opa).2 ha) (h.running.col_lt_lineDepth hfit.inPhase.2)
  show execRsd2 opa s = _
  rw [execRsd2, execute_legal h.healthy (decide_eq_true hp), hr, Res.bind_ok]

/-- Settles O52: `estacc` of the residual tests the count before anything changes, and the rest is the advance. -/
theorem rsd2Answers : Obligations.Rsd2Answers := by
  unfold Obligations.Rsd2Answers
  rintro s opa e h hp ha rfl
  have hx := exec_rsd2_eq h hp ha
  refine ⟨fun hn => ?_, fun hn => raises_of_takeFault (by decide) ?_⟩
  · obtain ⟨hlo, hhi⟩ := residual2_bounds ha s
    obtain ⟨hsum, hbound⟩ := sum_add h.running.window
      (show ((opa.toNat : Int) - predicted2 s).natAbs ≤ 2147483648 by omega) hn
    have hu := h.of_window _ _ (hsum ▸ hbound)
    obtain ⟨t, ht, _⟩ := hu.after_s2advance (.inl hp) (opa.setWidth 8)
    refine ⟨_, _, _, t, toInt_u32_residual2 ha s, ht, ?_, hsum, cnt_succ hn⟩
    rw [Answers, hx, estacc_ok _ hn, Res.bind_ok, ht, Res.bind_ok, finish_answer]
  · rw [hx, estacc_full _ hn, Res.bind_raise, finish_raise]

/-! ### WRHDR2 and ENC2 -/

/-- Settles O53: WRHDR2 writes its header with `putAll` and then starts the phase. -/
theorem wrhdr2WritesHeader : Obligations.Wrhdr2WritesHeader := by
  unfold Obligations.Wrhdr2WritesHeader
  rintro s hdr h hm hp hrows hcols hdepth hpm hhdr
  obtain rfl : hdr = bitsWritten .wrhdr2 s := hhdr
  have hg : geometryOk s = true := (geometryOk_registers_iff s).2 ⟨hrows, hcols, hdepth, hpm⟩
  refine ⟨header2_length _ _ _ _, fun hf => ?_⟩
  obtain ⟨t, ht, hw⟩ := putAll_ok (h.running.writer hm) hf
  refine ⟨t, [], hw, fun _ => rfl, ?_⟩
  rw [Answers, exec_wrhdr2_eq h.healthy (decide_eq_true ⟨hm, hp⟩) hg, ht, Res.bind_ok, finish_answer]
  rfl

/-- Settles O54: ENC2 writes its codeword with `putAll` and then advances. -/
theorem enc2WritesResidual : Obligations.Enc2WritesResidual := by
  unfold Obligations.Enc2WritesResidual
  rintro s opa e h hm hp ha rfl hf
  obtain ⟨t, ht, hw⟩ := putAll_ok (h.running.writer hm) hf
  have hfit : Phase2Fits t := .inr (.inl (by rw [hw.frame]; exact ⟨hp, hm⟩))
  obtain ⟨u, hu, _⟩ := (h.wrote hm hw).after_s2advance hfit (opa.setWidth 8)
  have hcw : putAll (bitsWritten (.enc2 opa) s) s = .ok () t := ht
  refine ⟨_, t, u, toInt_u32_residual2 ha s, hw, hu, ?_⟩
  rw [Answers, exec_enc2_eq h opa (decide_eq_true ⟨hm, hp⟩) ((isPixel_iff opa).2 ha), hcw, Res.bind_ok, hu, Res.bind_ok,
    finish_answer]

/-! ### RDHDR2 -/

theorem exec_rdhdr2_eq {s : State} (hc : s.cause = none) (hm : s.mode = .read) (hp : s.phase = .idle) :
    exec .rdhdr2 s =
      finish ((getHeader2 s).bind fun h t => answer 0 (startPhase2 .s2dec (loadHeader2 h t))) := by
  show execRdhdr2 s = _
  rw [execRdhdr2, execute_legal hc (readerIn_iff.2 ⟨hm, hp⟩)]

section
variable {s : State} {rows cols m pm : Nat} {rest : Bits} (h : Ready s) (hm : s.mode = .read) (hp : s.phase = .idle)
include h hm hp

/-- What reading the header raises is raised by RDHDR2. -/
theorem raises_rdhdr2 {c : Cause} {t : State} (he : getHeader2 s = .raise c t) (hf : ReadFrame s t) :
    Raises .rdhdr2 s c s.out :=
  raises_of_readFrame (hf.mode.trans hm) hf (by rw [exec_rdhdr2_eq h.healthy hm hp, he, Res.bind_raise])

section
variable (hrows : rows < 2 ^ 32) (hcols : cols < 2 ^ 32) (hlt : m < 2 ^ 16) (hpm : pm < 2 ^ 8)
  (hu : unread s = header2 rows cols m pm ++ rest)
include hrows hcols hlt hpm hu

theorem answers_rdhdr2 (hne : m ≠ 0) (hg : geomOk rows cols pm s.lineDepth = true) :
    ∃ t, Took (header2 rows cols m pm) s t ∧ unread t = rest ∧
      Answers .rdhdr2 s 0 (startPhase2 .s2dec (loadHeader2 ⟨rows, cols, m, pm⟩ t)) := by
  obtain ⟨t, he, htook, hut⟩ := getHeader2_ok (h.running.reader hm) hrows hcols hlt hpm hu
  refine ⟨t, htook, hut, ?_⟩
  rw [Answers, exec_rdhdr2_eq h.healthy hm hp, he, if_pos ⟨hne, hg⟩, Res.bind_ok, finish_answer]

/-- The checks come after the whole header has been read (46_codec2d.md R290). -/
theorem raises_rdhdr2_of_bad_field (hbad : ¬ (m ≠ 0 ∧ geomOk rows cols pm s.lineDepth = true)) :
    Raises .rdhdr2 s .invalidArgument s.out := by
  obtain ⟨t, he, htook, _⟩ := getHeader2_ok (h.running.reader hm) hrows hcols hlt hpm hu
  exact raises_rdhdr2 h hm hp (he.trans (if_neg hbad)) htook.readFrame

end

end

/-- Settles O55: every clause is what `getHeader2` makes of the bits it finds. -/
theorem rdhdr2LoadsHeader : Obligations.Rdhdr2LoadsHeader := by
  unfold Obligations.Rdhdr2LoadsHeader
  intro s rows cols m pm rest h hm hp hrows hcols hlt hpm
  refine ⟨fun hshort => ?_, fun hu => ⟨fun hne hr hc hd hmode => ?_, fun hbad => ?_⟩⟩
  · obtain ⟨t, he, hf⟩ := getHeader2_short (h.running.reader hm) hshort
    exact raises_rdhdr2 h hm hp he hf
  · have hg := (geomOk_iff _ _ _ _).2 ⟨hr, hc, hd, hmode⟩
    obtain ⟨t, htook, hut, hans⟩ := answers_rdhdr2 h hm hp hrows hcols hlt hpm hu hne hg
    exact ⟨t, [], htook, hut, fun _ => rfl, hans⟩
  · refine raises_rdhdr2_of_bad_field h hm hp hrows hcols hlt hpm hu fun ⟨hne, hg⟩ => ?_
    obtain ⟨hr, hc, hd, hmode⟩ := (geomOk_iff _ _ _ _).1 hg
    omega

/-! ### DEC2 -/

theorem clamp_bounds (n : Int) : 0 ≤ clamp n 0 255 ∧ clamp n 0 255 ≤ 255 := by
  unfold clamp
  omega

section
variable {s : State} {v : Nat} {rest : Bits} {x : Int} (h : Ready s) (hm : s.mode = .read) (hp : s.phase = .s2dec)
  (hu : unread s = cw s.m.toNat v ++ rest)
include h hm hp hu

theorem answers_dec2 (hx : x = clamp (predicted2 s + unzz v) 0 255) (hv : v ≤ Config.valueMax) :
    ∃ t u, Took (cw s.m.toNat v) s t ∧ unread t = rest ∧ s2advance ((u32 x).setWidth 8) t = .ok () u ∧
      Answers .dec2 s (u32 x) u := by
  obtain ⟨t, he, htook, hut⟩ := (decodes_dec2 h (decide_eq_true ⟨hm, hp⟩)).goes_on hu hv
  have hfit : Phase2Fits t := .inr (.inr (by rw [htook.frame]; exact ⟨hp, hm⟩))
  obtain ⟨u, hadv, _⟩ := (h.took hm htook).after_s2advance hfit ((u32 x).setWidth 8)
  refine ⟨t, u, htook, hut, hadv, ?_⟩
  rw [← hx, ← setWidth_u32, hadv, Res.bind_ok, finish_answer] at he
  exact he

theorem raises_dec2_of_overflow (hbad : Config.valueMax < v) : Raises .dec2 s .rangeOverflow s.out :=
  (decodes_dec2 h (decide_eq_true ⟨hm, hp⟩)).overflow hu fun hle => absurd hbad (Nat.not_lt.2 hle)

end

/-- Settles O56: DEC2 comes to `decu` at the codeword, and then answers and records the same clamped sum. -/
theorem dec2Reconstructs : Obligations.Dec2Reconstructs := by
  unfold Obligations.Dec2Reconstructs
  intro s v rest x h hm hp hu hx
  refine ⟨fun hv => ?_, raises_dec2_of_overflow h hm hp hu⟩
  obtain ⟨t, u, hdec⟩ := answers_dec2 h hm hp hu hx hv
  obtain ⟨hlo, hhi⟩ := clamp_bounds (predicted2 s + unzz v)
  have hx' : x = clamp (predicted2 s + unzz v) 0 255 := hx
  exact ⟨u32 x, t, u, toInt_u32 (by omega) (by omega), hdec⟩

end Sys2Proof.Machine
end

section
/-! SUPPORT. The 2-D codec is lossless (46_codec2d.md R292 to R294): an encoder and a decoder that agree on the coder,
the plane and the neighbours stay so pixel by pixel, since each records the same pixel after the same prediction. -/

namespace Sys2Proof.Machine

/-! ### What the advance leaves alone -/

/-- The advance moves the neighbours and the place, and may end the phase; nothing else. -/
def MovedFrom (s t : State) : Prop :=
  t = { s with line := t.line, areg := t.areg, creg := t.creg, col := t.col, row := t.row, phase := t.phase }

theorem MovedFrom.trans {s t u : State} (h : MovedFrom s t) (g : MovedFrom t u) : MovedFrom s u := by
  unfold MovedFrom at *
  rw [g, h]

theorem nextPosition_moves (s : State) : MovedFrom s (nextPosition s) := by
  by_cases hend : s.col + 1 = s.cols
  · rw [nextPosition_end hend]
    rfl
  · rw [nextPosition_within hend]
    rfl

section
variable {s : State} (x : Byte) (hd : s.col.toNat < s.lineDepth)
include hd

theorem p2push_moves : (p2push x s).Leads fun _ t => MovedFrom s t := by
  rw [p2push_eq x hd]
  have hrecord : MovedFrom s { s with
      line := s.line.write s.col.toNat x, creg := s.line.read s.col.toNat, areg := x } := rfl
  exact hrecord.trans (nextPosition_moves _)

theorem s2advance_moves : (s2advance x s).Leads fun _ t => MovedFrom s t :=
  (p2push_moves x hd).bind fun last _ h => by
    cases last with
    | false => exact h
    | true => exact h.trans rfl

end

section
variable {s t : State} (h : MovedFrom s t)
include h

theorem MovedFrom.written : written t = written s := by rw [h]; rfl

theorem MovedFrom.unread : unread t = unread s := by rw [h]; rfl

end

theorem Res.Leads.and {α : Type} {P Q : α → State → Prop} {r : Res α} (hp : r.Leads P) (hq : r.Leads Q) :
    r.Leads fun a t => P a t ∧ Q a t := by
  cases r with
  | ok a t => exact ⟨hp, hq⟩
  | raise c t => trivial
  | stop f => exact hp

theorem PixelAdvanced.cause {x : Byte} {s t : State} (h : PixelAdvanced x s t) : t.cause = s.cause := by rw [h.frame]

theorem PixelAdvanced.mode {x : Byte} {s t : State} (h : PixelAdvanced x s t) : t.mode = s.mode := by rw [h.frame]

/-! ### An encoder and a decoder at the same place -/

/-- The decoder `d` stands where the encoder `s` does: the same parameter, plane, neighbours and place, and it decodes
while `s` encodes. -/
structure SamePlane (s d : State) : Prop where
  m : s.m = d.m
  rows : s.rows = d.rows
  cols : s.cols = d.cols
  pmode : s.pmode = d.pmode
  areg : s.areg = d.areg
  creg : s.creg = d.creg
  line : ∀ j, s.line.read j = d.line.read j
  row : s.row = d.row
  col : s.col = d.col
  phase : s.phase = .s2enc → d.phase = .s2dec

section
variable {s d : State} (h : SamePlane s d)
include h

theorem SamePlane.after_respond (q r : Response) : SamePlane (respond q s) (respond r d) :=
  ⟨h.m, h.rows, h.cols, h.pmode, h.areg, h.creg, h.line, h.row, h.col, h.phase⟩

theorem SamePlane.predicted2_eq : predicted2 s = predicted2 d := by
  simp only [predicted2, h.pmode, h.row, h.col, h.areg, h.creg, h.line]

/-- What the advance does to the place and the neighbours depends on what the two sides share alone. -/
theorem SamePlane.advance {x : Byte} {t e : State} (ht : PixelAdvanced x s t) (he : PixelAdvanced x d e) :
    SamePlane t e := by
  have hm : t.m = e.m := by rw [ht.frame, he.frame]; exact h.m
  have hrows : t.rows = e.rows := by rw [ht.frame, he.frame]; exact h.rows
  have hcols : t.cols = e.cols := by rw [ht.frame, he.frame]; exact h.cols
  have hpmode : t.pmode = e.pmode := by rw [ht.frame, he.frame]; exact h.pmode
  have hline (j : Nat) : t.line.read j = e.line.read j := by rw [ht.line, he.line, h.line, h.col]
  by_cases hend : s.col.toNat + 1 = s.cols.toNat
  · have hend' : d.col.toNat + 1 = d.cols.toNat := h.col ▸ h.cols ▸ hend
    obtain ⟨hcol, hareg, hcreg⟩ := ht.rowEnd hend
    obtain ⟨hcol', hareg', hcreg'⟩ := he.rowEnd hend'
    have hplace : t.row = e.row ∧ (t.phase = .s2enc → e.phase = .s2dec) := by
      by_cases hlast : s.row.toNat + 1 = s.rows.toNat
      · have hlast' : d.row.toNat + 1 = d.rows.toNat := h.row ▸ h.rows ▸ hlast
        obtain ⟨hrow, hphase⟩ := ht.planeEnd hend hlast
        obtain ⟨hrow', _⟩ := he.planeEnd hend' hlast'
        exact ⟨hrow.trans hrow'.symm, fun hp => nomatch hphase.symm.trans hp⟩
      · have hlast' : d.row.toNat + 1 ≠ d.rows.toNat := h.row ▸ h.rows ▸ hlast
        obtain ⟨hrow, hphase⟩ := ht.nextRow hend hlast
        obtain ⟨hrow', hphase'⟩ := he.nextRow hend' hlast'
        exact ⟨BitVec.eq_of_toNat_eq (by rw [hrow, hrow', h.row]), fun hp => hphase'.trans (h.phase (hphase ▸ hp))⟩
    exact ⟨hm, hrows, hcols, hpmode, hareg.trans hareg'.symm, hcreg.trans hcreg'.symm, hline, hplace.1,
      hcol.trans hcol'.symm, hplace.2⟩
  · have hend' : d.col.toNat + 1 ≠ d.cols.toNat := h.col ▸ h.cols ▸ hend
    obtain ⟨hcol, hrow, hareg, hcreg, hphase⟩ := ht.within hend
    obtain ⟨hcol', hrow', hareg', hcreg', hphase'⟩ := he.within hend'
    exact ⟨hm, hrows, hcols, hpmode, hareg.trans hareg'.symm, by rw [hcreg, hcreg', h.line, h.col], hline,
      by rw [hrow, hrow', h.row], BitVec.eq_of_toNat_eq (by rw [hcol, hcol', h.col]),
      fun hp => hphase'.trans (h.phase (hphase ▸ hp))⟩

end

/-! ### One pixel -/

/-- From `s` ENC2 came to `t`: its operand was a pixel, and it wrote the residual's codeword and recorded the pixel
(R289). -/
structure EncodedPixel (opa : Word) (s t : State) : Prop where
  pixel : opa.toNat ≤ 255
  written : written t = written s ++ cwZigzag s.m.toNat (opa.toNat - predicted2 s)
  advanced : PixelAdvanced (opa.setWidth 8) s t

/-- The pixel check of RSD2 and ENC2 has passed where the residual goes on. -/
theorem residual2_checks {s : State} (opa : Word) (hd : s.col.toNat < s.lineDepth) :
    (residual2 opa s).Leads fun e t => t = s ∧ opa.toNat ≤ 255 ∧ e = opa.toNat - predicted2 s := by
  by_cases ha : isPixel opa = true
  · rw [residual2_ok ha hd]
    exact ⟨rfl, (isPixel_iff opa).1 ha, rfl⟩
  · rw [residual2, if_neg ha]
    trivial

theorem enc2_body_leads {s : State} (h : Ready s) (hm : s.mode = .write) (hp : s.phase = .s2enc) (opa : Word) :
    ((residual2 opa s).bind fun e s1 => (encu (zz e) s1).bind fun _ s2 =>
      (s2advance (opa.setWidth 8) s2).bind fun _ s3 => answer (u32 e) s3).Leads fun _ t => EncodedPixel opa s t := by
  have hfit : Phase2Fits s := .inr (.inl ⟨hp, hm⟩)
  have hp2 := hfit.inPhase.2
  refine (residual2_checks opa (h.running.col_lt_lineDepth hp2)).bind ?_
  rintro e s1 ⟨rfl, ha, rfl⟩
  rw [encu_eq_putAll h.running.coder]
  refine (putAll_wrote (h.running.writer hm) _).bind fun _ u hw => ?_
  have hu : Ready u := h.wrote hm hw
  have hframe : WriteFrame s1 u := hw.frame
  have hmoves := s2advance_moves (opa.setWidth 8) (hu.running.col_lt_lineDepth (by rw [hframe]; exact hp2))
  have hadvances := s2advance_after_coding hu hframe.codedFrom hp2 (opa.setWidth 8)
  exact (hmoves.and hadvances).bind fun _ _ ⟨hmoved, hadv⟩ => ⟨ha, hmoved.written.trans hw.bits, hadv⟩

/-- An answered ENC2 was legal and has appended its codeword. -/
theorem enc2_answered {s t : State} {opa v : Word} (h : Ready s) (hx : exec (.enc2 opa) s = .next t)
    (hv : t.resp = some (.ok v)) :
    s.mode = .write ∧ s.phase = .s2enc ∧ ∃ r u, EncodedPixel opa s u ∧ t = respond r u := by
  obtain ⟨hl, henc⟩ := execute_answered (P := fun _ u => EncodedPixel opa s u)
    (show execEnc2 opa s = .next t from hx) h.healthy hv fun hl =>
      have ⟨hm, hp⟩ := writerIn_iff.1 hl
      enc2_body_leads h hm hp opa
  obtain ⟨hm, hp⟩ := writerIn_iff.1 hl
  exact ⟨hm, hp, henc⟩

/-- A pixel needs no clamping and is the word that DEC2 answers. -/
theorem u32_clamp_pixel {opa : Word} (ha : opa.toNat ≤ 255) : u32 (clamp opa.toNat 0 255) = opa := by
  have hc : clamp opa.toNat 0 255 = opa.toNat := by unfold clamp; omega
  rw [hc, u32, BitVec.ofInt_natCast, BitVec.ofNat_toNat, BitVec.setWidth_eq]

/-- Where the decoder stands where the encoder did and finds the codeword that the encoder wrote, it predicts the same,
so it answers the pixel, and stands where the encoder does now. -/
theorem dec2_follows {s t d : State} {opa : Word} {rest : Bits} (hp : s.phase = .s2enc)
    (henc : EncodedPixel opa s t) (hd : Ready d) (hdm : d.mode = .read) (hsame : SamePlane s d)
    (hu : unread d = cwZigzag s.m.toNat (opa.toNat - predicted2 s) ++ rest) :
    ∃ e, Answers .dec2 d opa e ∧ Ready (respond (.ok opa) e) ∧ e.mode = .read ∧ SamePlane t (respond (.ok opa) e) ∧
      unread e = rest := by
  obtain ⟨hlo, hhi⟩ := residual2_bounds henc.pixel s
  have hdp : d.phase = .s2dec := hsame.phase hp
  have hsum : predicted2 d + unzz (zz (opa.toNat - predicted2 s)) = opa.toNat := by
    rw [unzz_zz, ← hsame.predicted2_eq, add_sub_cancel]
  rw [cwZigzag, hsame.m] at hu
  obtain ⟨u, e, htook, huu, hadv, hans⟩ := answers_dec2 hd hdm hdp hu rfl (zz_lt (by omega) (by omega))
  rw [hsum, u32_clamp_pixel henc.pixel] at hadv hans
  have hfit : Phase2Fits u := .inr (.inr (by rw [htook.frame]; exact ⟨hdp, hdm⟩))
  have hmoves := s2advance_moves (opa.setWidth 8) ((hd.took hdm htook).running.col_lt_lineDepth hfit.inPhase.2)
  rw [hadv] at hmoves
  have hmoved : MovedFrom u e := hmoves
  have hcause : e.cause = d.cause := by rw [hmoved, htook.frame]
  have hstep := dec2_advances (t := respond (.ok opa) e) hd (hcause.trans hd.healthy) hans rfl
  exact ⟨e, hans, hd.of_exec hans hcause, hstep.mode.trans hdm, hsame.advance henc.advanced hstep,
    hmoved.unread.trans huu⟩

/-! ### A run of pixels -/

/-- A decoder that stands where the encoder `s` does and finds the bits `w` answers the pixels. -/
def GivesBackPixels (pixels : List Word) (s : State) (w : Bits) : Prop :=
  ∀ d rest, Ready d → d.mode = .read → SamePlane s d → unread d = w ++ rest →
    ∃ e, runOk (List.replicate pixels.length .dec2) d = some (pixels, e) ∧ Ready e ∧ e.mode = .read

/-- What a run of ENC2 writes gives its pixels back. -/
theorem runOk_enc2_gives_back {pixels : List Word} : ∀ {s t : State} {vs : List Word}, Ready s → s.mode = .write →
    runOk (pixels.map fun x => .enc2 x) s = some (vs, t) →
    Ready t ∧ t.mode = .write ∧ ∃ w, written t = written s ++ w ∧ GivesBackPixels pixels s w := by
  induction pixels with
  | nil =>
    intro s t vs h hm hrun
    cases hrun
    exact ⟨h, hm, [], (List.append_nil _).symm, fun d _ hd hdm _ _ => ⟨d, rfl, hd, hdm⟩⟩
  | cons x pixels ih =>
    intro s t vs h hm hrun
    obtain ⟨v, ws, s', hx, hv, hrun⟩ := runOk_cons_answered hrun
    obtain ⟨_, hp, r, u, henc, rfl⟩ := enc2_answered h hx hv
    obtain ⟨ht, htm, w, hw, hback⟩ := ih (h.of_exec hx henc.advanced.cause) (henc.advanced.mode.trans hm) hrun
    have hwu : written t = written u ++ w := hw
    refine ⟨ht, htm, cwZigzag s.m.toNat (x.toNat - predicted2 s) ++ w, ?_, fun d rest hd hdm hsame hu => ?_⟩
    · rw [hwu, henc.written, List.append_assoc]
    · rw [List.append_assoc] at hu
      obtain ⟨e, hans, he, hem, hsame', hue⟩ := dec2_follows hp henc hd hdm hsame hu
      obtain ⟨f, hrunf, hf, hfm⟩ := hback _ rest he hem (hsame'.after_respond r (.ok x)) hue
      exact ⟨f, runOk_cons hans hrunf, hf, hfm⟩

/-! ### A whole plane -/

/-- An answered WRHDR2 has appended the header of a valid geometry. -/
theorem wrhdr2_answered {s t : State} {v : Word} (h : Ready s) (hx : exec .wrhdr2 s = .next t)
    (hv : t.resp = some (.ok v)) : geometryOk s = true ∧
      ∃ r u, Wrote (bitsWritten .wrhdr2 s) s u ∧ t = respond r (startPhase2 .s2enc u) := by
  obtain ⟨_, r, _, ⟨hg, u, hw, rfl⟩, rfl⟩ := execute_answered
    (P := fun _ t' => geometryOk s = true ∧ ∃ u, Wrote (bitsWritten .wrhdr2 s) s u ∧ t' = startPhase2 .s2enc u)
    (show execWrhdr2 s = .next t from hx) h.healthy hv fun hl => by
      refine .ite (fun hg => ?_) fun _ => trivial
      rw [putHeader2_eq]
      exact (putAll_wrote (h.running.writer (writerIn_iff.1 hl).1) _).bind fun _ u hw => ⟨hg, u, hw, rfl⟩
  exact ⟨hg, r, u, hw, rfl⟩

/-- What an encoder leaves in the sink is the header, bits that give the pixels back, and zeros. -/
theorem encoder_writes_plane {s t : State} {pixels vs : List Word} (h : Ready s) (hm : s.mode = .closed)
    (hrun : runOk (.openw :: .wrhdr2 :: (pixels.map (fun x => .enc2 x) ++ [.close])) s = some (vs, t)) :
    geometryOk s = true ∧ ∃ w k, streamBits t.out = bitsWritten .wrhdr2 s ++ (w ++ List.replicate k false) ∧
      GivesBackPixels pixels (startPhase2 .s2enc s) w := by
  obtain ⟨_, _, s1, hx1, hv1, hrun⟩ := runOk_cons_answered hrun
  obtain rfl := openw_answered h hm hx1 hv1
  have h1 : Ready (respond (.ok 0) (openWriter s)) := (h.after_openWriter hm).after_respond _
  obtain ⟨_, _, s2, hx2, hv2, hrun⟩ := runOk_cons_answered hrun
  obtain ⟨hg, r, u, hw, rfl⟩ := wrhdr2_answered h1 hx2 hv2
  have hwrite := hw.frame
  have h2 : Ready (respond r (startPhase2 .s2enc u)) := h1.of_exec hx2 (show u.cause = _ by rw [hwrite])
  have hm2 : (respond r (startPhase2 .s2enc u)).mode = .write := show u.mode = _ by rw [hwrite]; rfl
  obtain ⟨_, _, s3, hrun3, hrun⟩ := runOk_append_answered hrun
  obtain ⟨h3, hm3, w, hw3, hback⟩ := runOk_enc2_gives_back h2 hm2 hrun3
  obtain ⟨_, _, s4, hx4, hv4, hrun⟩ := runOk_cons_answered hrun
  cases hrun
  obtain ⟨k, hout⟩ := close_answered h3 hm3 hx4 hv4
  have hwu : written s3 = written u ++ w := hw3
  have hhdr : written u = bitsWritten .wrhdr2 s := by
    rw [hw.bits]
    exact congrArg (· ++ bitsWritten .wrhdr2 s) (written_openWriter s)
  refine ⟨hg, w, k, by rw [hout, hwu, hhdr, List.append_assoc], fun d rest hd hdm hsame => ?_⟩
  refine hback d rest hd hdm ?_
  rw [hwrite]
  exact ⟨hsame.m, hsame.rows, hsame.cols, hsame.pmode, hsame.areg, hsame.creg, hsame.line, hsame.row, hsame.col,
    hsame.phase⟩

/-- RDHDR2 on the header of an encoder's geometry puts a decoder whose line buffer holds a row where the encoder
starts. -/
theorem rdhdr2_follows {s d : State} {rest : Bits} (h : Ready s) (hg : geometryOk s = true)
    (hd : Ready d) (hcols : s.cols.toNat ≤ d.lineDepth) (hdm : d.mode = .read) (hdp : d.phase = .idle)
    (hu : unread d = bitsWritten .wrhdr2 s ++ rest) :
    ∃ e, Answers .rdhdr2 d 0 e ∧ Ready (respond (.ok 0) e) ∧ e.mode = .read ∧ unread e = rest ∧
      SamePlane (startPhase2 .s2enc s) (respond (.ok 0) e) := by
  have hpos := h.running.coder.positive
  obtain ⟨hr, hc, _, hpm⟩ := (geometryOk_iff s).1 hg
  obtain ⟨t, htook, hut, hans⟩ := answers_rdhdr2 hd hdm hdp s.rows.isLt s.cols.isLt s.m.isLt s.pmode.isLt hu (by omega)
    ((geomOk_iff _ _ _ _).2 ⟨hr, hc, hcols, hpm⟩)
  refine ⟨_, hans, hd.of_exec hans (show t.cause = _ by rw [htook.frame]), htook.readFrame.mode.trans hdm, hut, ?_⟩
  have loaded {n : Nat} (a : BitVec n) : a = BitVec.ofNat n a.toNat := by simp
  exact ⟨loaded s.m, loaded s.rows, loaded s.cols, loaded s.pmode, rfl, rfl, fun _ => rfl, rfl, rfl, fun _ => rfl⟩

/-- A decoder that is given an encoder's stream answers the pixels. -/
theorem decoder_gives_pixels_back {s d : State} {pixels : List Word} {w rest : Bits} (h : Ready s)
    (hg : geometryOk s = true) (hback : GivesBackPixels pixels (startPhase2 .s2enc s) w) (hd : Ready d)
    (hdm : d.mode = .closed) (hdp : d.phase = .idle) (ho : d.env.openOk = true) (hcols : s.cols.toNat ≤ d.lineDepth)
    (hdata : streamBits d.env.data = bitsWritten .wrhdr2 s ++ (w ++ rest)) :
    ∃ u, runOk (.openr :: .rdhdr2 :: (List.replicate pixels.length .dec2 ++ [.close])) d =
      some (0 :: 0 :: (pixels ++ [0]), u) := by
  have h1 : Ready (respond (.ok 0) (openReader d)) := (hd.after_openReader hdm).after_respond _
  have hu : unread (respond (.ok 0) (openReader d)) = bitsWritten .wrhdr2 s ++ (w ++ rest) :=
    (unread_openReader d).trans hdata
  obtain ⟨e, hans, he, hem, hue, hsame⟩ := rdhdr2_follows h hg h1 hcols rfl hdp hu
  obtain ⟨f, hrun, hf, hfm⟩ := hback _ rest he hem hsame hue
  have hclose := answers_close hf.healthy (by simp [hfm]) (.inl (by simp [hfm]))
  exact ⟨_, runOk_cons (answers_openr hd.healthy hdm ho)
    (runOk_cons hans (runOk_append (runOk_cons hclose rfl) hrun))⟩

/-- Settles O58: the encoder's stream is a header, bits that give the pixels back, and padding, and the decoder reads
the header and follows. -/
theorem lossless2d : Obligations.Lossless2d := by
  unfold Obligations.Lossless2d
  intro s t d pixels vs h hd hm hdm hdp ho hdata hcols _ hrun
  obtain ⟨hg, w, k, hout, hback⟩ := encoder_writes_plane h hm hrun
  rw [← hdata] at hout
  exact decoder_gives_pixels_back h hg hback hd hdm hdp ho hcols hout

end Sys2Proof.Machine
end

section
/-! SUPPORT. The prologue of 60_exceptions.md R318, once for every command: the faulted state, the legality of a command
in the present `MODE` and `PHASE`, and the check of its operands; and what fault entry leaves (R320). -/

namespace Sys2Proof.Machine

/-! ### Fault entry -/

/-- Settles O10: `flushed` says which bytes R320 leaves in `OUT`, and the rest of fault entry is fixed. -/
theorem faultEntry : Obligations.FaultEntry := by
  unfold Obligations.FaultEntry
  intro c s
  have hpos : s.nbits ≠ 0 ↔ 0 < s.nbits.toNat := by rw [Nat.pos_iff_ne_zero, Ne, nbits_eq_zero]
  refine ⟨rfl, rfl, rfl, rfl, ?_⟩
  rw [takeFault_out, flushed]
  simp only [sinkRoom_iff, hpos]

/-! ### The three tests of the prologue -/

/-- The outcome is the common prologue's: the command is legal where its immediate is in range and its Legal-when clause
holds (R318 steps 2 and 3), and operands that fail their check end its pseudocode at once (step 4). -/
def Prologue (i : Instr) (s : State) (o : Out) : Prop :=
  ∃ body, o = execute (i.wellFormed && legalWhen i s) body s ∧
    (operandsOk i s = false → body s = .raise .invalidArgument s)

theorem Prologue.of_checked {i : Instr} {s : State} {o : Out} {legal : Bool} {body : State → Res Response}
    (h : o = execute legal body s) (hl : legal = (i.wellFormed && legalWhen i s))
    (ho : operandsOk i s = false → body s = .raise .invalidArgument s) : Prologue i s o :=
  ⟨body, hl ▸ h, ho⟩

/-- A command whose pseudocode makes no check of operands. -/
theorem Prologue.of_unchecked {i : Instr} {s : State} {o : Out} {legal : Bool} {body : State → Res Response}
    (h : o = execute legal body s) (hl : legal = (i.wellFormed && legalWhen i s)) (ho : operandsOk i s = true) :
    Prologue i s o :=
  .of_checked h hl fun hf => absurd (ho.symm.trans hf) (by decide)

section
variable (s : State)

theorem open_eq_not_closed : (isWriter s || isReader s) = decide (s.mode ≠ .closed) := by
  unfold isWriter isReader
  cases s.mode <;> rfl

theorem writerIn_eq (p : Phase) : (isWriter s && decide (s.phase = p)) = decide (s.mode = .write ∧ s.phase = p) :=
  (Bool.decide_and _ _).symm

theorem readerIn_eq (p : Phase) : (isReader s && decide (s.phase = p)) = decide (s.mode = .read ∧ s.phase = p) :=
  (Bool.decide_and _ _).symm

variable {s}

/-- The sample checks of RSD1 and ENC1 where one fails (45_codec1d.md R257, R259). -/
theorem residual1_bad {opa opb : Word} (h : (isSample (s32 opa) && (!needref s || isSample (s32 opb))) = false) :
    residual1 opa opb s = .raise .invalidArgument s := by
  unfold residual1
  by_cases ha : isSample (s32 opa) = true
  · have hb : needref s = true ∧ ¬ isSample (s32 opb) = true := by simpa [ha] using h
    rw [if_neg (not_not_intro ha), if_pos hb]
  · rw [if_pos ha]

/-- The pixel check of RSD2 and ENC2 where it fails (46_codec2d.md R287, R289). -/
theorem residual2_bad {opa : Word} (h : isPixel opa = false) : residual2 opa s = .raise .invalidArgument s :=
  if_neg (ne_true_of_eq_false h)

end

/-- Every command but RESET and RDREG STATUS runs under the common prologue (R318). -/
theorem exec_prologue {i : Instr} (hr : i ≠ .reset) (hst : i ≠ .rdreg .status) (s : State) :
    Prologue i s (exec i s) := by
  unfold exec
  cases i with
  | reset => exact absurd rfl hr
  | rdreg r =>
    have hne : r ≠ .status := fun he => hst (he ▸ rfl)
    exact .of_unchecked (if_neg hne) rfl rfl
  | wrreg r opa => exact .of_checked rfl rfl fun ho => if_pos (Nat.not_lt.1 (of_decide_eq_false ho))
  | close => exact .of_unchecked rfl (open_eq_not_closed s) rfl
  | setm opa =>
    refine .of_checked rfl rfl fun ho => ?_
    have hbad := of_decide_eq_false ho
    by_cases h0 : s32 opa ≤ 0
    · exact if_pos h0
    · exact (if_neg h0).trans (if_pos (show (65535 : Int) < s32 opa by omega))
  | encu opa => exact .of_checked rfl rfl fun ho => if_pos (Int.not_le.1 (of_decide_eq_false ho))
  | est1d => exact .of_checked rfl rfl fun ho => if_pos (not_not.1 (of_decide_eq_false ho))
  | est2d => exact .of_checked rfl rfl fun ho => if_pos (not_not.1 (of_decide_eq_false ho))
  | p1push opa => exact .of_checked rfl rfl fun ho => if_neg (ne_true_of_eq_false ho)
  | p1pred k opa =>
    refine .of_checked rfl (Bool.and_true _).symm fun ho => ?_
    obtain ⟨hk, hx⟩ := Bool.or_eq_false_iff.1 ho
    exact (if_neg (of_decide_eq_false hk)).trans (if_neg (ne_true_of_eq_false hx))
  | begin1a => exact .of_checked rfl rfl fun ho => if_neg (ne_true_of_eq_false ho)
  | begin2a => exact .of_checked rfl rfl fun ho => if_neg (ne_true_of_eq_false ho)
  | rsd1 opa opb => exact .of_checked rfl rfl fun ho => congrArg (Res.bind · _) (residual1_bad ho)
  | rsd2 opa => exact .of_checked rfl rfl fun ho => congrArg (Res.bind · _) (residual2_bad ho)
  | wrhdr1 => exact .of_checked rfl (writerIn_eq s _) fun ho => if_neg (ne_true_of_eq_false ho)
  | wrhdr2 => exact .of_checked rfl (writerIn_eq s _) fun ho => if_neg (ne_true_of_eq_false ho)
  | enc1 opa opb => exact .of_checked rfl (writerIn_eq s _) fun ho => congrArg (Res.bind · _) (residual1_bad ho)
  | enc2 opa => exact .of_checked rfl (writerIn_eq s _) fun ho => congrArg (Res.bind · _) (residual2_bad ho)
  | dec1 opa => exact .of_checked rfl (readerIn_eq s _) fun ho => if_pos (by simpa [operandsOk] using ho)
  | rdhdr1 => exact .of_unchecked rfl (readerIn_eq s _) rfl
  | rdhdr2 => exact .of_unchecked rfl (readerIn_eq s _) rfl
  | dec2 => exact .of_unchecked rfl (readerIn_eq s _) rfl
  | _ => exact .of_unchecked rfl rfl rfl

section
variable {i : Instr} {s : State}

/-- Step 1 of the prologue: in the faulted state a command answers the stored cause. -/
theorem exec_faulted {c : Cause} (hc : s.cause = some c) (hr : i ≠ .reset) (hst : i ≠ .rdreg .status) :
    exec i s = .next (respond (.fault c) s) := by
  obtain ⟨body, he, _⟩ := exec_prologue hr hst s
  rw [he, execute_faulted hc]

/-- RESET and RDREG STATUS are legal in every state with every operand. -/
theorem exec_prologue_of_refused (h : legalWhen i s = false ∨ operandsOk i s = false) : Prologue i s (exec i s) := by
  refine exec_prologue ?_ ?_ s
  · rintro rfl
    exact h.elim nofun nofun
  · rintro rfl
    exact h.elim nofun nofun

/-- Step 3: a command that its Legal-when clause excludes. -/
theorem exec_illegal (hc : s.cause = none) (hl : legalWhen i s = false) :
    exec i s = .next (takeFault .illegalCommand s) := by
  obtain ⟨body, he, _⟩ := exec_prologue_of_refused (.inl hl)
  rw [he, hl, Bool.and_false, execute_illegal hc]

/-- Step 4: a legal command whose operands or configuration registers fail their check. -/
theorem exec_bad_operands (hc : s.cause = none) (hw : i.wellFormed = true) (hl : legalWhen i s = true)
    (ho : operandsOk i s = false) : exec i s = .next (takeFault .invalidArgument s) := by
  obtain ⟨body, he, hcheck⟩ := exec_prologue_of_refused (.inr ho)
  rw [he, hw, hl, Bool.and_true, execute_legal hc rfl, hcheck ho, finish_raise]

end

/-- Settles O11: step 1 of the prologue; RDREG STATUS is read before it, and in the faulted state `STATUS` holds the
cause alone. -/
theorem faultedStateIsAbsorbing : Obligations.FaultedStateIsAbsorbing := by
  unfold Obligations.FaultedStateIsAbsorbing
  intro s c h hc
  refine ⟨fun i hr hst => exec_faulted hc hr hst, ?_, respond (.ok 0) (resetState s), rfl, rfl, rfl⟩
  obtain ⟨hm, hp⟩ := h.faulted (by simp [hc])
  have hstatus : statusWord s = (causeCode c).setWidth 32 := by rw [statusWord_closed_idle hm hp, hc]; rfl
  rw [Answers, ← hstatus]
  rfl

/-- Settles O12: step 3 of the prologue comes before the operands are looked at. -/
theorem illegalInModeOrPhase : Obligations.IllegalInModeOrPhase := by
  unfold Obligations.IllegalInModeOrPhase
  intro i s hc hl
  exact raises_of_takeFault (by decide) (exec_illegal hc hl)

/-- Settles O13: step 4 of the prologue comes before the pseudocode reads or writes. -/
theorem invalidArguments : Obligations.InvalidArguments := by
  unfold Obligations.InvalidArguments
  intro i s hc hw hl ho
  exact raises_of_takeFault (by decide) (exec_bad_operands hc hw hl ho)

/-- Settles O5: a word that is no command meets the prologue as an illegal command, and the other two events are
`fetch`'s. -/
theorem otherSteps : Obligations.OtherSteps := by
  unfold Obligations.OtherSteps
  refine ⟨fun s t rest e hp hd => ?_, fun s hp => step_idle hp, fun s rest hp => step_hardwareReset hp⟩
  rw [step_illegal hp hd, execIllegal]
  refine ⟨fun c hc => execute_faulted (s := accept t rest s) hc _ _, fun hc => ?_⟩
  have hflush : flushed .illegalCommand s =
      if s.mode = .write ∧ s.nbits ≠ 0 ∧ sinkRoom s = true then s.out ++ [s.acc] else s.out := by simp [flushed]
  exact ⟨_, execute_illegal (s := accept t rest s) hc _, hflush ▸ takeFault_faultedFrom .illegalCommand (accept t rest s)⟩

end Sys2Proof.Machine
end

section
/-! SUPPORT. How every command of a healthy core ends, from any state (60_exceptions.md R325, R333): the faults its
pseudocode can raise and, where it raises none, its response and what it does to `CAUSE`, `PHASE` and `CH`. -/

namespace Sys2Proof.Machine

variable {α β : Type}

/-! ### A triple that names the faults -/

/-- A part of a command's pseudocode goes on in `P`, or raises a cause of the list. -/
def Res.Ends (cs : List Cause) (P : α → State → Prop) : Res α → Prop
  | .ok a t => P a t
  | .raise c _ => c ∈ cs
  | .stop _ => True

section
variable {cs : List Cause} {s : State}

theorem Res.Ends.bind {P : α → State → Prop} {Q : β → State → Prop} {r : Res α} {k : α → State → Res β}
    (h : r.Ends cs P) (hk : ∀ a t, P a t → (k a t).Ends cs Q) : (r.bind k).Ends cs Q := by
  cases r with
  | ok a t => exact hk a t h
  | raise c t => exact h
  | stop f => trivial

theorem Res.Ends.ite {P : α → State → Prop} {c : Prop} [Decidable c] {r q : Res α} (hr : c → r.Ends cs P)
    (hq : ¬ c → q.Ends cs P) : (if c then r else q).Ends cs P := by
  split
  · exact hr ‹_›
  · exact hq ‹_›

theorem Res.Ends.of_raise {P : α → State → Prop} {c : Cause} (h : c ∈ cs) : (Res.raise c s : Res α).Ends cs P := h

/-! ### The micro-operations -/

theorem CodedFrom.refl (s : State) : CodedFrom s s := rfl

theorem CodedFrom.trans {s t u : State} (h : CodedFrom s t) (g : CodedFrom t u) : CodedFrom s u := by
  unfold CodedFrom at *
  rw [g, h]

theorem CodedFrom.cause {s t : State} (h : CodedFrom s t) : t.cause = s.cause := by rw [h]

theorem CodedFrom.phase {s t : State} (h : CodedFrom s t) : t.phase = s.phase := by rw [h]

theorem CodedFrom.ch {s t : State} (h : CodedFrom s t) : t.ch = s.ch := by rw [h]

/-- The micro-operation changes nothing but the window, the accumulator, the sink's bytes and the reader's position, or
raises a cause of the list. -/
def Res.Codes (cs : List Cause) (s : State) (r : Res α) : Prop := r.Ends cs fun _ t => CodedFrom s t

theorem Res.Codes.after {t : State} {r : Res α} (h : CodedFrom s t) (hr : r.Codes cs t) : r.Codes cs s := by
  cases r with
  | ok a u => exact h.trans hr
  | raise c u => exact hr
  | stop f => trivial

theorem Res.Codes.bind {r : Res α} {k : α → State → Res β} (h : r.Codes cs s) (hk : ∀ a t, (k a t).Codes cs t) :
    (r.bind k).Codes cs s := Res.Ends.bind h fun a t ht => (hk a t).after ht

/-- What follows a micro-operation in a command's pseudocode. -/
theorem Res.Codes.followed {Q : β → State → Prop} {r : Res α} {k : α → State → Res β} (h : r.Codes cs s)
    (hk : ∀ a t, CodedFrom s t → (k a t).Ends cs Q) : (r.bind k).Ends cs Q := Res.Ends.bind h hk

theorem Res.Codes.ite {c : Prop} [Decidable c] {r q : Res α} (hr : r.Codes cs s) (hq : q.Codes cs s) :
    (if c then r else q).Codes cs s := Res.Ends.ite (fun _ => hr) fun _ => hq

theorem putAll_codes (hio : .ioError ∈ cs) (w : Bits) (s : State) : (putAll w s).Codes cs s := by
  obtain ⟨t, hf, h | h⟩ := putAll_cases w s
  · rw [h]; exact hf.codedFrom
  · rw [h]; exact hio

theorem putbit_codes (hio : .ioError ∈ cs) (x : Bool) (s : State) : (putbit x s).Codes cs s := by
  rw [← putAll_singleton]
  exact putAll_codes hio _ s

theorem putbits_codes (hio : .ioError ∈ cs) (n v : Nat) (s : State) : (putbits n v s).Codes cs s := by
  rw [putbits_eq_putAll]
  exact putAll_codes hio _ s

theorem encu_codes (hio : .ioError ∈ cs) (v : Nat) (s : State) : (encu v s).Codes cs s := by
  unfold encu
  rw [putZeros_eq_putAll]
  exact (putAll_codes hio _ s).bind fun _ t => (putbit_codes hio true t).bind fun _ u =>
    .ite (putbits_codes hio _ _ u) (putbits_codes hio _ _ u)

theorem getbitsLoop_codes (heof : .unexpectedEof ∈ cs) (n : Nat) : ∀ v s, (getbitsLoop n v s).Codes cs s := by
  induction n with
  | zero => exact fun v s => .refl s
  | succ n ih =>
    intro v s
    unfold getbitsLoop
    cases hg : getbit s with
    | none => exact heof
    | some b => exact .after (getbit_frame hg).codedFrom (ih _ _)

theorem getbits_codes (heof : .unexpectedEof ∈ cs) (n : Nat) (s : State) : (getbits n s).Codes cs s :=
  .ite heof (getbitsLoop_codes heof n 0 s)

theorem countZeros_codes (henc : .invalidEncoding ∈ cs) (fuel : Nat) : ∀ q s, (countZeros fuel q s).Codes cs s := by
  induction fuel with
  | zero => exact fun q s => henc
  | succ fuel ih =>
    intro q s
    unfold countZeros
    cases hg : getbit s with
    | none => exact henc
    | some b =>
      obtain ⟨x, t⟩ := b
      have hf := (getbit_frame hg).codedFrom
      cases x with
      | true => exact hf
      | false => exact .after hf (ih _ t)

theorem getRemainder_codes (heof : .unexpectedEof ∈ cs) (s : State) : (getRemainder s).Codes cs s := by
  refine .ite (CodedFrom.refl s) ((getbits_codes heof _ s).bind fun r t => .ite (CodedFrom.refl t) ?_)
  cases hg : getbit t with
  | none => exact heof
  | some b => exact (getbit_frame hg).codedFrom

/-- The faults of a codeword that is read (42_golomb.md R178). -/
theorem decu_codes (hcs : [.invalidEncoding, .unexpectedEof, .rangeOverflow] ⊆ cs) (s : State) :
    (decu s).Codes cs s := by
  obtain ⟨henc, heof, hover⟩ : _ ∧ _ ∧ _ := by simpa using hcs
  exact (countZeros_codes henc _ 0 s).bind fun _ t => (getRemainder_codes heof t).bind fun _ u => .ite hover (.refl u)

theorem getSign_codes (heof : .unexpectedEof ∈ cs) (s : State) : (getSign s).Codes cs s := by
  unfold getSign
  cases hg : getbit s with
  | none => exact heof
  | some b => exact (getbit_frame hg).codedFrom

theorem estacc_codes (hover : .rangeOverflow ∈ cs) (e : Int) (s : State) : (estacc e s).Codes cs s :=
  .ite hover rfl

theorem ps_codes (s : State) : (ps s).Codes cs s := by
  unfold ps
  split
  · trivial
  · exact CodedFrom.refl s

theorem residual1_codes (harg : .invalidArgument ∈ cs) (opa opb : Word) (s : State) :
    (residual1 opa opb s).Codes cs s := .ite harg (.ite harg (.refl s))

theorem residual2_codes (harg : .invalidArgument ∈ cs) (opa : Word) (s : State) : (residual2 opa s).Codes cs s :=
  .ite ((ps_codes s).bind fun _ t => .refl t) harg

theorem putHeader1_codes (hio : .ioError ∈ cs) (s : State) : (putHeader1 s).Codes cs s := by
  rw [putHeader1_eq]
  exact putAll_codes hio _ s

theorem putHeader2_codes (hio : .ioError ∈ cs) (s : State) : (putHeader2 s).Codes cs s := by
  rw [putHeader2_eq]
  exact putAll_codes hio _ s

theorem getHeader1_codes (heof : .unexpectedEof ∈ cs) (harg : .invalidArgument ∈ cs) (s : State) :
    (getHeader1 s).Codes cs s :=
  (getbits_codes heof _ s).bind fun _ s1 => (getbits_codes heof _ s1).bind fun _ s2 =>
  (getbits_codes heof _ s2).bind fun _ s3 => (getbits_codes heof _ s3).bind fun _ s4 =>
  (getbits_codes heof _ s4).bind fun _ s5 => (getbits_codes heof _ s5).bind fun _ s6 =>
  .ite (.bind (.ite (getbits_codes heof _ s6) (.refl s6)) fun _ s7 => .ite harg (.refl s7)) harg

theorem getHeader2_codes (heof : .unexpectedEof ∈ cs) (harg : .invalidArgument ∈ cs) (s : State) :
    (getHeader2 s).Codes cs s :=
  (getbits_codes heof _ s).bind fun _ s1 => (getbits_codes heof _ s1).bind fun _ s2 =>
  (getbits_codes heof _ s2).bind fun _ s3 => (getbits_codes heof _ s3).bind fun _ s4 => .ite (.refl s4) harg

theorem nextPosition_cause (s : State) : (nextPosition s).cause = s.cause := by
  unfold nextPosition
  split <;> rfl

theorem lineWrite_cause (i : Nat) (y : Byte) (s : State) : (lineWrite i y s).cause = s.cause := by
  unfold lineWrite
  split <;> rfl

/-- The advance raises no fault and takes none back, from any place. -/
theorem s2advance_ends (x : Byte) (s : State) : (s2advance x s).Ends cs fun _ t => t.cause = s.cause := by
  have hpush : (p2push x s).Ends cs fun _ t => t.cause = s.cause := by
    unfold p2push
    cases lineRead s s.col.toNat with
    | none => trivial
    | some top => exact (nextPosition_cause _).trans (lineWrite_cause _ x s)
  exact hpush.bind fun last t ht => by cases last <;> exact ht

end

/-! ### The commands -/

/-- The command records a sample or a pixel and moves the place on. -/
def codesDatum : Instr → Bool
  | .rsd1 _ _ | .enc1 _ _ | .dec1 _ | .rsd2 _ | .enc2 _ | .dec2 => true
  | _ => false

/-- The phase that a command enters from `IDLE` (60_exceptions.md R333). -/
def phaseEntered : Instr → Option Phase
  | .begin1a => some .s1anl
  | .wrhdr1 => some .s1enc
  | .rdhdr1 => some .s1dec
  | .begin2a => some .s2anl
  | .wrhdr2 => some .s2enc
  | .rdhdr2 => some .s2dec
  | _ => none

/-- What a command that records nothing does to the sequencer where it takes no fault (R333). -/
structure Sequenced (i : Instr) (s t : State) : Prop where
  phase : t.phase = s.phase ∨ (t.phase = .idle ∧ (i = .close ∨ i = .reset)) ∨
    (s.phase = .idle ∧ phaseEntered i = some t.phase)
  ch : s.ch = 0 → t.ch = 0

/-- The command's pseudocode responds `r` in `t`, and no fault is taken (R325). -/
structure Unfaulted (i : Instr) (s : State) (r : Response) (t : State) : Prop where
  cause : t.cause = s.cause
  resp : (∃ v, r = .ok v) ∨ (i = .getbit ∧ r = .eod)
  sequenced : codesDatum i = false → Sequenced i s t

section
variable {i : Instr} {s t : State} {v : Word}

/-- A command that leaves the sequencer alone. -/
theorem Unfaulted.of_still (hc : t.cause = s.cause) (hp : t.phase = s.phase) (hch : t.ch = s.ch) :
    Unfaulted i s (.ok v) t :=
  ⟨hc, .inl ⟨v, rfl⟩, fun _ => ⟨.inl hp, fun h => hch.trans h⟩⟩

theorem Unfaulted.of_codedFrom (h : CodedFrom s t) : Unfaulted i s (.ok v) t := .of_still h.cause h.phase h.ch

theorem Unfaulted.refl : Unfaulted i s (.ok v) s := .of_codedFrom (.refl s)

/-- A command that records a sample or a pixel. -/
theorem Unfaulted.of_codesDatum (hi : codesDatum i = true) (hc : t.cause = s.cause) : Unfaulted i s (.ok v) t :=
  ⟨hc, .inl ⟨v, rfl⟩, fun hf => absurd (hi.symm.trans hf) (by decide)⟩

/-- With no samples the sequencer stays `IDLE`. -/
theorem Unfaulted.of_startPhase1 {p : Phase} (hp : s.phase = .idle) (hi : phaseEntered i = some p)
    (hc : t.cause = s.cause) : Unfaulted i s (.ok v) (startPhase1 p t) := by
  refine ⟨hc, .inl ⟨v, rfl⟩, fun _ => ⟨?_, fun _ => rfl⟩⟩
  rw [startPhase1_phase, hp, hi]
  split
  · exact .inl rfl
  · exact .inr (.inr ⟨rfl, rfl⟩)

theorem Unfaulted.of_startPhase2 {p : Phase} (hp : s.phase = .idle) (hi : phaseEntered i = some p)
    (hc : t.cause = s.cause) (hch : t.ch = s.ch) : Unfaulted i s (.ok v) (startPhase2 p t) :=
  ⟨hc, .inl ⟨v, rfl⟩, fun _ => ⟨.inr (.inr ⟨hp, hi⟩), fun h => hch.trans h⟩⟩

/-- How a command of a healthy core ends: its pseudocode responds without a fault, or raises one of the faults listed
for it, or the command is illegal. -/
def EndsAs (i : Instr) (s : State) (o : Out) : Prop :=
  ∀ t, o = .next t → (∃ r u, Unfaulted i s r u ∧ t = respond r u) ∨
    ∃ c u, (c ∈ faultsOf i ∨ (c = .illegalCommand ∧ i ≠ .reset)) ∧ t = takeFault c u

theorem EndsAs.of_respond {r : Response} (h : Unfaulted i s r t) : EndsAs i s (.next (respond r t)) := fun u hu => by
  cases hu
  exact .inl ⟨r, t, h, rfl⟩

/-- A command under the common prologue ends as its pseudocode does where it is legal. -/
theorem execute_endsAs {legal : Bool} {body : State → Res Response} (hc : s.cause = none) (hi : i ≠ .reset)
    (hb : legal = true → (body s).Ends (faultsOf i) (Unfaulted i s)) : EndsAs i s (execute legal body s) := by
  intro t ht
  rcases execute_cases ht with ⟨c, hc', _⟩ | ⟨_, _, rfl⟩ | ⟨_, hl, r, u, he, rfl⟩ | ⟨_, hl, c, u, he, rfl⟩
  · rw [hc] at hc'; cases hc'
  · exact .inr ⟨_, s, .inr ⟨rfl, hi⟩, rfl⟩
  · have hbody := hb hl
    rw [he] at hbody
    exact .inl ⟨r, u, hbody, rfl⟩
  · have hbody := hb hl
    rw [he] at hbody
    exact .inr ⟨c, u, .inl hbody, rfl⟩

end

section
variable {s : State} (hc : s.cause = none)
include hc

theorem execRdreg_endsAs (r : Reg) : EndsAs (.rdreg r) s (execRdreg r s) := by
  unfold execRdreg
  split
  · exact .of_respond .refl
  · exact execute_endsAs hc nofun fun _ => .refl

theorem execReset_endsAs : EndsAs .reset s (execReset s) :=
  .of_respond ⟨hc.symm, .inl ⟨0, rfl⟩, fun _ => ⟨.inr (.inl ⟨rfl, .inr rfl⟩), fun _ => rfl⟩⟩

theorem execClose_endsAs : EndsAs .close s (execClose s) :=
  execute_endsAs hc nofun fun _ => by
    have hflush : (flushPartial s).Ends (faultsOf .close) fun _ t => t.cause = s.cause := by
      unfold flushPartial sinkPush
      exact .ite (fun _ => .ite (fun _ => rfl) fun _ => .of_raise (.head _)) fun _ => rfl
    exact hflush.bind fun _ t ht =>
      ⟨ht, .inl ⟨0, rfl⟩, fun _ => ⟨.inr (.inl ⟨rfl, .inl rfl⟩), fun _ => rfl⟩⟩

theorem execGetbit_endsAs : EndsAs .getbit s (execGetbit s) :=
  execute_endsAs hc nofun fun _ => by
    cases hg : getbit s with
    | none => exact ⟨rfl, .inr ⟨rfl, rfl⟩, fun _ => ⟨.inl rfl, id⟩⟩
    | some b => exact .of_codedFrom (getbit_frame hg).codedFrom

theorem execWrreg_endsAs (r : Reg) (opa : Word) : EndsAs (.wrreg r opa) s (execWrreg r opa s) :=
  execute_endsAs hc nofun fun _ =>
    .ite (fun _ => .of_raise (.head _)) fun _ => by cases r <;> exact .of_still rfl rfl rfl

theorem execOpenw_endsAs : EndsAs .openw s (execOpenw s) :=
  execute_endsAs hc nofun fun _ => .ite (fun _ => .of_still rfl rfl rfl) fun _ => .of_raise (.head _)

theorem execOpenr_endsAs : EndsAs .openr s (execOpenr s) :=
  execute_endsAs hc nofun fun _ => .ite (fun _ => .of_still rfl rfl rfl) fun _ => .of_raise (.head _)

theorem execSetm_endsAs (opa : Word) : EndsAs (.setm opa) s (execSetm opa s) :=
  execute_endsAs hc nofun fun _ =>
    .ite (fun _ => .of_raise (.head _)) fun _ => .ite (fun _ => .of_raise (.head _)) fun _ => .of_still rfl rfl rfl

theorem execEncu_endsAs (opa : Word) : EndsAs (.encu opa) s (execEncu opa s) :=
  execute_endsAs hc nofun fun _ => .ite (fun _ => .of_raise (by simp [faultsOf])) fun _ =>
    (encu_codes (by simp [faultsOf]) _ s).followed fun _ _ ht => .of_codedFrom ht

theorem execEncs_endsAs (opa : Word) : EndsAs (.encs opa) s (execEncs opa s) :=
  execute_endsAs hc nofun fun _ => (putbit_codes (by simp [faultsOf]) _ s).followed fun _ t ht =>
    (encu_codes (by simp [faultsOf]) _ t).followed fun _ _ hu => .of_codedFrom (ht.trans hu)

theorem execDecs_endsAs : EndsAs .decs s (execDecs s) :=
  execute_endsAs hc nofun fun _ => (getSign_codes (by simp [faultsOf]) s).followed fun _ t ht =>
    (decu_codes (by simp [faultsOf]) t).followed fun _ _ hu =>
      .ite (fun _ => .of_raise (by simp [faultsOf])) fun _ => .of_codedFrom (ht.trans hu)

theorem execP1pred_endsAs (k : BitVec 8) (opa : Word) : EndsAs (.p1pred k opa) s (execP1pred k opa s) :=
  execute_endsAs hc nofun fun _ => .ite (fun _ => .refl) fun _ => .ite (fun _ => .refl) fun _ => .of_raise (.head _)

theorem execBegin1a_endsAs : EndsAs .begin1a s (execBegin1a s) :=
  execute_endsAs hc nofun fun hl =>
    .ite (fun _ => .of_startPhase1 (of_decide_eq_true hl) rfl rfl) fun _ => .of_raise (.head _)

theorem execBegin2a_endsAs : EndsAs .begin2a s (execBegin2a s) :=
  execute_endsAs hc nofun fun hl =>
    .ite (fun _ => .of_startPhase2 (of_decide_eq_true hl) rfl rfl rfl) fun _ => .of_raise (.head _)

theorem execWrhdr1_endsAs : EndsAs .wrhdr1 s (execWrhdr1 s) :=
  execute_endsAs hc nofun fun hl => .ite
    (fun _ => (putHeader1_codes (by simp [faultsOf]) s).followed fun _ _ ht =>
      .of_startPhase1 (writerIn_iff.1 hl).2 rfl ht.cause)
    fun _ => .of_raise (by simp [faultsOf])

theorem execWrhdr2_endsAs : EndsAs .wrhdr2 s (execWrhdr2 s) :=
  execute_endsAs hc nofun fun hl => .ite
    (fun _ => (putHeader2_codes (by simp [faultsOf]) s).followed fun _ _ ht =>
      .of_startPhase2 (writerIn_iff.1 hl).2 rfl ht.cause ht.ch)
    fun _ => .of_raise (by simp [faultsOf])

theorem execRdhdr1_endsAs : EndsAs .rdhdr1 s (execRdhdr1 s) :=
  execute_endsAs hc nofun fun hl =>
    (getHeader1_codes (by simp [faultsOf]) (by simp [faultsOf]) s).followed fun _ _ ht =>
      .of_startPhase1 (readerIn_iff.1 hl).2 rfl ht.cause

theorem execRdhdr2_endsAs : EndsAs .rdhdr2 s (execRdhdr2 s) :=
  execute_endsAs hc nofun fun hl =>
    (getHeader2_codes (by simp [faultsOf]) (by simp [faultsOf]) s).followed fun _ _ ht =>
      .of_startPhase2 (readerIn_iff.1 hl).2 rfl ht.cause ht.ch

theorem execRsd1_endsAs (opa opb : Word) : EndsAs (.rsd1 opa opb) s (execRsd1 opa opb s) :=
  execute_endsAs hc nofun fun _ => (residual1_codes (by simp [faultsOf]) opa opb s).followed fun _ t ht =>
    (estacc_codes (by simp [faultsOf]) _ t).followed fun _ u hu =>
      .of_codesDatum rfl ((s1advance_cause _ u).trans (ht.trans hu).cause)

theorem execEnc1_endsAs (opa opb : Word) : EndsAs (.enc1 opa opb) s (execEnc1 opa opb s) :=
  execute_endsAs hc nofun fun _ => (residual1_codes (by simp [faultsOf]) opa opb s).followed fun _ t ht =>
    (encu_codes (by simp [faultsOf]) _ t).followed fun _ u hu =>
      .of_codesDatum rfl ((s1advance_cause _ u).trans (ht.trans hu).cause)

theorem execDec1_endsAs (opa : Word) : EndsAs (.dec1 opa) s (execDec1 opa s) :=
  execute_endsAs hc nofun fun _ => .ite (fun _ => .of_raise (.head _)) fun _ =>
    (decu_codes (by simp [faultsOf]) s).followed fun _ t ht =>
      .ite (fun _ => .of_codesDatum rfl ((s1advance_cause _ t).trans ht.cause)) fun _ => .of_raise (by simp [faultsOf])

theorem execRsd2_endsAs (opa : Word) : EndsAs (.rsd2 opa) s (execRsd2 opa s) :=
  execute_endsAs hc nofun fun _ => (residual2_codes (by simp [faultsOf]) opa s).followed fun _ t ht =>
    (estacc_codes (by simp [faultsOf]) _ t).followed fun _ u hu => (s2advance_ends _ u).bind fun _ _ hv =>
      .of_codesDatum rfl (hv.trans (ht.trans hu).cause)

theorem execEnc2_endsAs (opa : Word) : EndsAs (.enc2 opa) s (execEnc2 opa s) :=
  execute_endsAs hc nofun fun _ => (residual2_codes (by simp [faultsOf]) opa s).followed fun _ t ht =>
    (encu_codes (by simp [faultsOf]) _ t).followed fun _ u hu => (s2advance_ends _ u).bind fun _ _ hv =>
      .of_codesDatum rfl (hv.trans (ht.trans hu).cause)

theorem execDec2_endsAs : EndsAs .dec2 s (execDec2 s) :=
  execute_endsAs hc nofun fun _ => (ps_codes s).followed fun _ t ht =>
    (decu_codes (by simp [faultsOf]) t).followed fun _ u hu => (s2advance_ends _ u).bind fun _ _ hv =>
      .of_codesDatum rfl (hv.trans (ht.trans hu).cause)

/-- How every command of a healthy core ends. -/
theorem exec_endsAs (i : Instr) : EndsAs i s (exec i s) := by
  unfold exec
  cases i with
  | nop => exact execute_endsAs hc nofun fun _ => .refl
  | reset => exact execReset_endsAs hc
  | rdreg r => exact execRdreg_endsAs hc r
  | wrreg r opa => exact execWrreg_endsAs hc r opa
  | openw => exact execOpenw_endsAs hc
  | openr => exact execOpenr_endsAs hc
  | close => exact execClose_endsAs hc
  | putbit opa =>
    exact execute_endsAs hc nofun fun _ => (putbit_codes (.head _) _ s).followed fun _ _ ht => .of_codedFrom ht
  | putbits n opa =>
    exact execute_endsAs hc nofun fun _ => (putbits_codes (.head _) _ _ s).followed fun _ _ ht => .of_codedFrom ht
  | getbit => exact execGetbit_endsAs hc
  | getbits n =>
    exact execute_endsAs hc nofun fun _ => (getbits_codes (.head _) _ s).followed fun _ _ ht => .of_codedFrom ht
  | setm opa => exact execSetm_endsAs hc opa
  | encu opa => exact execEncu_endsAs hc opa
  | decu =>
    exact execute_endsAs hc nofun fun _ => (decu_codes (List.Subset.refl _) s).followed fun _ _ ht => .of_codedFrom ht
  | encz opa =>
    exact execute_endsAs hc nofun fun _ => (encu_codes (.head _) _ s).followed fun _ _ ht => .of_codedFrom ht
  | decz =>
    exact execute_endsAs hc nofun fun _ => (decu_codes (List.Subset.refl _) s).followed fun _ _ ht => .of_codedFrom ht
  | encs opa => exact execEncs_endsAs hc opa
  | decs => exact execDecs_endsAs hc
  | estclr => exact execute_endsAs hc nofun fun _ => .of_still rfl rfl rfl
  | estacc opa =>
    exact execute_endsAs hc nofun fun _ => (estacc_codes (.head _) _ s).followed fun _ _ ht => .of_codedFrom ht
  | est1d => exact execute_endsAs hc nofun fun _ => .ite (fun _ => .of_raise (.head _)) fun _ => .refl
  | est2d => exact execute_endsAs hc nofun fun _ => .ite (fun _ => .of_raise (.head _)) fun _ => .refl
  | p1rst => exact execute_endsAs hc nofun fun _ => .of_still rfl rfl rfl
  | p1push opa =>
    exact execute_endsAs hc nofun fun _ => .ite (fun _ => .of_still rfl rfl rfl) fun _ => .of_raise (.head _)
  | p1pred k opa => exact execP1pred_endsAs hc k opa
  | p2pred => exact execute_endsAs hc nofun fun _ => (ps_codes s).followed fun _ _ ht => .of_codedFrom ht
  | begin1a => exact execBegin1a_endsAs hc
  | rsd1 opa opb => exact execRsd1_endsAs hc opa opb
  | wrhdr1 => exact execWrhdr1_endsAs hc
  | enc1 opa opb => exact execEnc1_endsAs hc opa opb
  | rdhdr1 => exact execRdhdr1_endsAs hc
  | dec1 opa => exact execDec1_endsAs hc opa
  | begin2a => exact execBegin2a_endsAs hc
  | rsd2 opa => exact execRsd2_endsAs hc opa
  | wrhdr2 => exact execWrhdr2_endsAs hc
  | enc2 opa => exact execEnc2_endsAs hc opa
  | rdhdr2 => exact execRdhdr2_endsAs hc
  | dec2 => exact execDec2_endsAs hc

end

/-- Settles O14: `exec_endsAs` names the faults and the responses, and no command touches the host's fields. -/
theorem faultsByCommand : Obligations.FaultsByCommand := by
  unfold Obligations.FaultsByCommand
  intro i s t hc hx
  rcases exec_endsAs hc i t hx with ⟨r, u, hu, rfl⟩ | ⟨c, u, hmem, rfl⟩
  · refine .inl ⟨hu.cause.trans hc, ?_⟩
    obtain ⟨v, rfl⟩ | ⟨hi, rfl⟩ := hu.resp
    · exact .inl ⟨v, rfl⟩
    · exact .inr ⟨hi, rfl⟩
  · obtain ⟨_, hdepth, hpend, henv⟩ := (exec_finishes (p := .host) not_false fun _ => rfl).host hx
    exact .inr ⟨c, hmem, ⟨rfl, rfl, rfl, rfl, rfl, hdepth, hpend, henv⟩⟩

end Sys2Proof.Machine
end

section
/-! SUPPORT. The sequencer's transitions (60_exceptions.md R333): what the faulted state, the sample commands and the
pixel commands do to `PHASE` and `CH`, and from them and `exec_endsAs` every transition there is. -/

namespace Sys2Proof.Machine

/-! ### Commands that record a sample or a pixel -/

/-- The sample command of the present 1-D phase. -/
def SampleCommand (i : Instr) (s : State) : Prop :=
  ((∃ a b, i = .rsd1 a b) ∧ s.phase = .s1anl) ∨ ((∃ a b, i = .enc1 a b) ∧ s.phase = .s1enc) ∨
    ((∃ a, i = .dec1 a) ∧ s.phase = .s1dec)

/-- The pixel command of the present 2-D phase. -/
def PixelCommand (i : Instr) (s : State) : Prop :=
  ((∃ a, i = .rsd2 a) ∧ s.phase = .s2anl) ∨ ((∃ a, i = .enc2 a) ∧ s.phase = .s2enc) ∨ (i = .dec2 ∧ s.phase = .s2dec)

section
variable {i : Instr} {s t : State}

/-- A command that leaves a healthy core unfaulted was legal. -/
theorem legalWhen_of_unfaulted (hs : s.cause = none) (hx : exec i s = .next t) (ht : t.cause = none) :
    legalWhen i s = true := by
  cases hl : legalWhen i s with
  | true => rfl
  | false =>
    rw [exec_illegal hs hl] at hx
    cases hx
    cases ht

/-- A legal command that records a datum is the one of the present phase. -/
theorem command_of_codesDatum (hi : codesDatum i = true) (hl : legalWhen i s = true) :
    SampleCommand i s ∨ PixelCommand i s := by
  cases i with
  | rsd1 a b => exact .inl (.inl ⟨⟨a, b, rfl⟩, of_decide_eq_true hl⟩)
  | enc1 a b => exact .inl (.inr (.inl ⟨⟨a, b, rfl⟩, (of_decide_eq_true hl).2⟩))
  | dec1 a => exact .inl (.inr (.inr ⟨⟨a, rfl⟩, (of_decide_eq_true hl).2⟩))
  | rsd2 a => exact .inr (.inl ⟨⟨a, rfl⟩, of_decide_eq_true hl⟩)
  | enc2 a => exact .inr (.inr (.inl ⟨⟨a, rfl⟩, (of_decide_eq_true hl).2⟩))
  | dec2 => exact .inr (.inr (.inr ⟨rfl, (of_decide_eq_true hl).2⟩))
  | _ => cases hi

section
variable (h : Ready s) (hx : exec i s = .next t) (hc : t.cause = none)
include h hx hc

/-- Only GETBIT ends without a fault and without an answer `Ok`. -/
theorem answered_of_unfaulted (hi : i ≠ .getbit) : ∃ v, t.resp = some (.ok v) := by
  rcases faultsByCommand i s t h.healthy hx with ⟨_, hok | ⟨hg, _⟩⟩ | ⟨c, _, hf⟩
  · exact hok
  · exact absurd hg hi
  · rw [hf.cause] at hc; cases hc

theorem SampleCommand.advances (hi : SampleCommand i s) : ∃ x, SampleAdvanced x s t := by
  rcases hi with ⟨⟨a, b, rfl⟩, _⟩ | ⟨⟨a, b, rfl⟩, _⟩ | ⟨⟨a, rfl⟩, _⟩
  · exact ⟨_, rsd1_advances h hc hx⟩
  · exact ⟨_, enc1_advances h hc hx⟩
  · obtain ⟨v, hv⟩ := answered_of_unfaulted h hx hc nofun
    exact ⟨_, dec1_advances h hc hx hv⟩

theorem PixelCommand.advances (hi : PixelCommand i s) : ∃ x, PixelAdvanced x s t := by
  rcases hi with ⟨⟨a, rfl⟩, _⟩ | ⟨⟨a, rfl⟩, _⟩ | ⟨rfl, _⟩
  · exact ⟨_, rsd2_advances h hc hx⟩
  · exact ⟨_, enc2_advances h hc hx⟩
  · obtain ⟨v, hv⟩ := answered_of_unfaulted h hx hc nofun
    exact ⟨_, dec2_advances h hc hx hv⟩

end

/-- A sample ends the phase only as the last of the stream (45_codec1d.md R256). -/
theorem SampleAdvanced.phase_cases {x : Int} (h : SampleAdvanced x s t) : t.phase = s.phase ∨
    (t.phase = .idle ∧ s.idx.toNat + 1 = s.nsamp.toNat ∧ ¬ (s.ch = 0 ∧ s.nch = 2)) := by
  by_cases hlast : s.idx.toNat + 1 = s.nsamp.toNat
  · by_cases hleft : s.ch = 0 ∧ s.nch = 2
    · obtain ⟨_, _, _, _, _, _, hp⟩ := h.nextChannel hlast hleft.1 hleft.2
      exact .inl hp
    · obtain ⟨_, _, _, _, _, _, hp⟩ := h.streamEnd hlast hleft
      exact .inr ⟨hp, hlast, hleft⟩
  · obtain ⟨_, _, _, _, _, _, hp⟩ := h.within hlast
    exact .inl hp

/-- A sample moves on to channel 1 only as the last of a stereo stream's left channel. -/
theorem SampleAdvanced.left_end {x : Int} (h : SampleAdvanced x s t) (h0 : s.ch = 0) (h1 : t.ch = 1) :
    t.phase = s.phase ∧ s.idx.toNat + 1 = s.nsamp.toNat ∧ s.nch = 2 := by
  by_cases hlast : s.idx.toNat + 1 = s.nsamp.toNat
  · by_cases hn : s.nch = 2
    · obtain ⟨_, _, _, _, _, _, hp⟩ := h.nextChannel hlast h0 hn
      exact ⟨hp, hlast, hn⟩
    · obtain ⟨_, _, _, _, _, hch, _⟩ := h.streamEnd hlast fun hleft => hn hleft.2
      rw [hch] at h1; cases h1
  · obtain ⟨_, _, _, _, _, hch, _⟩ := h.within hlast
    rw [hch, h0] at h1; cases h1

/-- A pixel ends the phase only as the last of the plane (46_codec2d.md R283). -/
theorem PixelAdvanced.phase_cases {x : Byte} (h : PixelAdvanced x s t) : t.phase = s.phase ∨
    (t.phase = .idle ∧ s.row.toNat + 1 = s.rows.toNat ∧ s.col.toNat + 1 = s.cols.toNat) := by
  by_cases hend : s.col.toNat + 1 = s.cols.toNat
  · by_cases hlast : s.row.toNat + 1 = s.rows.toNat
    · exact .inr ⟨(h.planeEnd hend hlast).2, hlast, hend⟩
    · exact .inl (h.nextRow hend hlast).2
  · obtain ⟨_, _, _, _, hp⟩ := h.within hend
    exact .inl hp

theorem PixelAdvanced.ch {x : Byte} (h : PixelAdvanced x s t) : t.ch = s.ch := by rw [h.frame]

/-! ### Every transition -/

/-- In the faulted state only RESET moves the sequencer or clears the cause (60_exceptions.md R322). -/
theorem exec_faulted_keeps {c : Cause} (hs : s.cause = some c) (hr : i ≠ .reset) (hx : exec i s = .next t) :
    t.phase = s.phase ∧ t.cause = some c := by
  by_cases hst : i = .rdreg .status
  · subst hst
    cases hx
    exact ⟨rfl, hs⟩
  · rw [exec_faulted hs hr hst] at hx
    cases hx
    exact ⟨rfl, hs⟩

/-- The commands that enter a phase. -/
theorem phaseEntered_cases {p : Phase} (h : phaseEntered i = some p) :
    (i = .begin1a ∧ p = .s1anl) ∨ (i = .wrhdr1 ∧ p = .s1enc) ∨ (i = .rdhdr1 ∧ p = .s1dec) ∨
      (i = .begin2a ∧ p = .s2anl) ∨ (i = .wrhdr2 ∧ p = .s2enc) ∨ (i = .rdhdr2 ∧ p = .s2dec) := by
  cases i with
  | begin1a | wrhdr1 | rdhdr1 | begin2a | wrhdr2 | rdhdr2 => cases h; simp
  | _ => cases h

end

/-- Settles O59: a fault and RESET leave the sequencer idle; otherwise a command that records no datum moves it as
`Sequenced` says, and one that does is the command of the present phase and moves it as the advance does. -/
theorem phaseTransitions : Obligations.PhaseTransitions := by
  unfold Obligations.PhaseTransitions
  intro i s t hinv hx
  cases hs : s.cause with
  | some c =>
    by_cases hr : i = .reset
    · subst hr
      cases hx
      exact ⟨fun _ => .inr ⟨rfl, .inr (.inr (.inl rfl))⟩, fun _ _ h1 => nomatch h1⟩
    · obtain ⟨hp, hc⟩ := exec_faulted_keeps hs hr hx
      exact ⟨fun hne => absurd hp hne, fun hn => nomatch hc.symm.trans hn⟩
  | none =>
    have hready : Ready s := ⟨hinv, hs⟩
    rcases exec_endsAs hs i t hx with ⟨r, u, hu, rfl⟩ | ⟨c, u, _, rfl⟩
    · have hc : (respond r u).cause = none := hu.cause.trans hs
      cases hi : codesDatum i with
      | false =>
        obtain ⟨hphase, hch⟩ := hu.sequenced hi
        refine ⟨fun hne => ?_, fun _ h0 h1 => nomatch (hch h0).symm.trans h1⟩
        rcases hphase with hp | ⟨hp, rfl | rfl⟩ | ⟨hp, he⟩
        · exact absurd hp hne
        · exact .inr ⟨hp, .inr (.inl rfl)⟩
        · exact .inr ⟨hp, .inr (.inr (.inl rfl))⟩
        · exact .inl ⟨hp, phaseEntered_cases he⟩
      | true =>
        rcases command_of_codesDatum hi (legalWhen_of_unfaulted hs hx hc) with hcmd | hcmd
        · obtain ⟨x, hadv⟩ := hcmd.advances hready hx hc
          refine ⟨fun hne => ?_, fun _ h0 h1 => ⟨hcmd, hadv.left_end h0 h1⟩⟩
          obtain ⟨hp, hlast⟩ := hadv.phase_cases.resolve_left hne
          exact .inr ⟨hp, .inr (.inr (.inr (.inl ⟨hcmd, hlast⟩)))⟩
        · obtain ⟨x, hadv⟩ := hcmd.advances hready hx hc
          refine ⟨fun hne => ?_, fun _ h0 h1 => nomatch (hadv.ch.trans h0).symm.trans h1⟩
          obtain ⟨hp, hlast⟩ := hadv.phase_cases.resolve_left hne
          exact .inr ⟨hp, .inr (.inr (.inr (.inr ⟨hcmd, hlast⟩)))⟩
    · exact ⟨fun _ => .inr ⟨rfl, .inl nofun⟩, fun hn => nomatch hn⟩

end Sys2Proof.Machine
end

section
/-! SUPPORT. Reset (70_reset_and_hazards.md R350, 10_state.md R50): what can be observed of the state that `resetState`
leaves, and that each of the three ways into reset leaves such a state. -/

namespace Sys2Proof.Machine

/-! ### What `resetState` leaves -/

theorem statusWord_resetState (s : State) : statusWord (resetState s) = 0 :=
  statusWord_closed_idle (s := resetState s) rfl rfl

/-- Every numbered register is 0 but `M`, which is 1 (R27, R50). -/
theorem readReg_resetState (r : Reg) (s : State) : readReg r (resetState s) = if r = .m then 1 else 0 := by
  cases r with
  | status => exact statusWord_resetState s
  | sumlo | sumhi => exact BitVec.extractLsb'_zero
  | _ => rfl

theorem read_line_resetState (s : State) (i : Nat) : (resetState s).line.read i = 0 :=
  (Memory.read_nil i).trans Memory.unlisted_eq

/-! ### The ways into reset -/

/-- A state in which resetting changes nothing: every piece of the spec's state has its reset value already. -/
def AtReset (t : State) : Prop := resetState t = t

theorem atReset_reset : AtReset State.reset := rfl

theorem atReset_hardReset (rest : List HostEvent) (s : State) : AtReset (hardReset rest s) := rfl

theorem atReset_of_exec_reset {s t : State} (h : exec .reset s = .next t) : AtReset t := by
  cases h
  rfl

theorem atReset_of_step_hardwareReset {s t : State} {rest : List HostEvent}
    (hp : s.pending = .hardwareReset :: rest) (h : step s = .next t) : AtReset t := by
  rw [step_hardwareReset hp] at h
  cases h
  exact atReset_hardReset rest s

/-- Settles O6: each way into reset leaves a state that is its own reset, so what `resetState` leaves can be observed
of it. -/
theorem resetValues : Obligations.ResetValues := by
  unfold Obligations.ResetValues
  intro t ht
  have hreset : AtReset t := by
    rcases ht with rfl | ⟨s, hexec⟩ | ⟨s, rest, hp, hstep⟩
    · exact atReset_reset
    · exact atReset_of_exec_reset hexec
    · exact atReset_of_step_hardwareReset hp hstep
  rw [← hreset]
  exact ⟨statusWord_resetState t, fun r => readReg_resetState r t, rfl, rfl, rfl, rfl, read_line_resetState t⟩

end Sys2Proof.Machine
end
